-- ==== Sys2Proof/Word.lean ====
section
/-! DEFINITION. The word types of the HFA core (spec/00_scope.md R5): bytes, 32-bit words, node indices,
and the fixed-size tables indexed by a bit vector. -/

namespace Sys2Proof

/-- A symbol or a buffer byte, SYM_W = 8 bits (R5). -/
abbrev Byte := BitVec 8

/-- A register or a command word, 32 bits (R5). -/
abbrev Word := BitVec 32

/-- An index into the node arena, 9 bits (R5). -/
abbrev NodeIdx := BitVec 9

/-- NIL, "no child": index 0x1FF, never allocated (R5, 10_state.md R31). -/
def nilIdx : NodeIdx := 0x1FF#9

/-- A table memory with one entry per value of a `w`-bit index: FT and CT have w = 8, NODE has w = 9 (R30 to R32). -/
abbrev Table (α : Type) (w : Nat) := Vector α (2 ^ w)

end Sys2Proof
end

