-- ==== Sys2Proof/Syntax.lean ====
section
/-! DEFINITION. The ten commands of spec/opcode_table.json and the raw fields of a command word
(30_encoding.md R84, R85). -/

namespace Sys2Proof

/-- The commands, one constructor per row of spec/opcode_table.json. `lenient` is the L flag (R84). -/
inductive Instr where
  | nop
  | clear
  | freq
  | tree
  | codes
  | pack
  | load
  | walk (lenient : Bool)
  | compress
  | decompress (lenient : Bool)
  deriving DecidableEq, Repr

/-- The three fields of a command word (R84): OP in 7:0, L in 8, ZERO in 31:9. -/
structure CmdFields where
  op : BitVec 8
  l : Bool
  zero : BitVec 23
  deriving DecidableEq, Repr

/-- Why a command word is no legal encoding (R86). -/
inductive DecodeError where
  /-- OP is none of the ten opcodes of R85. -/
  | opcodeUnassigned
  /-- L = 1 with an opcode other than WALK and DECOMPRESS. -/
  | lenientNotAllowed
  /-- A bit of 31:9 is 1. -/
  | zeroFieldNotZero
  deriving DecidableEq, Repr

end Sys2Proof
end

