-- ==== Sys2Proof/WellFormed.lean ====
section
/-! DEFINITION. Which raw command fields are a legal encoding (30_encoding.md R84 to R86), each condition of the
spec as a check of its own, and the well-formedness of an instruction. -/

namespace Sys2Proof

/-- OP is one of the ten opcodes of R85. -/
def CmdFields.opAssigned (f : CmdFields) : Bool :=
  [0x00#8, 0x01#8, 0x10#8, 0x11#8, 0x12#8, 0x13#8, 0x14#8, 0x15#8, 0x20#8, 0x21#8].contains f.op

/-- "may be 1 only with WALK and DECOMPRESS" (R84). -/
def CmdFields.lenientAllowed (f : CmdFields) : Bool :=
  !f.l || f.op == 0x15#8 || f.op == 0x21#8

/-- "must be 0" (R84). -/
def CmdFields.zeroClear (f : CmdFields) : Bool := f.zero == 0#23

/-- The fields of a legal command word (R86). -/
def CmdFields.wellFormed (f : CmdFields) : Bool :=
  f.opAssigned && f.lenientAllowed && f.zeroClear

/-- Every term of `Instr` is well-formed: a command's only operand is L, and R85 allows both of its values to the two
commands that carry it. -/
def Instr.wellFormed : Instr → Bool
  | .nop | .clear | .freq | .tree | .codes | .pack | .load | .compress => true
  | .walk l => l || !l
  | .decompress l => l || !l

end Sys2Proof
end

