-- ==== Sys2Proof/Decode.lean ====
section
/-! DEFINITION. The decoder of command words, total on all 2^32 of them and rejecting by name, and the encoder
(30_encoding.md R84 to R86). -/

namespace Sys2Proof

/-- The fields of a command word (R84). -/
def fieldsOf (w : Word) : CmdFields :=
  { op := w.extractLsb' 0 8, l := w.getLsbD 8, zero := w.extractLsb' 9 23 }

/-- The command word of the fields (R84). -/
def wordOfFields (f : CmdFields) : Word :=
  f.zero ++ BitVec.ofBool f.l ++ f.op

/-- The opcode map (R85) for L = 0. -/
def opStrict (op : BitVec 8) : Option Instr :=
  if op = 0x00#8 then some .nop
  else if op = 0x01#8 then some .clear
  else if op = 0x10#8 then some .freq
  else if op = 0x11#8 then some .tree
  else if op = 0x12#8 then some .codes
  else if op = 0x13#8 then some .pack
  else if op = 0x14#8 then some .load
  else if op = 0x15#8 then some (.walk false)
  else if op = 0x20#8 then some .compress
  else if op = 0x21#8 then some (.decompress false)
  else none

/-- The opcode map (R85) for L = 1. -/
def opLenient (op : BitVec 8) : Option Instr :=
  if op = 0x15#8 then some (.walk true)
  else if op = 0x21#8 then some (.decompress true)
  else none

/-- Decode a command word (R86): the legal words are exactly the twelve of R85. -/
def decode (w : Word) : Except DecodeError Instr :=
  let f := fieldsOf w
  match opStrict f.op with
  | none => .error .opcodeUnassigned
  | some i =>
    if f.zero ≠ 0#23 then .error .zeroFieldNotZero
    else if f.l then
      match opLenient f.op with
      | some j => .ok j
      | none => .error .lenientNotAllowed
    else .ok i

/-- The fields of a command (R85). -/
def fieldsOfInstr : Instr → CmdFields
  | .nop => ⟨0x00#8, false, 0#23⟩
  | .clear => ⟨0x01#8, false, 0#23⟩
  | .freq => ⟨0x10#8, false, 0#23⟩
  | .tree => ⟨0x11#8, false, 0#23⟩
  | .codes => ⟨0x12#8, false, 0#23⟩
  | .pack => ⟨0x13#8, false, 0#23⟩
  | .load => ⟨0x14#8, false, 0#23⟩
  | .walk l => ⟨0x15#8, l, 0#23⟩
  | .compress => ⟨0x20#8, false, 0#23⟩
  | .decompress l => ⟨0x21#8, l, 0#23⟩

/-- The command word of a command (R95 lists them as `enc`). -/
def encode (i : Instr) : Word := wordOfFields (fieldsOfInstr i)

/-- What the decoder reads from a command whose bits are `w`; a command is one 32-bit word (R84), so every bit at and
above `nbits` is 0 and a number of more than 32 bits is no command. -/
def decodeTableWord (nbits w : Nat) : Option Instr :=
  if w % 2 ^ nbits < 2 ^ 32 then
    match decode (BitVec.ofNat 32 (w % 2 ^ nbits)) with
    | .ok i => some i
    | .error _ => none
  else none

end Sys2Proof
end

