-- ==== Sys2Proof/Config.lean ====
section
/-! DEFINITION. What the spec leaves to the implementation (00_scope.md R6, 93_implementation_defined.md U20 to U22)
and the model's free values. Nothing here has a body, so nothing can be proved about a value. -/

namespace Sys2Proof

/-- The bits that choose the capacity of IBUF (log 4): with `Config.inCap` every capacity R6 allows, and no other. -/
opaque Config.inCapBits : BitVec 28

/-- The bits that choose the capacity of OBUF (log 4). -/
opaque Config.outCapBits : BitVec 28

/-- IN_CAP, 1 to 2^28 (R6). -/
def Config.inCap : Nat := Config.inCapBits.toNat + 1

/-- OUT_CAP, 1 to 2^28 (R6). -/
def Config.outCap : Nat := Config.outCapBits.toNat + 1

/-- FREE VALUE (log 6): the byte of IBUF at an offset that nothing has written (70_reset_and_hazards.md R202). -/
opaque Config.ibufFree : Nat → Byte

/-- FREE VALUE (log 7): the byte of OBUF at an offset that nothing has written since OBUF last became havoc;
the first argument counts those events (10_state.md R42, R202). -/
opaque Config.obufFree : Nat → Nat → Byte

/-- FREE VALUE (log 5): the n-th draw of D_busy, less one (R215: D_busy is finite and at least 1). -/
opaque Config.busyDraw : Nat → Nat

end Sys2Proof
end

