-- ==== Sys2Proof/Machine/State.lean ====
section
/-! DEFINITION. The state of the HFA core as plain data (spec/10_state.md), its reset value (R45), the reasons a step
can stop, and the host's coming actions on the register port (20_memory.md R57, 30_encoding.md R95). -/

namespace Sys2Proof.Machine

/-- STATUS.ERR (60_exceptions.md R170). Codes 10 to 15 are never produced and have no constructor (U26). -/
inductive ErrCode where
  | none
  | empty
  | inlen
  | overflow
  | envelope
  | midtree
  | badpath
  | seq
  | illcmd
  | invariant
  deriving DecidableEq, Repr

/-- An entry of FT (R30). -/
structure FtEntry where
  sym : Byte
  cnt : Word
  deriving DecidableEq, Repr, Inhabited

/-- An entry of NODE (R31). -/
structure NodeEntry where
  leaf : Bool
  sym : Byte
  left : NodeIdx
  right : NodeIdx
  deriving DecidableEq, Repr, Inhabited

/-- An entry of CT (R32): bit i of `code` is the i-th choice from the root, 0 left, 1 right. -/
structure CtEntry where
  valid : Bool
  len : BitVec 4
  code : BitVec 8
  deriving DecidableEq, Repr, Inhabited

/-- A frame of the walk stack of CODES (R40). -/
structure Frame where
  node : NodeIdx
  code : BitVec 8
  len : BitVec 4
  deriving DecidableEq, Repr

/-- The hidden working state no register shows (R40), but for SEQ and BUSYCNT. None of it survives a command; a unit
leaves in it the last values of its loops (log 9). -/
structure Work where
  /-- CMDL, the L flag of the accepted word. -/
  cmdl : Bool
  /-- HIST, occurrences per symbol (FREQ). -/
  hist : Table Word 8
  /-- DISC[0..NDIST-1], the distinct symbols in order of first occurrence; NDIST is the list's length. -/
  disc : List Byte
  /-- QA and QB, the working and the second queue (TREE), front first. -/
  qa : List NodeIdx
  qb : List NodeIdx
  /-- STACK (CODES), top first. -/
  stack : List Frame
  /-- ACC and ACC_N, bits not yet written and how many (PACK). -/
  acc : Byte
  accN : BitVec 4
  /-- IPOS and OPOS, byte cursors into IBUF and OBUF. -/
  ipos : Word
  opos : Word
  /-- BPOS, the index of the next payload bit (WALK). -/
  bpos : Word
  /-- CUR, the decode cursor (WALK). -/
  cur : NodeIdx
  deriving DecidableEq, Repr

/-- A buffer's memory: (offset, byte) pairs, offsets strictly rising, one pair per byte something has written. A byte
nothing has written is not listed and has no value here (log 17). -/
abbrev Mem := List Host.Cell

/-- A transaction on the register port (20_memory.md R57). The address is the word address `addr[15:2]`. -/
inductive Txn where
  | read (addr : BitVec 14)
  | write (addr : BitVec 14) (wdata : Word)
  deriving DecidableEq, Repr

/-- The answer of the port to a transaction: `rdata` and `err` (R57). -/
structure Resp where
  rdata : Word
  err : Bool
  deriving DecidableEq, Repr

/-- What the host does in one clock cycle. -/
inductive HostAct where
  /-- `req = 0`, `rst = 0`. -/
  | idle
  /-- One transaction. -/
  | txn (t : Txn)
  /-- The script line `wait` (30_encoding.md R95): read STATUS, and again in the next cycle while BUSY reads 1. -/
  | wait
  /-- `rst = 1` in this cycle, perhaps with a transaction (70_reset_and_hazards.md R200). -/
  | rst (t : Option Txn)
  deriving DecidableEq, Repr

/-- Why the machine stops. Every one is raised only in a state that no run reaches (log 11), where the spec's
pseudocode has no meaning; stopping there is safe. -/
inductive Fault where
  /-- WALK reads IBUF at an offset that does not exist, at or beyond IN_CAP (R41); ruled out by R16. Safe. -/
  | ibufRange (offset : Nat)
  /-- TREE or PACK finds a FT_N that is not the number of entries of a valid table (R16, R30). Safe. -/
  | ftCount (n : Nat)
  /-- CODES goes deeper than the 9 frames of STACK (R40); ruled out by R115. Safe. -/
  | stackDepth (node : NodeIdx)
  deriving DecidableEq, Repr

/-- Why a step has no meaning. Every command of the table has its meaning, so none is raised. -/
inductive Refusal where
  /-- For an arm of `exec` with no meaning yet; raised by none (safe). -/
  | notModelled (mnemonic : String)
  deriving DecidableEq, Repr

/-- The state of the block and of what stands before its port. -/
structure State where
  /-- IN_CAP and OUT_CAP, hardwired (R12); no step changes them (log 4). -/
  inCap : Nat
  outCap : Nat
  /-- STATUS (R14) but for BUSY, which is `seq` not idle (log 3). -/
  done : Bool
  error : Bool
  ovr : Bool
  ftV : Bool
  treeV : Bool
  ctV : Bool
  payV : Bool
  mid : Bool
  err : ErrCode
  lastop : Byte
  /-- CTRL (R15). -/
  die : Bool
  eie : Bool
  /-- The operand and result registers (R12, R13); TREEINFO is `root` and `nodeN`. -/
  inLen : Word
  outLen : Word
  errInfo : Word
  ftN : BitVec 9
  root : NodeIdx
  nodeN : BitVec 10
  encBits : Word
  decBits : Word
  payBase : Word
  /-- The data-port pointers (20_memory.md R58, R59). -/
  iptr : Word
  optr : Word
  /-- The table memories (R30 to R32). -/
  ft : Table FtEntry 8
  node : Table NodeEntry 9
  ct : Table CtEntry 8
  /-- The buffers (R41, R42). `obufGen` is the model's own: how often OBUF became havoc (log 7). -/
  ibuf : Mem
  obuf : Mem
  obufGen : Nat
  /-- SEQ: idle, or the whole latched command word (R40, R81). -/
  seq : Option Word
  /-- BUSYCNT: cycles left until completion (R40). -/
  busycnt : Nat
  work : Work
  /-- The model's own: the host's coming cycles (log 1), the port's last answer (log 12), and the number of draws of
  D_busy (log 5). -/
  script : List HostAct
  resp : Option Resp
  draws : Nat
  deriving DecidableEq, Repr

/-- The working state after reset, where the spec gives no value (log 9). -/
def Work.initial : Work :=
  { cmdl := false, hist := Vector.replicate (2 ^ 8) 0#32, disc := [], qa := [], qb := [], stack := [],
    acc := 0#8, accN := 0#4, ipos := 0#32, opos := 0#32, bpos := 0#32, cur := 0#9 }

/-- The state right after reset (R45), with no host action to come. -/
def State.reset : State :=
  { inCap := Config.inCap, outCap := Config.outCap,
    done := false, error := false, ovr := false, ftV := false, treeV := false, ctV := false, payV := false,
    mid := false, err := .none, lastop := 0#8,
    die := false, eie := false,
    inLen := 0#32, outLen := 0#32, errInfo := 0#32, ftN := 0#9, root := 0#9, nodeN := 0#10,
    encBits := 0#32, decBits := 0#32, payBase := 0#32, iptr := 0#32, optr := 0#32,
    ft := Vector.replicate (2 ^ 8) ⟨0#8, 0#32⟩,
    node := Vector.replicate (2 ^ 9) ⟨false, 0#8, 0#9, 0#9⟩,
    ct := Vector.replicate (2 ^ 8) ⟨false, 0#4, 0#8⟩,
    ibuf := [], obuf := [], obufGen := 0,
    seq := none, busycnt := 0, work := Work.initial,
    script := [], resp := none, draws := 0 }

end Sys2Proof.Machine
end

