-- ==== Sys2Proof/Machine/Ops.lean ====
section
/-! DEFINITION. The named operations over tables, buffers and registers, and the shared events of a command's life:
acceptance (30_encoding.md R81), refusal (R82), completion (R83), error entry (60_exceptions.md R176), the return by
CLEAR (R178), reset (70_reset_and_hazards.md R200). -/

namespace Sys2Proof.Machine

/-! ### Tables -/

/-- `x[i]` (R8). -/
def tableGet {α : Type} {w : Nat} (t : Table α w) (i : BitVec w) : α := t[i.toNat]'i.isLt

/-- `x[i] <- v` (R8). -/
def tablePut {α : Type} {w : Nat} (t : Table α w) (i : BitVec w) (v : α) : Table α w := t.set i.toNat v i.isLt

/-- Write the list to entries 0, 1, ... of the table; the entries at and above its length keep their bits. -/
def tableOverlay {α : Type} {w : Nat} (t : Table α w) (l : List α) : Table α w :=
  ⟨((l ++ t.toList.drop l.length).take (2 ^ w)).toArray, by
    have h : t.toList.length = 2 ^ w := by simp
    simp only [List.size_toArray, List.length_take, List.length_append, List.length_drop, h]
    omega⟩

/-- The first `n` entries of a table. -/
def tableTake {α : Type} {w : Nat} (t : Table α w) (n : Nat) : List α := t.toList.take n

/-! ### Buffers -/

/-- The byte written at offset `k`, if something has written it. -/
def memRead : Mem → Nat → Option Byte
  | [], _ => none
  | (a, b) :: m, k => if k = a then some b else memRead m k

/-- Write a byte at offset `k`, keeping the offsets strictly rising. -/
def memWrite : Mem → Nat → Byte → Mem
  | [], k, v => [(k, v)]
  | (a, b) :: m, k, v =>
    if k < a then (k, v) :: (a, b) :: m
    else if k = a then (k, v) :: m
    else (a, b) :: memWrite m k v

/-- Write the bytes at offsets `k`, `k + 1`, ... (R8, `MemWrite` of more than one byte). -/
def memWriteList : Mem → Nat → List Byte → Mem
  | m, _, [] => m
  | m, k, v :: vs => memWriteList (memWrite m k v) (k + 1) vs

/-- The canonical form of a buffer's memory: offsets strictly rising. -/
def Memory.wf : Mem → Bool
  | [] => true
  | [_] => true
  | (a, _) :: (b, x) :: m => decide (a < b) && Memory.wf ((b, x) :: m)

/-- Every listed offset exists in a buffer of `cap` bytes. -/
def memBelow (cap : Nat) (m : Mem) : Bool := m.all fun c => decide (c.1 < cap)

/-- `IBUF[a]`: the byte written there, else the stable free value it held at reset (R202, log 6). -/
def State.ibufByte (s : State) (a : Nat) : Byte := (memRead s.ibuf a).getD (Config.ibufFree a)

/-- `OBUF[a]`: the byte written there since OBUF last became havoc, else a free value (R42, R202, log 7). -/
def State.obufByte (s : State) (a : Nat) : Byte := (memRead s.obuf a).getD (Config.obufFree s.obufGen a)

/-- Every byte of OBUF becomes havoc (R42): nothing is known of it, and nothing earlier is related to it. -/
def havocObuf (s : State) : State := { s with obuf := [], obufGen := s.obufGen + 1 }

/-! ### Byte order (20_memory.md R51) -/

/-- `u16le` (R7). -/
def u16le (b0 b1 : Byte) : Nat := b0.toNat + 2 ^ 8 * b1.toNat

/-- `u32le` (R7). -/
def u32le (b0 b1 b2 b3 : Byte) : Nat :=
  b0.toNat + 2 ^ 8 * b1.toNat + 2 ^ 16 * b2.toNat + 2 ^ 24 * b3.toNat

/-- The two bytes of a 16-bit quantity, least significant first. -/
def bytes16 (n : Nat) : List Byte := [BitVec.ofNat 8 n, BitVec.ofNat 8 (n / 2 ^ 8)]

/-- The four bytes of a 32-bit quantity, least significant first. -/
def bytes32 (n : Nat) : List Byte :=
  [BitVec.ofNat 8 n, BitVec.ofNat 8 (n / 2 ^ 8), BitVec.ofNat 8 (n / 2 ^ 16), BitVec.ofNat 8 (n / 2 ^ 24)]

/-- `ceil8(B)`, the number of bytes that hold B bits (R7). -/
def ceil8 (b : Nat) : Nat := (b + 7) / 8

/-! ### What a piece of pseudocode comes to -/

/-- The end of a piece of pseudocode over `σ`: it runs to its end, it raises (R8: nothing after a `raise` executes;
the state as it is then is kept), or it has no meaning (log 11). -/
inductive Run (σ : Type) where
  | ok (s : σ)
  | raise (e : ErrCode) (info : Word) (s : σ)
  | fault (f : Fault)
  deriving DecidableEq, Repr

/-- One piece of pseudocode after another. -/
def Run.andThen {σ : Type} (r : Run σ) (f : σ → Run σ) : Run σ :=
  match r with
  | .ok s => f s
  | .raise e info s => .raise e info s
  | .fault x => .fault x

/-- A part of a command that a `raise` ends with OBUF havoc (R42, R213). -/
def spoilOnRaise (r : Run State) : Run State :=
  match r with
  | .ok s => .ok s
  | .raise e info s => .raise e info (havocObuf s)
  | .fault x => .fault x

/-- A loop over a list, left at the first `raise`. -/
def runList {σ α : Type} (f : α → σ → Run σ) : List α → σ → Run σ
  | [], s => .ok s
  | a :: as, s => (f a s).andThen (runList f as)

/-- A loop run `n` times, left at the first `raise`. -/
def runTimes {σ : Type} (f : σ → Run σ) : Nat → σ → Run σ
  | 0, s => .ok s
  | n + 1, s => (f s).andThen (runTimes f n)

/-! ### The life of a command -/

/-- STATUS.BUSY (R14): the engine has a command in execution (log 3). -/
def State.busy (s : State) : Bool := s.seq.isSome

/-- Acceptance (R81): BUSY, DONE, MID, LASTOP, CMDL, SEQ, BUSYCNT and nothing else. D_busy is a free draw of at least 1
(R215, log 5). -/
def accept (w : Word) (s : State) : State :=
  { s with
    done := false, mid := false, lastop := w.extractLsb' 0 8,
    seq := some w, busycnt := Config.busyDraw s.draws + 1, draws := s.draws + 1,
    work := { s.work with cmdl := w.getLsbD 8 } }

/-- A host access that is dropped sets OVR: a locked access (20_memory.md R60), a command while ERROR (R82). -/
def setOvr (s : State) : State := { s with ovr := true }

/-- Completion without `raise` (R83): DONE 1, BUSY 0. -/
def succeed (s : State) : State := { s with done := true, seq := none, busycnt := 0 }

/-- TAKING AN ERROR: the completion step of a command that raised (R176). -/
def errorEntry (e : ErrCode) (info : Word) (s : State) : State :=
  { s with
    err := e, errInfo := info, error := true, done := false, outLen := 0#32,
    seq := none, busycnt := 0 }

/-- THE RETURN FROM THE ERROR STATE (R178) and the whole effect of CLEAR (45_control.md R161). -/
def clearState (s : State) : State :=
  { s with
    done := false, error := false, ovr := false, ftV := false, treeV := false, ctV := false, payV := false,
    mid := false, err := .none, lastop := 0#8,
    errInfo := 0#32, outLen := 0#32, ftN := 0#9, root := 0#9, nodeN := 0#10,
    encBits := 0#32, decBits := 0#32, payBase := 0#32 }

/-- The completion step of a command whose body came to `r` (R83). -/
def settle (r : Run State) : Host.Outcome State Fault Refusal :=
  match r with
  | .ok s => .next (succeed s)
  | .raise e info s => .next (errorEntry e info s)
  | .fault f => .fault f

/-- The commands whose abandonment by a reset leaves OBUF havoc (R202). -/
def writesObuf : Instr → Bool
  | .pack | .walk _ | .compress | .decompress _ => true
  | .nop | .clear | .freq | .tree | .codes | .load => false

/-- The command in execution writes OBUF. -/
def State.obufAtRisk (s : State) : Bool :=
  match s.seq with
  | none => false
  | some w =>
    match decode w with
    | .ok i => writesObuf i
    | .error _ => false

/-- A cycle with `rst = 1` (R200): every register takes its reset value (R45), the command in execution is abandoned;
the buffers keep their bytes, but OBUF is havoc if the abandoned command writes it (R202). The tables and the working
state keep their bits, which nothing can observe (log 13). -/
def resetRegs (s : State) : State :=
  let k := if s.obufAtRisk then havocObuf s else s
  { State.reset with
    inCap := k.inCap, outCap := k.outCap, ft := k.ft, node := k.node, ct := k.ct,
    ibuf := k.ibuf, obuf := k.obuf, obufGen := k.obufGen, work := k.work,
    script := k.script, draws := k.draws }

end Sys2Proof.Machine
end

