-- ==== Sys2Proof/Machine/Flags.lean ====
section
/-! DEFINITION. The words of STATUS and CTRL, the error codes, the interrupt output, and the start effects of the unit
commands on the valid flags (10_state.md R14, R15, R39, 60_exceptions.md R170, R180). -/

namespace Sys2Proof.Machine

/-- The code of an error (R170). -/
def errNumber : ErrCode → BitVec 4
  | .none => 0#4
  | .empty => 1#4
  | .inlen => 2#4
  | .overflow => 3#4
  | .envelope => 4#4
  | .midtree => 5#4
  | .badpath => 6#4
  | .seq => 7#4
  | .illcmd => 8#4
  | .invariant => 9#4

/-- One bit of a register word. -/
def bit1 (b : Bool) : BitVec 1 := BitVec.ofBool b

/-- The word a read of STATUS returns (R14), high bits first. -/
def statusWord (s : State) : Word :=
  s.lastop ++ 0#4 ++ errNumber s.err ++ 0#7 ++ bit1 s.mid ++ bit1 s.payV ++ bit1 s.ctV ++ bit1 s.treeV ++
    bit1 s.ftV ++ bit1 s.ovr ++ bit1 s.error ++ bit1 s.done ++ bit1 s.busy

/-- A host write to STATUS (R14): a written 1 clears DONE, OVR; nothing else is written. -/
def writeStatus (w : Word) (s : State) : State :=
  { s with done := s.done && !w.getLsbD 1, ovr := s.ovr && !w.getLsbD 3 }

/-- The word a read of CTRL returns (R15). -/
def ctrlWord (s : State) : Word := 0#30 ++ bit1 s.eie ++ bit1 s.die

/-- A host write to CTRL (R15); the reserved bits ignore it. -/
def writeCtrl (w : Word) (s : State) : State := { s with die := w.getLsbD 0, eie := w.getLsbD 1 }

/-- The interrupt output (R180), level-sensitive, no storage. -/
def State.irq (s : State) : Bool := (s.die && s.done) || (s.eie && s.error)

/-- Start effects of FREQ (R39). -/
def startFreq (s : State) : State :=
  { s with ftV := false, treeV := false, ctV := false, payV := false, ftN := 0#9 }

/-- Start effects of LOAD (R39). -/
def startLoad (s : State) : State :=
  { s with ftV := false, treeV := false, ctV := false, payV := false, ftN := 0#9, decBits := 0#32, payBase := 0#32 }

/-- Start effects of TREE (R39). -/
def startTree (s : State) : State := { s with treeV := false, ctV := false, root := 0#9, nodeN := 0#10 }

/-- Start effect of CODES (R39). -/
def startCodes (s : State) : State := { s with ctV := false }

/-- Start effects of PACK (R39). -/
def startPack (s : State) : State := { s with outLen := 0#32, encBits := 0#32 }

/-- Start effect of WALK (R39). -/
def startWalk (s : State) : State := { s with outLen := 0#32 }

end Sys2Proof.Machine
end

