-- ==== Sys2Proof/Machine/Operands.lean ====
section
/-! DEFINITION. The operands of commands and transactions: the register map (10_state.md R12), the read windows (R35 to
R37), the data ports (20_memory.md R58, R59), the input sequence and the payload bits (R55). -/

namespace Sys2Proof.Machine

/-- The host-visible registers (R12). -/
inductive Reg where
  | id
  | cmd
  | status
  | ctrl
  | inLen
  | outLen
  | errInfo
  | ftN
  | treeInfo
  | encBits
  | decBits
  | payBase
  | inCap
  | outCap
  | iptr
  | idata
  | optr
  | odata
  | ftSym (i : BitVec 8)
  | ftCnt (i : BitVec 8)
  | ctW (i : BitVec 8)
  | nodeW (k : NodeIdx)
  deriving DecidableEq, Repr

/-- The word address `addr[15:2]` of a register (R12). -/
def regAddr : Reg → BitVec 14
  | .id => 0#14
  | .cmd => 1#14
  | .status => 2#14
  | .ctrl => 3#14
  | .inLen => 4#14
  | .outLen => 5#14
  | .errInfo => 6#14
  | .ftN => 7#14
  | .treeInfo => 8#14
  | .encBits => 9#14
  | .decBits => 10#14
  | .payBase => 11#14
  | .inCap => 12#14
  | .outCap => 13#14
  | .iptr => 14#14
  | .idata => 15#14
  | .optr => 16#14
  | .odata => 17#14
  | .ftSym i => BitVec.ofNat 14 (0x100 + i.toNat)
  | .ftCnt i => BitVec.ofNat 14 (0x200 + i.toNat)
  | .ctW i => BitVec.ofNat 14 (0x300 + i.toNat)
  | .nodeW k => BitVec.ofNat 14 (0x400 + k.toNat)

/-- The eighteen registers below the windows, in the order of their offsets (R12). -/
def plainRegs : List Reg :=
  [.id, .cmd, .status, .ctrl, .inLen, .outLen, .errInfo, .ftN, .treeInfo, .encBits, .decBits, .payBase,
   .inCap, .outCap, .iptr, .idata, .optr, .odata]

/-- The register at a word address, `none` where the offset is unmapped (R12, R61). -/
def regAt (addr : BitVec 14) : Option Reg :=
  let n := addr.toNat
  if n < 0x100 then plainRegs[n]?
  else if n < 0x200 then some (.ftSym (BitVec.ofNat 8 (n - 0x100)))
  else if n < 0x300 then some (.ftCnt (BitVec.ofNat 8 (n - 0x200)))
  else if n < 0x400 then some (.ctW (BitVec.ofNat 8 (n - 0x300)))
  else if n < 0x600 then some (.nodeW (BitVec.ofNat 9 (n - 0x400)))
  else none

/-- Class A of R12: accessible while BUSY. -/
def Reg.classA : Reg → Bool
  | .id | .status | .ctrl | .inCap | .outCap => true
  | _ => false

/-- The identification word (R2). -/
def idWord : Word := 0x48464131#32

/-- TREEINFO (R12): ROOT in 8:0, NODE_N in 25:16. -/
def treeInfoWord (s : State) : Word := 0#6 ++ s.nodeN ++ 0#7 ++ s.root

/-- A read of FT_SYM[i] (R35). -/
def ftSymWord (s : State) (i : BitVec 8) : Word :=
  if s.ftV && decide (i.toNat < s.ftN.toNat) then (tableGet s.ft i).sym.setWidth 32 else 0#32

/-- A read of FT_CNT[i] (R35). -/
def ftCntWord (s : State) (i : BitVec 8) : Word :=
  if s.ftV && decide (i.toNat < s.ftN.toNat) then (tableGet s.ft i).cnt else 0#32

/-- The packing of a NODE entry (R36): SYM, LEAF, two zeros, RIGHT, three zeros, LEFT. -/
def nodeWord (e : NodeEntry) : Word := e.sym ++ bit1 e.leaf ++ 0#2 ++ e.right ++ 0#3 ++ e.left

/-- A read of NODE_W[k] (R36). -/
def nodeWinWord (s : State) (k : NodeIdx) : Word :=
  if s.treeV && decide (k.toNat < s.nodeN.toNat) then nodeWord (tableGet s.node k) else 0#32

/-- The packing of a CT entry (R37): CODE in 7:0, LEN in 11:8, VALID in 15. -/
def ctWord (e : CtEntry) : Word := 0#16 ++ bit1 e.valid ++ 0#3 ++ e.len ++ e.code

/-- A read of CT_W[s] (R37). -/
def ctWinWord (s : State) (i : BitVec 8) : Word := if s.ctV then ctWord (tableGet s.ct i) else 0#32

/-- A read of IDATA (R58): answer and next state. -/
def readIdata (s : State) : Resp × State :=
  if s.iptr.toNat < s.inCap then
    (⟨(s.ibufByte s.iptr.toNat).setWidth 32, false⟩, { s with iptr := s.iptr + 1#32 })
  else (⟨0#32, true⟩, s)

/-- A write to IDATA (R58); bits 31:8 are ignored. -/
def writeIdata (w : Word) (s : State) : Resp × State :=
  if s.iptr.toNat < s.inCap then
    (⟨0#32, false⟩, { s with ibuf := memWrite s.ibuf s.iptr.toNat (w.setWidth 8), iptr := s.iptr + 1#32 })
  else (⟨0#32, true⟩, s)

/-- A read of ODATA (R59). -/
def readOdata (s : State) : Resp × State :=
  if s.optr.toNat < s.outCap then
    (⟨(s.obufByte s.optr.toNat).setWidth 32, false⟩, { s with optr := s.optr + 1#32 })
  else (⟨0#32, true⟩, s)

/-- A read of a register that is not locked (R12, R35 to R37, R58, R59); only IDATA and ODATA change anything (R56). -/
def readReg (r : Reg) (s : State) : Resp × State :=
  match r with
  | .id => (⟨idWord, false⟩, s)
  | .cmd => (⟨0#32, false⟩, s)
  | .status => (⟨statusWord s, false⟩, s)
  | .ctrl => (⟨ctrlWord s, false⟩, s)
  | .inLen => (⟨s.inLen, false⟩, s)
  | .outLen => (⟨s.outLen, false⟩, s)
  | .errInfo => (⟨s.errInfo, false⟩, s)
  | .ftN => (⟨s.ftN.setWidth 32, false⟩, s)
  | .treeInfo => (⟨treeInfoWord s, false⟩, s)
  | .encBits => (⟨s.encBits, false⟩, s)
  | .decBits => (⟨s.decBits, false⟩, s)
  | .payBase => (⟨s.payBase, false⟩, s)
  | .inCap => (⟨BitVec.ofNat 32 s.inCap, false⟩, s)
  | .outCap => (⟨BitVec.ofNat 32 s.outCap, false⟩, s)
  | .iptr => (⟨s.iptr, false⟩, s)
  | .idata => readIdata s
  | .optr => (⟨s.optr, false⟩, s)
  | .odata => readOdata s
  | .ftSym i => (⟨ftSymWord s i, false⟩, s)
  | .ftCnt i => (⟨ftCntWord s i, false⟩, s)
  | .ctW i => (⟨ctWinWord s i, false⟩, s)
  | .nodeW k => (⟨nodeWinWord s k, false⟩, s)

/-- A write to a register other than CMD that is not locked (R12 to R15, R58, R59, R38); a read-only one ignores it. -/
def writeReg (r : Reg) (w : Word) (s : State) : Resp × State :=
  match r with
  | .status => (⟨0#32, false⟩, writeStatus w s)
  | .ctrl => (⟨0#32, false⟩, writeCtrl w s)
  | .inLen => (⟨0#32, false⟩, { s with inLen := w })
  | .iptr => (⟨0#32, false⟩, { s with iptr := w })
  | .optr => (⟨0#32, false⟩, { s with optr := w })
  | .idata => writeIdata w s
  | .id | .cmd | .outLen | .errInfo | .ftN | .treeInfo | .encBits | .decBits | .payBase | .inCap | .outCap
  | .odata | .ftSym _ | .ftCnt _ | .ctW _ | .nodeW _ => (⟨0#32, false⟩, s)

/-- `IBUF[0], ..., IBUF[n-1]`. -/
def State.ibufBytes (s : State) (n : Nat) : List Byte := (List.range n).map s.ibufByte

/-- The input sequence `IBUF[0..IN_LEN-1]` (R100). -/
def State.input (s : State) : List Byte := s.ibufBytes s.inLen.toNat

/-- `OBUF[0], ..., OBUF[n-1]`. -/
def State.obufBytes (s : State) (n : Nat) : List Byte := (List.range n).map s.obufByte

/-- The valid entries of FT, `FT[0..FT_N-1]` (R30). -/
def State.ftList (s : State) : List FtEntry := tableTake s.ft s.ftN.toNat

/-- The offset in IBUF of the byte that holds payload bit `k` (R55). -/
def payOffset (s : State) (k : Nat) : Nat := s.payBase.toNat + k / 8

/-- `bit(k)` of the payload (R55). -/
def payBit (s : State) (k : Nat) : Bool := (s.ibufByte (payOffset s k)).getLsbD (k % 8)

end Sys2Proof.Machine
end

