-- ==== Sys2Proof/Machine/Codes.lean ====
section
/-! DEFINITION. CODES, the code-table generator (spec/42_codes.md R121). -/

namespace Sys2Proof.Machine

/-- The entry of a symbol without a code (R32). -/
def noCode : CtEntry := ⟨false, 0#4, 0#8⟩

/-- `for s in 0..255: CT[s] <- {0, 0, 0}` (R121). -/
def clearCodes : Table CtEntry 8 := Vector.replicate (2 ^ 8) noCode

/-- The path `code` of length `len` with a 1 appended at position `len` (R121). -/
def appendOne (code : BitVec 8) (len : Nat) : BitVec 8 := code ||| (1#8 <<< len)

/-- `visit(k, code, len)` of R121 over the code table so far. `frames` is how many frames STACK still has (R40, at
most 9); a walk that needs more has no meaning (log 11) and by R115 none does. -/
def visit (node : Table NodeEntry 9) : Nat → NodeIdx → BitVec 8 → Nat → Table CtEntry 8 → Run (Table CtEntry 8)
  | 0, k, _, _, _ => .fault (.stackDepth k)
  | frames + 1, k, code, len, ct =>
    let e := tableGet node k
    if e.leaf then
      if (tableGet ct e.sym).valid then .raise .invariant (k.setWidth 32) ct
      else .ok (tablePut ct e.sym ⟨true, BitVec.ofNat 4 len, code⟩)
    else
      (visit node frames e.left code (len + 1) ct).andThen fun ct1 =>
        if e.right = nilIdx then .ok ct1
        else visit node frames e.right (appendOne code len) (len + 1) ct1

/-- The code table of a tree (R121). -/
def buildCodes (node : Table NodeEntry 9) (root : NodeIdx) : Run (Table CtEntry 8) :=
  visit node 9 root 0#8 0 clearCodes

/-- The body of CODES (R121). -/
def bodyCodes (s : State) : Run State :=
  if !s.treeV then .raise .seq 0#32 s
  else
    let s0 := startCodes s
    match buildCodes s0.node s0.root with
    | .ok ct => .ok { s0 with ct := ct, ctV := true, work := { s0.work with stack := [] } }
    | .raise e info ct => .raise e info { s0 with ct := ct, work := { s0.work with stack := [] } }
    | .fault f => .fault f

/-- CODES (R121): its completion step. -/
def execCodes (s : State) : Host.Outcome State Fault Refusal := settle (bodyCodes s)

end Sys2Proof.Machine
end

