-- ==== Sys2Proof/Machine/Freq.lean ====
section
/-! DEFINITION. FREQ, the frequency analyzer (spec/40_freq.md). -/

namespace Sys2Proof.Machine

/-- What the scan of the input keeps: HIST, and DISC[0..NDIST-1] (R40). -/
structure Scan where
  hist : Table Word 8
  disc : List Byte
  deriving DecidableEq, Repr

/-- Phase F_CLR of R101. -/
def scanClear : Scan := ⟨Vector.replicate (2 ^ 8) 0#32, []⟩

/-- One iteration of phase F_SCAN of R101: a first occurrence joins the discovery list, and the count rises. -/
def scanByte (c : Scan) (b : Byte) : Scan :=
  { hist := tablePut c.hist b (tableGet c.hist b + 1#32)
    disc := if tableGet c.hist b = 0#32 then c.disc ++ [b] else c.disc }

/-- Phases F_CLR and F_SCAN of R101 over the input in order. -/
def scanInput (bs : List Byte) : Scan := bs.foldl scanByte scanClear

/-- The discovery list with its counts, in order of first occurrence (R101). -/
def discovered (c : Scan) : List FtEntry := c.disc.map fun b => ⟨b, tableGet c.hist b⟩

/-- Insert an entry behind every entry of the sorted list whose count is not greater: equal counts do not move
(R103, R105). -/
def insertByCount (e : FtEntry) : List FtEntry → List FtEntry
  | [] => [e]
  | x :: xs => if e.cnt < x.cnt then e :: x :: xs else x :: insertByCount e xs

/-- Phase F_SORT (R101) by the insertion of R105, from the discovery list. -/
def sortByCount (l : List FtEntry) : List FtEntry := l.foldl (fun acc e => insertByCount e acc) []

/-- The frequency table of an input sequence (R101, R102). -/
def freqTable (bs : List Byte) : List FtEntry := sortByCount (discovered (scanInput bs))

/-- The body of FREQ (R101), from its requirement (none) to its end. -/
def bodyFreq (s : State) : Run State :=
  let s0 := startFreq s
  if s0.inLen = 0#32 then .raise .empty 0#32 s0
  else if s0.inCap < s0.inLen.toNat then .raise .inlen s0.inLen s0
  else
    let c := scanInput s0.input
    let t := sortByCount (discovered c)
    .ok { s0 with
      ft := tableOverlay s0.ft t, ftN := BitVec.ofNat 9 t.length, ftV := true,
      work := { s0.work with hist := c.hist, disc := c.disc, ipos := s0.inLen } }

/-- FREQ (R101): its completion step. -/
def execFreq (s : State) : Host.Outcome State Fault Refusal := settle (bodyFreq s)

end Sys2Proof.Machine
end

