-- ==== Sys2Proof/Machine/Pack.lean ====
section
/-! DEFINITION. PACK, the bit-packing encoder (spec/43_pack.md R131). -/

namespace Sys2Proof.Machine

/-- The bits of a code in path order (R9, R32). -/
def codeBits (e : CtEntry) : List Bool := (List.range e.len.toNat).map e.code.getLsbD

/-- The variables of R131: OBUF, OPOS, ACC, ACC_N, nbits, and the index i of the input byte in work (IPOS). -/
structure Packer where
  obuf : Mem
  opos : Nat
  acc : Byte
  accN : Nat
  nbits : Nat
  ipos : Nat
  deriving DecidableEq, Repr

/-- The size of everything before the payload (R131). -/
def headerSize (n : Nat) : Nat := 6 + 5 * n

/-- The table entries of the envelope (R90). -/
def entryBytes (e : FtEntry) : List Byte := e.sym :: bytes32 e.cnt.toNat

/-- The bytes phase P_HDR of R131 writes from offset 0: N and the entries. -/
def headerBytes (t : List FtEntry) : List Byte := bytes16 t.length ++ t.flatMap entryBytes

/-- OBUF[OPOS] <- ACC (R131), with ERR_OVERFLOW(info) when it does not fit. -/
def packFlush (outCap : Nat) (info : Word) (p : Packer) : Run Packer :=
  if outCap ≤ p.opos then .raise .overflow info p
  else .ok { p with obuf := memWrite p.obuf p.opos p.acc, opos := p.opos + 1, acc := 0#8, accN := 0 }

/-- One code bit of phase P_BITS (R131). -/
def packBit (outCap : Nat) (b : Bool) (p : Packer) : Run Packer :=
  let q := { p with
    acc := p.acc ||| ((BitVec.ofBool b).setWidth 8 <<< p.accN), accN := p.accN + 1, nbits := p.nbits + 1 }
  if q.accN = 8 then packFlush outCap (BitVec.ofNat 32 q.ipos) q else .ok q

/-- One input byte of phase P_BITS (R131). -/
def packByte (outCap : Nat) (ct : Table CtEntry 8) (b : Byte) (p : Packer) : Run Packer :=
  if (tableGet ct b).valid then
    (runList (packBit outCap) (codeBits (tableGet ct b)) p).andThen fun q => .ok { q with ipos := q.ipos + 1 }
  else .raise .invariant (BitVec.ofNat 32 p.ipos) p

/-- Phase P_FLUSH (R131): the last, partial byte, its high bits 0. -/
def packTail (outCap : Nat) (info : Word) (p : Packer) : Run Packer :=
  if 0 < p.accN then
    if outCap ≤ p.opos then .raise .overflow info p
    else .ok { p with obuf := memWrite p.obuf p.opos p.acc, opos := p.opos + 1 }
  else .ok p

/-- The loop variables at the start of phase P_BITS (R131): the header stands in OBUF. -/
def packStart (obuf : Mem) (t : List FtEntry) : Packer :=
  ⟨memWriteList obuf 0 (headerBytes t), headerSize t.length, 0#8, 0, 0, 0⟩

/-- Phases P_BITS and P_FLUSH (R131) over the input. -/
def packInput (outCap : Nat) (ct : Table CtEntry 8) (input : List Byte) (p : Packer) : Run Packer :=
  (runList (packByte outCap ct) input p).andThen (packTail outCap (BitVec.ofNat 32 input.length))

/-- The working registers PACK leaves (R40). -/
def packWork (w : Work) (p : Packer) : Work :=
  { w with acc := p.acc, accN := BitVec.ofNat 4 p.accN, ipos := BitVec.ofNat 32 p.ipos, opos := BitVec.ofNat 32 p.opos }

/-- The body of PACK (R131). After its start effects a `raise` leaves OBUF havoc (R42, R176). A FT_N beyond the table
has no meaning (log 11). -/
def bodyPack (s : State) : Run State :=
  if !s.ctV then .raise .seq 0#32 s
  else
    let s0 := startPack s
    if s0.inCap < s0.inLen.toNat then .raise .inlen s0.inLen (havocObuf s0)
    else if 256 < s0.ftN.toNat then .fault (.ftCount s0.ftN.toNat)
    else if s0.outCap < headerSize s0.ftN.toNat then .raise .overflow 0#32 (havocObuf s0)
    else
      match packInput s0.outCap s0.ct s0.input (packStart s0.obuf s0.ftList) with
      | .ok p =>
        .ok { s0 with
          obuf := memWriteList p.obuf (headerSize s0.ftN.toNat - 4) (bytes32 p.nbits),
          encBits := BitVec.ofNat 32 p.nbits, outLen := BitVec.ofNat 32 p.opos, work := packWork s0.work p }
      | .raise e info p => .raise e info { havocObuf s0 with work := packWork s0.work p }
      | .fault f => .fault f

/-- PACK (R131): its completion step. -/
def execPack (s : State) : Host.Outcome State Fault Refusal := settle (bodyPack s)

end Sys2Proof.Machine
end

