-- ==== Sys2Proof/Machine/Tree.lean ====
section
/-! DEFINITION. TREE, the tree builder or merge scheduler (spec/41_tree.md R111). -/

namespace Sys2Proof.Machine

/-- The leaf of a symbol (R31, R111 phase M_SEED). -/
def leafNode (b : Byte) : NodeEntry := ⟨true, b, nilIdx, nilIdx⟩

/-- An internal node over two children; the right one may be NIL (R31). -/
def innerNode (a b : NodeIdx) : NodeEntry := ⟨false, 0#8, a, b⟩

/-- NODE_N as the index of the next node: the arena is NODE[0..NODE_N-1] in order of creation. -/
def nextIdx (arena : List NodeEntry) : NodeIdx := BitVec.ofNat 9 arena.length

/-- One pass of R111 over the queue QA (phases M_PAIR and M_CARRY): the queue QB and the arena after it. Merged nodes
come first, in order; an unpaired last node is carried behind them. -/
def mergePass : List NodeIdx → List NodeEntry → List NodeIdx × List NodeEntry
  | a :: b :: qa, arena =>
    let r := mergePass qa (arena ++ [innerNode a b])
    (nextIdx arena :: r.1, r.2)
  | [c], arena => ([c], arena)
  | [], arena => ([], arena)

/-- The passes of R111, while more than one node is queued. A pass of more than one node leaves fewer, so `fuel` at
the number of queued nodes is never short. -/
def mergePasses : Nat → List NodeIdx → List NodeEntry → List NodeIdx × List NodeEntry
  | 0, qa, arena => (qa, arena)
  | fuel + 1, qa, arena =>
    if 1 < qa.length then
      let r := mergePass qa arena
      mergePasses fuel r.1 r.2
    else (qa, arena)

/-- NODE[0..NODE_N-1] and ROOT after a build. -/
structure Built where
  arena : List NodeEntry
  root : NodeIdx
  deriving DecidableEq, Repr

/-- Phase M_WRAP of R111: a lone leaf gets a synthetic root with no right child. -/
def wrapRoot (arena : List NodeEntry) (r : NodeIdx) : Built :=
  if (arena[r.toNat]?.map NodeEntry.leaf).getD false then ⟨arena ++ [innerNode r nilIdx], nextIdx arena⟩
  else ⟨arena, r⟩

/-- The tree of a sequence of symbols (R111); `none` for the empty sequence, which no valid table has. -/
def buildTree (syms : List Byte) : Option Built :=
  let r := mergePasses syms.length ((List.range syms.length).map (BitVec.ofNat 9)) (syms.map leafNode)
  match r.1 with
  | [] => none
  | q :: _ => some (wrapRoot r.2 q)

/-- The body of TREE (R111). A FT_N that is not 1 to 256 has no meaning (log 11). -/
def bodyTree (s : State) : Run State :=
  if !s.ftV then .raise .seq 0#32 s
  else if 256 < s.ftN.toNat then .fault (.ftCount s.ftN.toNat)
  else
    let s0 := startTree s
    match buildTree (s0.ftList.map FtEntry.sym) with
    | none => .fault (.ftCount s.ftN.toNat)
    | some b =>
      .ok { s0 with
        node := tableOverlay s0.node b.arena, nodeN := BitVec.ofNat 10 b.arena.length, root := b.root, treeV := true,
        work := { s0.work with qa := [], qb := [] } }

/-- TREE (R111): its completion step. -/
def execTree (s : State) : Host.Outcome State Fault Refusal := settle (bodyTree s)

end Sys2Proof.Machine
end

