-- ==== Sys2Proof/Machine/Unpack.lean ====
section
/-! DEFINITION. LOAD, the envelope parser, and WALK, the tree-walk decoder (spec/44_decode.md R141, R145). -/

namespace Sys2Proof.Machine

/-- `MemRead(IBUF, a, 2)` (R8). -/
def ibuf16 (s : State) (a : Nat) : Nat := u16le (s.ibufByte a) (s.ibufByte (a + 1))

/-- `MemRead(IBUF, a, 4)` (R8). -/
def ibuf32 (s : State) (a : Nat) : Nat :=
  u32le (s.ibufByte a) (s.ibufByte (a + 1)) (s.ibufByte (a + 2)) (s.ibufByte (a + 3))

/-- ERR_ENVELOPE at a byte offset. -/
def badEnvelope {σ : Type} (offset : Nat) (x : σ) : Run σ := .raise .envelope (BitVec.ofNat 32 offset) x

/-- One entry of phase L_TAB (R141): conditions (d), (e), (f) against the entries before it, in persisted order. -/
def loadEntry (s : State) (t : List FtEntry) : Run (List FtEntry) :=
  let at_ := 2 + 5 * t.length
  let sym := s.ibufByte at_
  let cnt := BitVec.ofNat 32 (ibuf32 s (at_ + 1))
  if cnt = 0#32 then badEnvelope at_ t
  else if t.getLast?.any (fun p => decide (cnt < p.cnt)) then badEnvelope at_ t
  else if t.any (fun p => p.sym == sym) then badEnvelope at_ t
  else .ok (t ++ [⟨sym, cnt⟩])

/-- The whole of FT so far, in the FT memory. -/
def putTable (t : List FtEntry) (s : State) : State := { s with ft := tableOverlay s.ft t }

/-- The body of LOAD (R141), every condition in the order of the spec. -/
def bodyLoad (s : State) : Run State :=
  let s0 := startLoad s
  let len := s0.inLen.toNat
  if s0.inCap < len then .raise .inlen s0.inLen s0
  else if len < 2 then badEnvelope 0 s0
  else
    let n := ibuf16 s0 0
    if n = 0 ∨ 256 < n then badEnvelope 0 s0
    else if len < 6 + 5 * n then badEnvelope len s0
    else
      match runTimes (loadEntry s0) n [] with
      | .raise e info t => .raise e info (putTable t s0)
      | .fault f => .fault f
      | .ok t =>
        let s1 := putTable t s0
        let b := ibuf32 s0 (2 + 5 * n)
        if len ≠ 6 + 5 * n + ceil8 b then badEnvelope (2 + 5 * n) s1
        else if b % 8 ≠ 0 ∧ s0.ibufByte (len - 1) >>> (b % 8) ≠ 0#8 then badEnvelope (len - 1) s1
        else
          .ok { s1 with
            ftN := BitVec.ofNat 9 n, decBits := BitVec.ofNat 32 b, payBase := BitVec.ofNat 32 (6 + 5 * n),
            ftV := true, payV := true, work := { s1.work with ipos := s1.inLen } }

/-- LOAD (R141): its completion step. -/
def execLoad (s : State) : Host.Outcome State Fault Refusal := settle (bodyLoad s)

/-- The variables of R145: CUR, the bit index k (BPOS), OPOS, OBUF. -/
structure Walker where
  cur : NodeIdx
  bpos : Nat
  opos : Nat
  obuf : Mem
  deriving DecidableEq, Repr

/-- The child a bit selects (R145). -/
def childOf (e : NodeEntry) (b : Bool) : NodeIdx := if b then e.right else e.left

/-- The node a leaf's symbol is emitted from, or the cursor moved to: one iteration of the loop of R145. A payload byte
at or beyond IN_CAP does not exist (log 11). -/
def walkBit (s : State) (w : Walker) : Run Walker :=
  if s.inCap ≤ payOffset s w.bpos then .fault (.ibufRange (payOffset s w.bpos))
  else
    let nxt := childOf (tableGet s.node w.cur) (payBit s w.bpos)
    if nxt = nilIdx then .raise .badpath (BitVec.ofNat 32 w.bpos) w
    else if (tableGet s.node nxt).leaf then
      if s.outCap ≤ w.opos then .raise .overflow (BitVec.ofNat 32 w.bpos) w
      else
        .ok { cur := s.root, bpos := w.bpos + 1, opos := w.opos + 1,
              obuf := memWrite w.obuf w.opos (tableGet s.node nxt).sym }
    else .ok { w with cur := nxt, bpos := w.bpos + 1 }

/-- The cursor at the root, before the first bit (R145). -/
def walkStart (s : State) : Walker := ⟨s.root, 0, 0, s.obuf⟩

/-- The loop of R145 over the bits 0..DEC_BITS-1. -/
def walkBits (s : State) : Run Walker := runTimes (walkBit s) s.decBits.toNat (walkStart s)

/-- The working registers WALK leaves (R40). -/
def walkWork (w : Work) (x : Walker) : Work :=
  { w with cur := x.cur, bpos := BitVec.ofNat 32 x.bpos, opos := BitVec.ofNat 32 x.opos }

/-- The body of WALK (R145); `lenient` is the L flag (R147). After its start effect a `raise` leaves OBUF havoc
(R42, R176). -/
def bodyWalk (lenient : Bool) (s : State) : Run State :=
  if !(s.treeV && s.payV) then .raise .seq 0#32 s
  else
    let s0 := startWalk s
    match walkBits s0 with
    | .fault f => .fault f
    | .raise e info x => .raise e info { havocObuf s0 with work := walkWork s0.work x }
    | .ok x =>
      if x.cur ≠ s0.root ∧ !lenient then
        .raise .midtree s0.decBits { havocObuf s0 with work := walkWork s0.work x }
      else
        .ok { s0 with
          mid := s0.mid || decide (x.cur ≠ s0.root), obuf := x.obuf, outLen := BitVec.ofNat 32 x.opos,
          work := walkWork s0.work x }

/-- WALK (R145): its completion step. -/
def execWalk (lenient : Bool) (s : State) : Host.Outcome State Fault Refusal := settle (bodyWalk lenient s)

end Sys2Proof.Machine
end

