-- ==== Sys2Proof/Machine/Control.lean ====
section
/-! DEFINITION. NOP, CLEAR, COMPRESS, DECOMPRESS (spec/45_control.md). -/

namespace Sys2Proof.Machine

/-- NOP (R160): nothing changes; while BUSY the write is a locked access. -/
def execNop (s : State) : Host.Outcome State Fault Refusal := if s.busy then .next (setOvr s) else .next s

/-- CLEAR (R161), in the cycle of the write; while BUSY the write is a locked access. -/
def execClear (s : State) : Host.Outcome State Fault Refusal :=
  if s.busy then .next (setOvr s) else .next (clearState s)

/-- The body of COMPRESS (R162): four unit bodies, left at the first `raise`. A `raise` before PACK leaves OBUF havoc too
(R42, R213, log 19); PACK's own do so in its body. -/
def bodyCompress (s : State) : Run State :=
  (spoilOnRaise (((bodyFreq s).andThen bodyTree).andThen bodyCodes)).andThen bodyPack

/-- COMPRESS (R162): its completion step. -/
def execCompress (s : State) : Host.Outcome State Fault Refusal := settle (bodyCompress s)

/-- The body of DECOMPRESS (R163): three unit bodies, left at the first `raise`; L is passed to WALK. A `raise` before
WALK leaves OBUF havoc too (R42, R213, log 19); WALK's own do so in its body. -/
def bodyDecompress (lenient : Bool) (s : State) : Run State :=
  (spoilOnRaise ((bodyLoad s).andThen bodyTree)).andThen (bodyWalk lenient)

/-- DECOMPRESS (R163): its completion step. -/
def execDecompress (lenient : Bool) (s : State) : Host.Outcome State Fault Refusal :=
  settle (bodyDecompress lenient s)

end Sys2Proof.Machine
end

