-- ==== Sys2Proof/Machine/Dispatch.lean ====
section
/-! DEFINITION. What a command does: for NOP and CLEAR the effect of the write, for every other command its completion
step (30_encoding.md R83, R85). -/

namespace Sys2Proof.Machine

def exec (i : Instr) (s : State) : Host.Outcome State Fault Refusal :=
  match i with
  | .nop => Sys2Proof.Machine.execNop s
  | .clear => Sys2Proof.Machine.execClear s
  | .freq => Sys2Proof.Machine.execFreq s
  | .tree => Sys2Proof.Machine.execTree s
  | .codes => Sys2Proof.Machine.execCodes s
  | .pack => Sys2Proof.Machine.execPack s
  | .load => Sys2Proof.Machine.execLoad s
  | .walk lenient => Sys2Proof.Machine.execWalk lenient s
  | .compress => Sys2Proof.Machine.execCompress s
  | .decompress lenient => Sys2Proof.Machine.execDecompress lenient s

end Sys2Proof.Machine
end

