-- ==== Sys2Proof/Machine/Port.lean ====
section
/-! DEFINITION. The register port, the issue of commands, the engine's cycle, and the host's script (20_memory.md R57 to
R61, 30_encoding.md R80 to R83, R95). -/

namespace Sys2Proof.Machine

/-- The port answers `r`. -/
def answer (r : Resp) (s : State) : State := { s with resp := some r }

/-- A step's outcome with the port's answer beside it. -/
def answered (r : Resp) (o : Host.Outcome State Fault Refusal) : Host.Outcome State Fault Refusal :=
  match o with
  | .next s => .next (answer r s)
  | .fault f => .fault f
  | .refused x => .refused x

/-- `Write(CMD, w)` with BUSY = 0 (R80, lines 2 to 5). -/
def writeCmd (w : Word) (s : State) : Host.Outcome State Fault Refusal :=
  if w = 0x00000000#32 then answered ⟨0#32, false⟩ (exec .nop s)
  else if w = 0x00000001#32 then answered ⟨0#32, false⟩ (exec .clear s)
  else if s.error then .next (answer ⟨0#32, true⟩ (setOvr s))
  else .next (answer ⟨0#32, false⟩ (accept w s))

/-- The word address of a transaction. -/
def txnAddr : Txn → BitVec 14
  | .read a => a
  | .write a _ => a

/-- A transaction on a register that is not locked. -/
def accessReg (r : Reg) (t : Txn) (s : State) : Host.Outcome State Fault Refusal :=
  match t with
  | .read _ => .next (answer (readReg r s).1 (readReg r s).2)
  | .write _ w =>
    if r = .cmd then writeCmd w s else .next (answer (writeReg r w s).1 (writeReg r w s).2)

/-- A transaction (R57): unmapped (R61), locked while BUSY (R60), or as the register says. -/
def portTxn (t : Txn) (s : State) : Host.Outcome State Fault Refusal :=
  match regAt (txnAddr t) with
  | none => .next (answer ⟨0#32, true⟩ s)
  | some r =>
    if s.busy && !r.classA then .next (answer ⟨0#32, true⟩ (setOvr s))
    else accessReg r t s

/-- The port's part of a cycle: at most one transaction; with `req = 0` nothing happens (R57). -/
def portCycle (req : Option Txn) (s : State) : Host.Outcome State Fault Refusal :=
  match req with
  | none => .next { s with resp := none }
  | some t => portTxn t s

/-- The completion step of the latched word (R83): an illegal word raises ERR_ILLCMD(w) (R86). -/
def completeCmd (s : State) : Host.Outcome State Fault Refusal :=
  match s.seq with
  | none => .next s
  | some w =>
    match decode w with
    | .ok i => exec i s
    | .error _ => .next (errorEntry .illcmd w s)

/-- The engine's part of a cycle with BUSY = 1 (R83): BUSYCNT falls by 1, and where it reaches 0 the command
completes. -/
def engineTick (s : State) : Host.Outcome State Fault Refusal :=
  if s.busycnt ≤ 1 then completeCmd s else .next { s with busycnt := s.busycnt - 1 }

/-- What stands on the inputs in one cycle. -/
structure CycleIn where
  rst : Bool
  req : Option Txn
  deriving DecidableEq, Repr

/-- The inputs of this cycle and the script after it; with no script the host does nothing. `wait` (R95) reads STATUS
and stands until BUSY reads 0. -/
def nextInput (s : State) : CycleIn × List HostAct :=
  match s.script with
  | [] => (⟨false, none⟩, [])
  | .idle :: h => (⟨false, none⟩, h)
  | .txn t :: h => (⟨false, some t⟩, h)
  | .rst t :: h => (⟨true, t⟩, h)
  | .wait :: h => (⟨false, some (.read (regAddr .status))⟩, if s.busy then .wait :: h else h)

/-- A cycle with `rst = 1` (R200); a transaction in it has no effect and answers err 1. -/
def resetCycle (req : Option Txn) (s : State) : State :=
  { resetRegs s with resp := req.map fun _ => ⟨0#32, true⟩ }

/-- A cycle with `rst = 0`: the transaction sees the state before the engine's step (R216). -/
def runCycle (req : Option Txn) (s : State) : Host.Outcome State Fault Refusal :=
  match portCycle req s with
  | .next s1 => if s.busy then engineTick s1 else .next s1
  | .fault f => .fault f
  | .refused x => .refused x

/-- One clock cycle. -/
def cycle (s : State) : Host.Outcome State Fault Refusal :=
  let c := (nextInput s).1
  let s1 := { s with script := (nextInput s).2 }
  if c.rst then .next (resetCycle c.req s1) else runCycle c.req s1

/-- The command word `w` placed so that the very next cycle runs it (log 16): NOP and CLEAR act in the cycle of the
write (R160, R161), so their write stands first in the script of an idle block; any other word has been accepted
(R81) and completes in the next cycle, as with D_busy = 1. -/
def placeCmd (w : Word) (s : State) : State :=
  if w = 0x00000000#32 ∨ w = 0x00000001#32 then
    { s with seq := none, script := .txn (.write (regAddr .cmd) w) :: s.script }
  else { accept w s with busycnt := 1, script := .idle :: s.script }

/-- The lines of a host script (R95). The values that `rd` and `get` lines may state are the host's expectation and
change nothing in the block (log 18). -/
inductive ScriptLine where
  | wr (r : Reg) (v : Word)
  | rd (r : Reg)
  | cmd (i : Instr)
  | wait
  | put (bs : List Byte)
  | get (n : Nat)
  deriving DecidableEq, Repr

/-- The expansion of a script line into host actions (R95, R96). -/
def scriptLine : ScriptLine → List HostAct
  | .wr r v => [.txn (.write (regAddr r) v)]
  | .rd r => [.txn (.read (regAddr r))]
  | .cmd i => [.txn (.write (regAddr .cmd) (encode i))]
  | .wait => [.wait]
  | .put bs => bs.map fun b => .txn (.write (regAddr .idata) (b.setWidth 32))
  | .get n => List.replicate n (.txn (.read (regAddr .odata)))

/-- The expansion of a script (R95). -/
def scriptOf (ls : List ScriptLine) : List HostAct := ls.flatMap scriptLine

end Sys2Proof.Machine
end

