-- ==== Sys2Proof/Machine/Step.lean ====
section
/-! DEFINITION. One step of the machine is one clock cycle: the host's transaction, then the engine (20_memory.md R57,
30_encoding.md R83, 70_reset_and_hazards.md R216). -/

namespace Sys2Proof.Machine

/-- One clock cycle. -/
def step (s : State) : Host.Outcome State Fault Refusal := cycle s

/-- `s` with the command whose bits are `w` placed so that the very next step runs it (log 16). -/
def State.withFetchWord (s : State) (nbits w : Nat) : State := placeCmd (BitVec.ofNat 32 (w % 2 ^ nbits)) s

end Sys2Proof.Machine
end

