-- ==== Sys2Proof/Machine/Envelope.lean ====
section
/-! DEFINITION. The envelope as a byte string (30_encoding.md R90, R91), and the spec's descriptions of tables, codes and
decoding that the statements compare the commands with: the stable sort of R101, the paths of 42_codes.md R122, the
decoding function of 44_decode.md R148. -/

namespace Sys2Proof.Machine

/-- `ENVSIZE(N, B)` (R90). -/
def envSize (n b : Nat) : Nat := 6 + 5 * n + ceil8 b

/-- The byte whose bit `t` is `f t` (R52). -/
def byteOfBits (f : Nat → Bool) : Byte := BitVec.ofBoolListLE [f 0, f 1, f 2, f 3, f 4, f 5, f 6, f 7]

/-- The payload bytes of a bit sequence (R52): bit k in byte k div 8 at position k mod 8, the unused high bits 0. -/
def payloadBytes (bits : List Bool) : List Byte :=
  (List.range (ceil8 bits.length)).map fun j => byteOfBits fun t => (bits[8 * j + t]?).getD false

/-- The envelope of a table and a bit sequence (R90). -/
def envelope (t : List FtEntry) (bits : List Bool) : List Byte :=
  headerBytes t ++ bytes32 bits.length ++ payloadBytes bits

/-- `e[i]` of a byte string. -/
def byteAt (e : List Byte) (i : Nat) : Byte := (e[i]?).getD 0#8

/-- The little-endian fields of a byte string at an offset (R90). -/
def fieldU16 (e : List Byte) (i : Nat) : Nat := u16le (byteAt e i) (byteAt e (i + 1))

/-- The little-endian fields of a byte string at an offset (R90). -/
def fieldU32 (e : List Byte) (i : Nat) : Nat :=
  u32le (byteAt e i) (byteAt e (i + 1)) (byteAt e (i + 2)) (byteAt e (i + 3))

/-- N, SYM_i, CNT_i and B of an envelope (R90). -/
def envN (e : List Byte) : Nat := fieldU16 e 0

/-- SYM_i (R90). -/
def envSym (e : List Byte) (i : Nat) : Byte := byteAt e (2 + 5 * i)

/-- CNT_i (R90). -/
def envCnt (e : List Byte) (i : Nat) : Nat := fieldU32 e (3 + 5 * i)

/-- B (R90). -/
def envB (e : List Byte) : Nat := fieldU32 e (2 + 5 * envN e)

/-- A well-formed envelope (R91): conditions (a) to (h) in the spec's order. -/
structure EnvelopeOk (e : List Byte) : Prop where
  holdsCount : 2 ≤ e.length
  countRange : 1 ≤ envN e ∧ envN e ≤ 256
  holdsTable : 6 + 5 * envN e ≤ e.length
  positive : ∀ i, i < envN e → 1 ≤ envCnt e i
  ascending : ∀ i, 1 ≤ i → i < envN e → envCnt e (i - 1) ≤ envCnt e i
  distinct : ∀ i j, i < envN e → j < envN e → i ≠ j → envSym e i ≠ envSym e j
  exactSize : e.length = envSize (envN e) (envB e)
  padding : envB e % 8 ≠ 0 → ∀ t, envB e % 8 ≤ t → t < 8 → (byteAt e (e.length - 1)).getLsbD t = false

/-- The table of an envelope in persisted order (R142). -/
def envTable (e : List Byte) : List FtEntry :=
  (List.range (envN e)).map fun i => ⟨envSym e i, BitVec.ofNat 32 (envCnt e i)⟩

/-- The table of a byte sequence in the words of R101: the distinct bytes in order of first occurrence with their
counts, stably sorted by count. -/
def stableTable (bs : List Byte) : List FtEntry :=
  (bs.eraseDups.map fun b => FtEntry.mk b (BitVec.ofNat 32 (bs.count b))).mergeSort fun x y => decide (x.cnt ≤ y.cnt)

/-- R30: count at least 1, ascending by count, no duplicate symbol, 1 to 256 entries. -/
structure TableOk (t : List FtEntry) : Prop where
  size : 1 ≤ t.length ∧ t.length ≤ 256
  positive : ∀ e ∈ t, e.cnt ≠ 0#32
  ascending : t.Pairwise fun x y => x.cnt ≤ y.cnt
  distinct : (t.map FtEntry.sym).Nodup

/-- `path` leads from node `k` to the leaf `l` (R9, R122): false is a LEFT edge, true a RIGHT edge. -/
inductive LeafPath (node : Table NodeEntry 9) : NodeIdx → List Bool → NodeIdx → Prop where
  | leaf (k : NodeIdx) : (tableGet node k).leaf = true → LeafPath node k [] k
  | left (k l : NodeIdx) (p : List Bool) : (tableGet node k).leaf = false →
      LeafPath node (tableGet node k).left p l → LeafPath node k (false :: p) l
  | right (k l : NodeIdx) (p : List Bool) : (tableGet node k).leaf = false → (tableGet node k).right ≠ nilIdx →
      LeafPath node (tableGet node k).right p l → LeafPath node k (true :: p) l

/-- A path as a CT entry (R32, R122): LEN is its length, bit i of CODE its i-th choice. -/
def codeOfPath (p : List Bool) : CtEntry :=
  ⟨true, BitVec.ofNat 4 p.length, byteOfBits fun t => (p[t]?).getD false⟩

/-- The bit sequence of a byte sequence under a code table (R132). -/
def encodeBits (ct : Table CtEntry 8) (bs : List Byte) : List Bool := bs.flatMap fun b => codeBits (tableGet ct b)

/-- How a decoding ends (R148). -/
inductive DecodeEnd where
  | complete
  | incomplete
  | badPath
  deriving DecidableEq, Repr

/-- `dec` of R148 for a code, given as the list of its (bits, symbol) pairs: `pre` is what has been read of the next
symbol's code. -/
def decodeCode (code : List (List Bool × Byte)) : List Bool → List Bool → List Byte × DecodeEnd
  | [], [] => ([], .complete)
  | _ :: _, [] => ([], .incomplete)
  | pre, b :: bits =>
    let p := pre ++ [b]
    match code.find? fun c => c.1 == p with
    | some c =>
      let r := decodeCode code [] bits
      (c.2 :: r.1, r.2)
    | none => if code.any fun c => p.isPrefixOf c.1 then decodeCode code p bits else ([], .badPath)

/-- The code of a code table, as pairs (R32). -/
def codeList (ct : Table CtEntry 8) : List (List Bool × Byte) :=
  (List.range 256).filterMap fun i =>
    let e := tableGet ct (BitVec.ofNat 8 i)
    if e.valid then some (codeBits e, BitVec.ofNat 8 i) else none

end Sys2Proof.Machine
end

