-- ==== Sys2Proof/Machine/Fsm.lean ====
section
/-! DEFINITION. The merge scheduler and the decoder as the state machines of 41_tree.md R112 and 44_decode.md R146, one
step per row of the spec's tables. The commands' meanings follow R111 and R145, which are the definitions; that the
machines compute the same is stated for the provers. -/

namespace Sys2Proof.Machine

/-- The phases of R112. -/
inductive TreePhase where
  | seed
  | pair
  | swap
  | wrap
  | done
  deriving DecidableEq, Repr

/-- The state of the merge scheduler (R112). -/
structure TreeFsm where
  phase : TreePhase
  i : Nat
  qa : List NodeIdx
  qb : List NodeIdx
  node : Table NodeEntry 9
  nodeN : Nat
  root : NodeIdx
  treeV : Bool
  deriving DecidableEq, Repr

/-- The scheduler before its first step. -/
def treeFsmStart (node : Table NodeEntry 9) : TreeFsm := ⟨.seed, 0, [], [], node, 0, 0#9, false⟩

/-- M_PAIR while more than one node is queued, else M_WRAP (R112). -/
def afterQueue (qa : List NodeIdx) : TreePhase := if 1 < qa.length then .pair else .wrap

/-- The rows of phase M_SEED. -/
def seedStep (syms : List Byte) (t : TreeFsm) : TreeFsm :=
  match syms[t.i]? with
  | some b =>
    { t with
      node := tablePut t.node (BitVec.ofNat 9 t.i) (leafNode b), qa := t.qa ++ [BitVec.ofNat 9 t.i], i := t.i + 1 }
  | none => { t with nodeN := syms.length, phase := afterQueue t.qa }

/-- The rows of phase M_PAIR. -/
def pairStep (t : TreeFsm) : TreeFsm :=
  match t.qa with
  | a :: b :: qa =>
    { t with
      qa := qa, node := tablePut t.node (BitVec.ofNat 9 t.nodeN) (innerNode a b),
      qb := t.qb ++ [BitVec.ofNat 9 t.nodeN], nodeN := t.nodeN + 1 }
  | [c] => { t with qa := [], qb := t.qb ++ [c], phase := .swap }
  | [] => { t with phase := .swap }

/-- The rows of phase M_WRAP. An empty queue, which no table gives, ends the unit with ROOT as it is. -/
def wrapStep (t : TreeFsm) : TreeFsm :=
  match t.qa with
  | [] => { t with phase := .done }
  | r :: _ =>
    if (tableGet t.node r).leaf then
      { t with
        node := tablePut t.node (BitVec.ofNat 9 t.nodeN) (innerNode r nilIdx), root := BitVec.ofNat 9 t.nodeN,
        nodeN := t.nodeN + 1, phase := .done }
    else { t with root := r, phase := .done }

/-- One step of the merge scheduler (R112). -/
def treeFsmStep (syms : List Byte) (t : TreeFsm) : TreeFsm :=
  match t.phase with
  | .seed => seedStep syms t
  | .pair => pairStep t
  | .swap => { t with qa := t.qb, qb := [], phase := afterQueue t.qb }
  | .wrap => wrapStep t
  | .done => { t with treeV := true }

/-- `n` steps of the merge scheduler. -/
def treeFsmRun (syms : List Byte) : Nat → TreeFsm → TreeFsm
  | 0, t => t
  | n + 1, t => treeFsmRun syms n (treeFsmStep syms t)

/-- The phases of R146, and the error it goes to. -/
inductive WalkPhase where
  | init
  | bit
  | fin
  | done
  | failed (e : ErrCode) (info : Word)
  deriving DecidableEq, Repr

/-- The state of the decoder (R146), with what it has written. -/
structure WalkFsm where
  phase : WalkPhase
  cur : NodeIdx
  k : Nat
  opos : Nat
  obuf : Mem
  outLen : Word
  mid : Bool
  deriving DecidableEq, Repr

/-- The decoder before its first step, after the start effect of WALK. -/
def walkFsmStart (s : State) : WalkFsm := ⟨.init, s.work.cur, s.work.bpos.toNat, s.work.opos.toNat, s.obuf, 0#32, s.mid⟩

/-- The rows of phase W_BIT. -/
def walkBitStep (s : State) (x : WalkFsm) : WalkFsm :=
  if x.k = s.decBits.toNat then { x with phase := .fin }
  else
    let c := childOf (tableGet s.node x.cur) (payBit s x.k)
    if c = nilIdx then { x with phase := .failed .badpath (BitVec.ofNat 32 x.k) }
    else if !(tableGet s.node c).leaf then { x with cur := c, k := x.k + 1 }
    else if s.outCap ≤ x.opos then { x with phase := .failed .overflow (BitVec.ofNat 32 x.k) }
    else
      { x with
        obuf := memWrite x.obuf x.opos (tableGet s.node c).sym, opos := x.opos + 1, cur := s.root, k := x.k + 1 }

/-- The rows of phase W_END. -/
def walkEndStep (lenient : Bool) (s : State) (x : WalkFsm) : WalkFsm :=
  if x.cur = s.root then { x with outLen := BitVec.ofNat 32 x.opos, phase := .done }
  else if lenient then { x with mid := true, outLen := BitVec.ofNat 32 x.opos, phase := .done }
  else { x with phase := .failed .midtree s.decBits }

/-- One step of the decoder (R146) on the tree and the payload of `s`. -/
def walkFsmStep (lenient : Bool) (s : State) (x : WalkFsm) : WalkFsm :=
  match x.phase with
  | .init => { x with cur := s.root, k := 0, opos := 0, phase := .bit }
  | .bit => walkBitStep s x
  | .fin => walkEndStep lenient s x
  | .done => x
  | .failed _ _ => x

/-- `n` steps of the decoder. -/
def walkFsmRun (lenient : Bool) (s : State) : Nat → WalkFsm → WalkFsm
  | 0, x => x
  | n + 1, x => walkFsmRun lenient s n (walkFsmStep lenient s x)

end Sys2Proof.Machine
end

