-- ==== Sys2Proof/Safety.lean ====
section
/-! DEFINITION. The terms the statements use: the invariant of every reachable state (10_state.md R16 and what it rests
on), a command from acceptance to completion, and what a command leaves unchanged. -/

namespace Sys2Proof.Machine

/-- The symbols of FT[0..FT_N-1] in table order, all that TREE reads (41_tree.md R110). -/
def State.symbols (s : State) : List Byte := s.ftList.map FtEntry.sym

/-- NODE[0..NODE_N-1] and ROOT are the result of R111 applied to FT (R16). -/
def State.treeMatches (s : State) : Prop :=
  ∃ b, buildTree s.symbols = some b ∧ tableTake s.node s.nodeN.toNat = b.arena ∧ s.nodeN.toNat = b.arena.length ∧
    s.root = b.root

/-- The invariant: R16, with the canonical form of the buffers and the status facts of 60_exceptions.md R180. -/
structure State.Inv (s : State) : Prop where
  /-- The capacities are in the range of R6. -/
  inCapRange : 1 ≤ s.inCap ∧ s.inCap ≤ 2 ^ 28
  outCapRange : 1 ≤ s.outCap ∧ s.outCap ≤ 2 ^ 28
  /-- The buffers' memories are in canonical form and inside the buffers (R41, R42). -/
  ibufForm : Memory.wf s.ibuf = true ∧ memBelow s.inCap s.ibuf = true
  obufForm : Memory.wf s.obuf = true ∧ memBelow s.outCap s.obuf = true
  /-- The chain of valid flags (R16). -/
  codesNeedTree : s.ctV = true → s.treeV = true
  treeNeedsTable : s.treeV = true → s.ftV = true
  payloadNeedsTable : s.payV = true → s.ftV = true
  /-- What each flag promises (R16). -/
  tableCount : s.ftN.toNat ≤ 256 ∧ (s.ftV = false → s.ftN = 0#9)
  tableValid : s.ftV = true → TableOk s.ftList
  treeValid : s.treeV = true → s.treeMatches
  codesValid : s.ctV = true → buildCodes s.node s.root = .ok s.ct
  payloadInside : s.payV = true → s.payBase.toNat + ceil8 s.decBits.toNat ≤ s.inCap
  /-- A result fits OBUF (R42). -/
  outputInside : s.outLen.toNat ≤ s.outCap
  /-- STATUS (R14, R81, R176, R180). -/
  busyQuiet : s.busy = true → s.done = false ∧ s.error = false ∧ s.mid = false
  oneEnd : s.done = true → s.error = false
  errorCode : s.error = true ↔ s.err ≠ .none
  /-- SEQ, BUSYCNT, LASTOP and CMDL of a command in execution (R40, R80, R81). -/
  running : ∀ w, s.seq = some w → w ≠ 0#32 ∧ w ≠ 1#32 ∧ s.lastop = w.extractLsb' 0 8 ∧
    s.work.cmdl = w.getLsbD 8 ∧ 1 ≤ s.busycnt
  idle : s.seq = none → s.busycnt = 0

/-- A command accepted in `s` (R81) and completed with nothing in between (R83, R62). -/
def issue (i : Instr) (s : State) : Host.Outcome State Fault Refusal := exec i (accept (encode i) s)

/-- `issue` one command after another, while the one before ended without error. -/
def issueAll : List Instr → State → Host.Outcome State Fault Refusal
  | [], s => .next s
  | i :: is, s =>
    match issue i s with
    | .next t => if t.error then .next t else issueAll is t
    | .fault f => .fault f
    | .refused r => .refused r

/-- What no command but CLEAR changes at its completion (R106, R133, R176, 10_state.md R15): CTRL, OVR, LASTOP, IN_LEN,
IPTR, OPTR, the capacities, every byte of IBUF, and the model's own host side. -/
structure HostSideSame (s t : State) : Prop where
  die : t.die = s.die
  eie : t.eie = s.eie
  ovr : t.ovr = s.ovr
  lastop : t.lastop = s.lastop
  inLen : t.inLen = s.inLen
  iptr : t.iptr = s.iptr
  optr : t.optr = s.optr
  inCap : t.inCap = s.inCap
  outCap : t.outCap = s.outCap
  ibuf : ∀ a, t.ibufByte a = s.ibufByte a
  script : t.script = s.script
  resp : t.resp = s.resp
  draws : t.draws = s.draws

/-- Every byte of OBUF reads as before. -/
def SameObuf (s t : State) : Prop := ∀ a, t.obufByte a = s.obufByte a

/-- Every register of the block but `work` and the host side that a command can write, field by field (R12 to R15). -/
structure ResultsSame (s t : State) : Prop where
  outLen : t.outLen = s.outLen
  errInfo : t.errInfo = s.errInfo
  ftN : t.ftN = s.ftN
  root : t.root = s.root
  nodeN : t.nodeN = s.nodeN
  encBits : t.encBits = s.encBits
  decBits : t.decBits = s.decBits
  payBase : t.payBase = s.payBase
  ftV : t.ftV = s.ftV
  treeV : t.treeV = s.treeV
  ctV : t.ctV = s.ctV
  payV : t.payV = s.payV
  tables : t.ft = s.ft ∧ t.node = s.node ∧ t.ct = s.ct

end Sys2Proof.Machine
end

