-- ==== Sys2Proof/Certificates/Slice0/Obligations.lean ====
section
/-! DEFINITION. The statements for the provers, each the content of numbered rules of spec/ or of what the spec derives
from them. -/

open Sys2Proof Sys2Proof.Machine

/-! ### Encoding -/

/-- R85: each of the twelve legal words, its command, and back. -/
def Obligations.OpcodeMapWords : Prop :=
  (decode 0x00000000#32 = .ok .nop ∧ encode .nop = 0x00000000#32) ∧
  (decode 0x00000001#32 = .ok .clear ∧ encode .clear = 0x00000001#32) ∧
  (decode 0x00000010#32 = .ok .freq ∧ encode .freq = 0x00000010#32) ∧
  (decode 0x00000011#32 = .ok .tree ∧ encode .tree = 0x00000011#32) ∧
  (decode 0x00000012#32 = .ok .codes ∧ encode .codes = 0x00000012#32) ∧
  (decode 0x00000013#32 = .ok .pack ∧ encode .pack = 0x00000013#32) ∧
  (decode 0x00000014#32 = .ok .load ∧ encode .load = 0x00000014#32) ∧
  (decode 0x00000015#32 = .ok (.walk false) ∧ encode (.walk false) = 0x00000015#32) ∧
  (decode 0x00000115#32 = .ok (.walk true) ∧ encode (.walk true) = 0x00000115#32) ∧
  (decode 0x00000020#32 = .ok .compress ∧ encode .compress = 0x00000020#32) ∧
  (decode 0x00000021#32 = .ok (.decompress false) ∧ encode (.decompress false) = 0x00000021#32) ∧
  (decode 0x00000121#32 = .ok (.decompress true) ∧ encode (.decompress true) = 0x00000121#32)

/-- R84 to R86: over all 2^32 words, a word decodes to a command exactly if it is the command's encoding. -/
def Obligations.DecodeInvertsEncode : Prop :=
  ∀ (w : Word) (i : Instr), decode w = .ok i ↔ encode i = w

/-- R86: the legal words are exactly twelve; an illegal word is accepted in the idle block and completes with
ERR_ILLCMD(w), ERRINFO the whole word. -/
def Obligations.IllegalWordsCompleteInError : Prop :=
  (∀ w : Word, (∃ i, decode w = .ok i) ↔
    w ∈ [0x00000000#32, 0x00000001#32, 0x00000010#32, 0x00000011#32, 0x00000012#32, 0x00000013#32, 0x00000014#32,
      0x00000015#32, 0x00000115#32, 0x00000020#32, 0x00000021#32, 0x00000121#32]) ∧
  (∀ (s : State) (w : Word) (x : DecodeError), decode w = .error x → s.busy = false → s.error = false →
    ∃ d, 1 ≤ d ∧ portTxn (.write (regAddr .cmd) w) s =
      .next { s with
        done := false, mid := false, lastop := w.extractLsb' 0 8, seq := some w, busycnt := d,
        draws := s.draws + 1, work := { s.work with cmdl := w.getLsbD 8 }, resp := some ⟨0#32, false⟩ }) ∧
  (∀ (s : State) (w : Word) (x : DecodeError), decode w = .error x → s.seq = some w → s.busycnt = 1 →
    engineTick s =
      .next { s with
        err := .illcmd, errInfo := w, error := true, done := false, outLen := 0#32, seq := none, busycnt := 0 })

/-! ### Issue, acceptance, refusal, completion -/

/-- R160: NOP changes nothing in the idle block, with or without an error; while BUSY its write is a locked access. -/
def Obligations.NopChangesNothing : Prop :=
  (∀ s : State, s.busy = false → exec .nop s = .next s ∧
    portTxn (.write (regAddr .cmd) 0x00000000#32) s = .next { s with resp := some ⟨0#32, false⟩ }) ∧
  (∀ s : State, s.busy = true → exec .nop s = .next { s with ovr := true } ∧
    portTxn (.write (regAddr .cmd) 0x00000000#32) s =
      .next { s with ovr := true, resp := some ⟨0#32, true⟩ }) ∧
  decode 0x00000100#32 = .error .lenientNotAllowed ∧ statusWord State.reset = 0#32

/-- R161: CLEAR zeroes STATUS and the result registers and keeps everything else; while BUSY its write is a locked
access; 0x00000101 is not CLEAR; besides reset nothing else ends the ERROR state. -/
def Obligations.ClearForgetsDerivedState : Prop :=
  (∀ s : State, s.busy = false →
    let t := { s with
      done := false, error := false, ovr := false, ftV := false, treeV := false, ctV := false, payV := false,
      mid := false, err := .none, lastop := 0#8, errInfo := 0#32, outLen := 0#32, ftN := 0#9, root := 0#9,
      nodeN := 0#10, encBits := 0#32, decBits := 0#32, payBase := 0#32 }
    exec .clear s = .next t ∧ statusWord t = 0#32 ∧
      portTxn (.write (regAddr .cmd) 0x00000001#32) s = .next { t with resp := some ⟨0#32, false⟩ }) ∧
  (∀ s : State, s.busy = true → exec .clear s = .next { s with ovr := true } ∧
    portTxn (.write (regAddr .cmd) 0x00000001#32) s =
      .next { s with ovr := true, resp := some ⟨0#32, true⟩ }) ∧
  decode 0x00000101#32 = .error .lenientNotAllowed ∧
  (∀ s : State, s.busy = false → s.error = true →
    portTxn (.write (regAddr .cmd) 0x00000101#32) s =
      .next { s with ovr := true, resp := some ⟨0#32, true⟩ }) ∧
  (∀ s t : State, s.busy = false → s.error = true → step s = .next t → t.error = false →
    (∃ x h, s.script = .rst x :: h) ∨ ∃ h, s.script = .txn (.write (regAddr .cmd) 0x00000001#32) :: h)

/-- R82: in the ERROR state every command word but NOP and CLEAR is dropped; OVR is set and nothing else changes. -/
def Obligations.ErrorStateRefusesCommands : Prop :=
  ∀ (s : State) (w : Word), s.busy = false → s.error = true → w ≠ 0x00000000#32 → w ≠ 0x00000001#32 →
    portTxn (.write (regAddr .cmd) w) s = .next { s with ovr := true, resp := some ⟨0#32, true⟩ }

/-- R177: in the ERROR state NOP and CLEAR are honoured, every other command word is refused, every register is
accessible as in the idle block, and ERR and ERRINFO stay until CLEAR or reset. -/
def Obligations.ErrorStateLasts : Prop :=
  ∀ s : State, s.busy = false → s.error = true →
    portTxn (.write (regAddr .cmd) 0x00000000#32) s = .next { s with resp := some ⟨0#32, false⟩ } ∧
    (∃ t, portTxn (.write (regAddr .cmd) 0x00000001#32) s = .next t ∧ exec .clear s = .next { t with resp := s.resp } ∧
      t.error = false ∧ t.err = .none ∧ t.errInfo = 0#32) ∧
    (∀ w, w ≠ 0x00000000#32 → w ≠ 0x00000001#32 →
      portTxn (.write (regAddr .cmd) w) s = .next { s with ovr := true, resp := some ⟨0#32, true⟩ }) ∧
    (∀ r, portTxn (.read (regAddr r)) s =
      .next { (readReg r s).2 with resp := some (readReg r s).1 }) ∧
    (∀ r v, r ≠ .cmd → portTxn (.write (regAddr r) v) s =
      .next { (writeReg r v s).2 with resp := some (writeReg r v s).1 }) ∧
    (∀ t, step s = .next t →
      (∃ x h, s.script = .rst x :: h) ∨ (∃ h, s.script = .txn (.write (regAddr .cmd) 0x00000001#32) :: h) ∨
      (t.error = true ∧ t.err = s.err ∧ t.errInfo = s.errInfo))

/-- R81: acceptance sets BUSY, LASTOP, CMDL, SEQ and BUSYCNT to some D_busy of at least 1, clears DONE and MID, and
changes nothing else. -/
def Obligations.AcceptanceLatchesCommand : Prop :=
  ∀ (s : State) (w : Word), s.busy = false → s.error = false → w ≠ 0x00000000#32 → w ≠ 0x00000001#32 →
    ∃ d, 1 ≤ d ∧
      let t := { s with
        done := false, mid := false, lastop := w.extractLsb' 0 8, seq := some w, busycnt := d,
        draws := s.draws + 1, work := { s.work with cmdl := w.getLsbD 8 }, resp := some ⟨0#32, false⟩ }
      portTxn (.write (regAddr .cmd) w) s = .next t ∧ t.busy = true

/-- R83: BUSYCNT falls by one a cycle, and in the cycle it reaches 0 the latched word's command completes; R176 for an
illegal word. -/
def Obligations.CompletionWhenCountReachesZero : Prop :=
  (∀ (s : State), 2 ≤ s.busycnt → engineTick s = .next { s with busycnt := s.busycnt - 1 }) ∧
  (∀ (s : State) (w : Word) (i : Instr), s.busycnt = 1 → s.seq = some w → decode w = .ok i →
    engineTick s = exec i s) ∧
  (∀ (s : State) (w : Word) (x : DecodeError), s.busycnt = 1 → s.seq = some w → decode w = .error x →
    engineTick s = .next { s with
      err := .illcmd, errInfo := w, error := true, done := false, outLen := 0#32, seq := none, busycnt := 0 })

/-- A step runs the decoded command: one that was accepted completes when its count is 1 and the host is quiet (R83);
NOP and CLEAR act in the cycle of their write (R160, R161), the answer standing beside their effect; and a command
placed by `withFetchWord` runs in the very next step (log 16, the model's own). A cycle of the idle block is its
transaction and nothing else (R57), the host's actions standing in the script (log 1; `wait` reads STATUS, log 18). -/
def Obligations.StepRunsDecodedCommand : Prop :=
  (∀ (s : State) (w : Word) (i : Instr) (h : List HostAct), s.seq = some w → decode w = .ok i → s.busycnt = 1 →
    s.script = .idle :: h → step s = exec i { s with script := h, resp := none }) ∧
  (∀ (s : State) (w : Word) (i : Instr), s.seq = some w → decode w = .ok i → s.busycnt = 1 →
    s.script = [] → step s = exec i { s with resp := none }) ∧
  (∀ (s : State) (w : Word) (i : Instr) (h : List HostAct), s.seq = none → decode w = .ok i →
    (i = .nop ∨ i = .clear) → s.script = .txn (.write (regAddr .cmd) w) :: h →
    step s = answered ⟨0#32, false⟩ (exec i { s with script := h })) ∧
  (∀ (s : State) (i : Instr), i ≠ .nop → i ≠ .clear →
    step (s.withFetchWord 32 (encode i).toNat) =
      exec i { accept (encode i) s with busycnt := 1, resp := none }) ∧
  (∀ (s : State) (x : Txn) (h : List HostAct), s.seq = none → s.script = .txn x :: h →
    step s = portTxn x { s with script := h }) ∧
  (∀ (s : State) (h : List HostAct), s.seq = none → s.script = .wait :: h →
    step s = portTxn (.read (regAddr .status)) { s with script := h }) ∧
  (∀ (s : State) (h : List HostAct), s.seq = none → s.script = .idle :: h →
    step s = .next { s with script := h, resp := none }) ∧
  (∀ s : State, s.seq = none → s.script = [] → step s = .next { s with resp := none })

/-! ### The register port -/

/-- R60: while BUSY every mapped register but ID, STATUS, CTRL, IN_CAP, OUT_CAP is locked, and these five behave as
always. -/
def Obligations.BusyLock : Prop :=
  (∀ (s : State) (t : Txn) (r : Reg), s.busy = true → regAt (txnAddr t) = some r →
    r ≠ .id → r ≠ .status → r ≠ .ctrl → r ≠ .inCap → r ≠ .outCap →
    portTxn t s = .next { s with ovr := true, resp := some ⟨0#32, true⟩ }) ∧
  (∀ s : State,
    portTxn (.read (regAddr .id)) s = .next { s with resp := some ⟨0x48464131#32, false⟩ } ∧
    portTxn (.read (regAddr .status)) s = .next { s with resp := some ⟨statusWord s, false⟩ } ∧
    portTxn (.read (regAddr .ctrl)) s = .next { s with resp := some ⟨ctrlWord s, false⟩ } ∧
    portTxn (.read (regAddr .inCap)) s = .next { s with resp := some ⟨BitVec.ofNat 32 s.inCap, false⟩ } ∧
    portTxn (.read (regAddr .outCap)) s = .next { s with resp := some ⟨BitVec.ofNat 32 s.outCap, false⟩ }) ∧
  (∀ (s : State) (v : Word),
    portTxn (.write (regAddr .status) v) s =
      .next { s with done := s.done && !v.getLsbD 1, ovr := s.ovr && !v.getLsbD 3, resp := some ⟨0#32, false⟩ } ∧
    portTxn (.write (regAddr .ctrl) v) s =
      .next { s with die := v.getLsbD 0, eie := v.getLsbD 1, resp := some ⟨0#32, false⟩ } ∧
    ∀ r, (r = .id ∨ r = .inCap ∨ r = .outCap) →
      portTxn (.write (regAddr r) v) s = .next { s with resp := some ⟨0#32, false⟩ })

/-- R61: an offset outside the register map reads 0, ignores writes, answers err = 1 and never sets OVR. -/
def Obligations.UnmappedOffsets : Prop :=
  ∀ (s : State) (t : Txn),
    (17 < (txnAddr t).toNat ∧ (txnAddr t).toNat < 0x100) ∨ 0x600 ≤ (txnAddr t).toNat →
    portTxn t s = .next { s with resp := some ⟨0#32, true⟩ }

/-- The register map (10_state.md section 3): every register has one offset, no two share one, and the numbers of the
offsets, as word addresses. -/
def Obligations.RegisterMapOneToOne : Prop :=
  (∀ (a : BitVec 14) (r : Reg), regAt a = some r ↔ regAddr r = a) ∧
  regAddr .id = 0#14 ∧ regAddr .cmd = 1#14 ∧ regAddr .status = 2#14 ∧ regAddr .ctrl = 3#14 ∧ regAddr .inLen = 4#14 ∧
  regAddr .outLen = 5#14 ∧ regAddr .errInfo = 6#14 ∧ regAddr .ftN = 7#14 ∧ regAddr .treeInfo = 8#14 ∧
  regAddr .encBits = 9#14 ∧ regAddr .decBits = 10#14 ∧ regAddr .payBase = 11#14 ∧ regAddr .inCap = 12#14 ∧
  regAddr .outCap = 13#14 ∧ regAddr .iptr = 14#14 ∧ regAddr .idata = 15#14 ∧ regAddr .optr = 16#14 ∧
  regAddr .odata = 17#14 ∧
  (∀ i : BitVec 8, (regAddr (.ftSym i)).toNat = 0x100 + i.toNat ∧ (regAddr (.ftCnt i)).toNat = 0x200 + i.toNat ∧
    (regAddr (.ctW i)).toNat = 0x300 + i.toNat) ∧
  (∀ k : NodeIdx, (regAddr (.nodeW k)).toNat = 0x400 + k.toNat)

/-- The register map and R13 (10_state.md section 3): what the idle block's operand and result registers and CMD answer
to a read, TREEINFO's packing, that a write to IN_LEN stores the whole word, and that a write to a read-only register is
ignored without error. -/
def Obligations.ResultRegisters : Prop :=
  (∀ s : State, s.busy = false →
    portTxn (.read (regAddr .cmd)) s = .next { s with resp := some ⟨0#32, false⟩ } ∧
    portTxn (.read (regAddr .inLen)) s = .next { s with resp := some ⟨s.inLen, false⟩ } ∧
    portTxn (.read (regAddr .outLen)) s = .next { s with resp := some ⟨s.outLen, false⟩ } ∧
    portTxn (.read (regAddr .errInfo)) s = .next { s with resp := some ⟨s.errInfo, false⟩ } ∧
    portTxn (.read (regAddr .ftN)) s = .next { s with resp := some ⟨s.ftN.setWidth 32, false⟩ } ∧
    portTxn (.read (regAddr .treeInfo)) s = .next { s with resp := some ⟨treeInfoWord s, false⟩ } ∧
    portTxn (.read (regAddr .encBits)) s = .next { s with resp := some ⟨s.encBits, false⟩ } ∧
    portTxn (.read (regAddr .decBits)) s = .next { s with resp := some ⟨s.decBits, false⟩ } ∧
    portTxn (.read (regAddr .payBase)) s = .next { s with resp := some ⟨s.payBase, false⟩ }) ∧
  (∀ s : State, (treeInfoWord s).extractLsb' 0 9 = s.root ∧ (treeInfoWord s).extractLsb' 9 7 = 0#7 ∧
    (treeInfoWord s).extractLsb' 16 10 = s.nodeN ∧ (treeInfoWord s).extractLsb' 26 6 = 0#6) ∧
  (∀ (s : State) (v : Word), s.busy = false →
    portTxn (.write (regAddr .inLen) v) s = .next { s with inLen := v, resp := some ⟨0#32, false⟩ }) ∧
  (∀ (s : State) (v : Word) (r : Reg), s.busy = false →
    (r = .id ∨ r = .inCap ∨ r = .outCap ∨ r = .outLen ∨ r = .errInfo ∨ r = .ftN ∨ r = .treeInfo ∨ r = .encBits ∨
      r = .decBits ∨ r = .payBase ∨ r = .odata ∨ (∃ i, r = .ftSym i ∨ r = .ftCnt i ∨ r = .ctW i) ∨ ∃ k, r = .nodeW k) →
    portTxn (.write (regAddr r) v) s = .next { s with resp := some ⟨0#32, false⟩ })

/-- R58: the input data port in the idle block. -/
def Obligations.InputDataPort : Prop :=
  (∀ (s : State) (w : Word), s.busy = false → s.iptr.toNat < s.inCap →
    ∃ m, portTxn (.write (regAddr .idata) w) s =
        .next { s with ibuf := m, iptr := s.iptr + 1#32, resp := some ⟨0#32, false⟩ } ∧
      ∀ a, State.ibufByte { s with ibuf := m } a =
        if a = s.iptr.toNat then w.extractLsb' 0 8 else s.ibufByte a) ∧
  (∀ (s : State) (w : Word), s.busy = false → s.inCap ≤ s.iptr.toNat →
    portTxn (.write (regAddr .idata) w) s = .next { s with resp := some ⟨0#32, true⟩ }) ∧
  (∀ s : State, s.busy = false → s.iptr.toNat < s.inCap →
    portTxn (.read (regAddr .idata)) s =
      .next { s with iptr := s.iptr + 1#32, resp := some ⟨(s.ibufByte s.iptr.toNat).setWidth 32, false⟩ }) ∧
  (∀ s : State, s.busy = false → s.inCap ≤ s.iptr.toNat →
    portTxn (.read (regAddr .idata)) s = .next { s with resp := some ⟨0#32, true⟩ }) ∧
  (∀ (s : State) (w : Word), s.busy = false →
    portTxn (.write (regAddr .iptr) w) s = .next { s with iptr := w, resp := some ⟨0#32, false⟩ } ∧
    portTxn (.read (regAddr .iptr)) s = .next { s with resp := some ⟨s.iptr, false⟩ }) ∧
  (∀ s : State, s.inCap ≤ 2 ^ 28 → s.iptr.toNat < s.inCap → (s.iptr + 1#32).toNat = s.iptr.toNat + 1) ∧
  (∀ (s : State) (t : Txn), s.busy = true → (txnAddr t = regAddr .idata ∨ txnAddr t = regAddr .iptr) →
    portTxn t s = .next { s with ovr := true, resp := some ⟨0#32, true⟩ })

/-- R59: the output data port in the idle block; no command changes IPTR or OPTR, and reset clears them. -/
def Obligations.OutputDataPort : Prop :=
  (∀ s : State, s.busy = false → s.optr.toNat < s.outCap →
    portTxn (.read (regAddr .odata)) s =
      .next { s with optr := s.optr + 1#32, resp := some ⟨(s.obufByte s.optr.toNat).setWidth 32, false⟩ }) ∧
  (∀ s : State, s.busy = false → s.outCap ≤ s.optr.toNat →
    portTxn (.read (regAddr .odata)) s = .next { s with resp := some ⟨0#32, true⟩ }) ∧
  (∀ (s : State) (w : Word), s.busy = false →
    portTxn (.write (regAddr .odata) w) s = .next { s with resp := some ⟨0#32, false⟩ } ∧
    portTxn (.write (regAddr .optr) w) s = .next { s with optr := w, resp := some ⟨0#32, false⟩ } ∧
    portTxn (.read (regAddr .optr)) s = .next { s with resp := some ⟨s.optr, false⟩ }) ∧
  (∀ (s : State) (t : Txn), s.busy = true → (txnAddr t = regAddr .odata ∨ txnAddr t = regAddr .optr) →
    portTxn t s = .next { s with ovr := true, resp := some ⟨0#32, true⟩ }) ∧
  (∀ (i : Instr) (s t : State), exec i s = .next t → t.iptr = s.iptr ∧ t.optr = s.optr) ∧
  (∀ (s t : State) (x : Option Txn) (h : List HostAct), s.script = .rst x :: h → step s = .next t →
    t.iptr = 0#32 ∧ t.optr = 0#32)

/-- The bits of STATUS (10_state.md section 3) and the error codes it holds (60_exceptions.md section 1). -/
def Obligations.StatusRegisterBits : Prop :=
  ∀ s : State,
    (statusWord s).getLsbD 0 = s.busy ∧ (statusWord s).getLsbD 1 = s.done ∧ (statusWord s).getLsbD 2 = s.error ∧
    (statusWord s).getLsbD 3 = s.ovr ∧ (statusWord s).getLsbD 4 = s.ftV ∧ (statusWord s).getLsbD 5 = s.treeV ∧
    (statusWord s).getLsbD 6 = s.ctV ∧ (statusWord s).getLsbD 7 = s.payV ∧ (statusWord s).getLsbD 8 = s.mid ∧
    (statusWord s).extractLsb' 9 7 = 0#7 ∧ (statusWord s).extractLsb' 20 4 = 0#4 ∧
    (statusWord s).extractLsb' 24 8 = s.lastop ∧
    (statusWord s).extractLsb' 16 4 = errNumber s.err ∧
    errNumber .none = 0#4 ∧ errNumber .empty = 1#4 ∧ errNumber .inlen = 2#4 ∧ errNumber .overflow = 3#4 ∧
    errNumber .envelope = 4#4 ∧ errNumber .midtree = 5#4 ∧ errNumber .badpath = 6#4 ∧ errNumber .seq = 7#4 ∧
    errNumber .illcmd = 8#4 ∧ errNumber .invariant = 9#4

/-- R15: CTRL reads DIE and EIE, ignores writes to its reserved bits, and no command changes it. -/
def Obligations.ControlRegister : Prop :=
  (∀ s : State, (ctrlWord s).getLsbD 0 = s.die ∧ (ctrlWord s).getLsbD 1 = s.eie ∧
    (ctrlWord s).extractLsb' 2 30 = 0#30) ∧
  (∀ (s : State) (v : Word), portTxn (.write (regAddr .ctrl) v) s =
    .next { s with die := v.getLsbD 0, eie := v.getLsbD 1, resp := some ⟨0#32, false⟩ }) ∧
  (∀ (s : State), portTxn (.read (regAddr .ctrl)) s = .next { s with resp := some ⟨ctrlWord s, false⟩ }) ∧
  (∀ (i : Instr) (s t : State), exec i s = .next t → t.die = s.die ∧ t.eie = s.eie) ∧
  (∀ s : State, s.irq = true ↔ (s.die = true ∧ s.done = true) ∨ (s.eie = true ∧ s.error = true)) ∧
  ctrlWord State.reset = 0#32

/-- R35, R36, R37: the read windows on FT, NODE and CT of the idle block, their packing, and the spec's four examples. -/
def Obligations.TableWindows : Prop :=
  (∀ (s : State) (i : BitVec 8), s.busy = false →
    portTxn (.read (BitVec.ofNat 14 (0x100 + i.toNat))) s = .next { s with
      resp := some ⟨if s.ftV = true ∧ i.toNat < s.ftN.toNat then (tableGet s.ft i).sym.setWidth 32 else 0#32, false⟩ } ∧
    portTxn (.read (BitVec.ofNat 14 (0x200 + i.toNat))) s = .next { s with
      resp := some ⟨if s.ftV = true ∧ i.toNat < s.ftN.toNat then (tableGet s.ft i).cnt else 0#32, false⟩ } ∧
    portTxn (.read (BitVec.ofNat 14 (0x300 + i.toNat))) s = .next { s with
      resp := some ⟨if s.ctV = true then ctWord (tableGet s.ct i) else 0#32, false⟩ }) ∧
  (∀ (s : State) (k : NodeIdx), s.busy = false →
    portTxn (.read (BitVec.ofNat 14 (0x400 + k.toNat))) s = .next { s with
      resp := some ⟨if s.treeV = true ∧ k.toNat < s.nodeN.toNat then nodeWord (tableGet s.node k) else 0#32, false⟩ }) ∧
  (∀ e : NodeEntry,
    (nodeWord e).extractLsb' 0 9 = e.left ∧ (nodeWord e).extractLsb' 9 3 = 0#3 ∧
    (nodeWord e).extractLsb' 12 9 = e.right ∧ (nodeWord e).extractLsb' 21 2 = 0#2 ∧
    (nodeWord e).getLsbD 23 = e.leaf ∧ (nodeWord e).extractLsb' 24 8 = e.sym) ∧
  nodeWord ⟨true, 0x61#8, 0x1FF#9, 0x1FF#9⟩ = 0x619FF1FF#32 ∧
  nodeWord ⟨false, 0#8, 7#9, 4#9⟩ = 0x00004007#32 ∧ nodeWord ⟨false, 0#8, 0#9, 0x1FF#9⟩ = 0x001FF000#32 ∧
  (∀ e : CtEntry,
    (ctWord e).extractLsb' 0 8 = e.code ∧ (ctWord e).extractLsb' 8 4 = e.len ∧
    (ctWord e).extractLsb' 12 3 = 0#3 ∧ (ctWord e).getLsbD 15 = e.valid ∧ (ctWord e).extractLsb' 16 16 = 0#16) ∧
  ctWord ⟨true, 3#4, 0x06#8⟩ = 0x00008306#32

/-- R38: no transaction of the host changes FT, NODE or CT, and no cycle of the idle block without a reset does; they
change only by FREQ, LOAD, TREE and CODES (and by the composite commands, which run these). -/
def Obligations.TablesChangeOnlyByCommands : Prop :=
  (∀ (x : Txn) (s t : State), portTxn x s = .next t → t.ft = s.ft ∧ t.node = s.node ∧ t.ct = s.ct) ∧
  (∀ (i : Instr) (s t : State), exec i s = .next t →
    (t.ft ≠ s.ft → i = .freq ∨ i = .load ∨ i = .compress ∨ ∃ l, i = .decompress l) ∧
    (t.node ≠ s.node → i = .tree ∨ i = .compress ∨ ∃ l, i = .decompress l) ∧
    (t.ct ≠ s.ct → i = .codes ∨ i = .compress)) ∧
  (∀ s t : State, s.busy = false → (∀ x h, s.script ≠ .rst x :: h) → step s = .next t →
    t.ft = s.ft ∧ t.node = s.node ∧ t.ct = s.ct)

/-- What a transaction on any register but CMD leaves alone: the results, the valid flags, the tables, every byte of
OBUF, the command in execution, and of the rest all that the access does not write (20_memory.md sections 4 and 5,
70_reset_and_hazards.md section 3). The working state and the draws are hidden or the model's own (logs 5, 9). -/
def Obligations.HostAccessFrame : Prop :=
  ∀ (x : Txn) (s t : State), txnAddr x ≠ regAddr .cmd → portTxn x s = .next t →
    ResultsSame s t ∧ SameObuf s t ∧ t.error = s.error ∧ t.err = s.err ∧ t.mid = s.mid ∧ t.lastop = s.lastop ∧
    t.seq = s.seq ∧ t.busycnt = s.busycnt ∧ t.inCap = s.inCap ∧ t.outCap = s.outCap ∧ t.script = s.script ∧
    t.work = s.work ∧ t.draws = s.draws ∧
    (∀ a, a ≠ s.iptr.toNat → t.ibufByte a = s.ibufByte a) ∧
    (¬ (∃ v, x = .write (regAddr .idata) v ∧ s.busy = false ∧ s.iptr.toNat < s.inCap) →
      ∀ a, t.ibufByte a = s.ibufByte a) ∧
    (¬ (∃ v, x = .write (regAddr .inLen) v) → t.inLen = s.inLen) ∧
    (¬ (∃ v, x = .write (regAddr .iptr) v) → txnAddr x ≠ regAddr .idata → t.iptr = s.iptr) ∧
    (¬ (∃ v, x = .write (regAddr .optr) v) → x ≠ .read (regAddr .odata) → t.optr = s.optr) ∧
    (¬ (∃ v, x = .write (regAddr .ctrl) v) → t.die = s.die ∧ t.eie = s.eie) ∧
    (¬ (∃ v, x = .write (regAddr .status) v) → t.done = s.done ∧ (s.busy = false → t.ovr = s.ovr))

/-! ### Reset -/

/-- R201: after reset every register reads 0 but ID and the capacities. -/
def Obligations.ResetRegistersReadZero : Prop :=
  (∀ r : Reg, r ≠ .id → r ≠ .inCap → r ≠ .outCap → r ≠ .idata → r ≠ .odata →
    (readReg r State.reset).1 = ⟨0#32, false⟩) ∧
  (readReg .id State.reset).1 = ⟨0x48464131#32, false⟩ ∧
  (readReg .inCap State.reset).1 = ⟨BitVec.ofNat 32 Config.inCap, false⟩ ∧
  (readReg .outCap State.reset).1 = ⟨BitVec.ofNat 32 Config.outCap, false⟩ ∧
  State.reset.busy = false ∧ State.reset.done = false ∧ State.reset.error = false ∧ State.reset.ovr = false ∧
  State.reset.ftV = false ∧ State.reset.treeV = false ∧ State.reset.ctV = false ∧ State.reset.payV = false ∧
  State.reset.mid = false ∧ State.reset.err = .none ∧ State.reset.lastop = 0#8 ∧
  State.reset.die = false ∧ State.reset.eie = false

/-- R200: a cycle with rst = 1 gives every register its reset value, abandons the command without DONE or ERROR, and
answers a transaction with rdata = 0, err = 1. -/
def Obligations.ResetCycle : Prop :=
  ∀ (s : State) (x : Option Txn) (h : List HostAct), s.script = .rst x :: h →
    ∃ t, step s = .next t ∧ statusWord t = 0#32 ∧ ctrlWord t = 0#32 ∧ t.irq = false ∧ t.busy = false ∧
      t.busycnt = 0 ∧ t.inLen = 0#32 ∧ t.outLen = 0#32 ∧ t.errInfo = 0#32 ∧ t.ftN = 0#9 ∧ t.root = 0#9 ∧
      t.nodeN = 0#10 ∧ t.encBits = 0#32 ∧ t.decBits = 0#32 ∧ t.payBase = 0#32 ∧ t.iptr = 0#32 ∧ t.optr = 0#32 ∧
      t.inCap = s.inCap ∧ t.outCap = s.outCap ∧ t.script = h ∧ (∀ a, t.ibufByte a = s.ibufByte a) ∧
      t.resp = x.map fun _ => ⟨0#32, true⟩

/-- What a reset keeps (70_reset_and_hazards.md section 1): every byte of IBUF; every byte of OBUF too, unless it
abandons a PACK, WALK, COMPRESS or DECOMPRESS. -/
def Obligations.ResetKeepsBuffers : Prop :=
  ∀ (s : State) (x : Option Txn) (h : List HostAct), s.script = .rst x :: h →
    ∃ t, step s = .next t ∧ (∀ a, t.ibufByte a = s.ibufByte a) ∧
      ((∀ w i, s.seq = some w → decode w = .ok i →
          i ≠ .pack ∧ (∀ l, i ≠ .walk l) ∧ i ≠ .compress ∧ ∀ l, i ≠ .decompress l) → SameObuf s t)

/-! ### The units: requirements and frames -/

/-- The requirement check of 10_state.md section 6: a unit command without the state it requires ends in ERR_SEQ(0)
and nothing but the error entry happens. The model's readings: OUT_LEN = 0 after TREE and CODES (log 15), OBUF unchanged
after PACK and WALK (log 19), the working state kept (log 9). -/
def Obligations.MissingRequirement : Prop :=
  ∀ s : State,
    let t := { s with
      err := .seq, errInfo := 0#32, error := true, done := false, outLen := 0#32, seq := none, busycnt := 0 }
    (s.ftV = false → exec .tree s = .next t) ∧ (s.treeV = false → exec .codes s = .next t) ∧
    (s.ctV = false → exec .pack s = .next t) ∧
    (∀ l, (s.treeV = false ∨ s.payV = false) → exec (.walk l) s = .next t)

/-- FRAME of the eight commands the engine completes: FREQ, TREE, CODES, PACK, LOAD, WALK, COMPRESS, DECOMPRESS leave
CTRL, OVR, LASTOP, IN_LEN, IPTR, OPTR and every byte of IBUF as they were, in success and in error. -/
def Obligations.EngineLeavesHostSide : Prop :=
  ∀ (i : Instr) (s t : State), i ≠ .nop → i ≠ .clear → exec i s = .next t → HostSideSame s t

/-- FRAME of OBUF: FREQ, TREE, CODES and LOAD change no byte of it; PACK, WALK, COMPRESS and DECOMPRESS, where they
succeed, change none at or above OUT_LEN (10_state.md section 8). -/
def Obligations.OutputBufferFrame : Prop :=
  (∀ (i : Instr) (s t : State), (i = .freq ∨ i = .tree ∨ i = .codes ∨ i = .load) → exec i s = .next t →
    SameObuf s t) ∧
  (∀ (i : Instr) (s t : State), (i = .pack ∨ (∃ l, i = .walk l) ∨ i = .compress ∨ ∃ l, i = .decompress l) →
    s.outCap ≤ 2 ^ 28 → exec i s = .next t → t.error = false →
    ∀ a, t.outLen.toNat ≤ a → t.obufByte a = s.obufByte a)

/-- FRAME of the registers, flags and tables each unit command does not write, in success and in error
(10_state.md section 6 and the lists of the unit files). -/
def Obligations.UnitCommandFrames : Prop :=
  (∀ s t : State, exec .freq s = .next t →
    t.root = s.root ∧ t.nodeN = s.nodeN ∧ t.encBits = s.encBits ∧ t.decBits = s.decBits ∧ t.payBase = s.payBase ∧
    t.node = s.node ∧ t.ct = s.ct ∧ t.mid = s.mid) ∧
  (∀ s t : State, exec .load s = .next t →
    t.root = s.root ∧ t.nodeN = s.nodeN ∧ t.encBits = s.encBits ∧ t.node = s.node ∧ t.ct = s.ct ∧ t.mid = s.mid) ∧
  (∀ s t : State, exec .tree s = .next t →
    t.ftN = s.ftN ∧ t.encBits = s.encBits ∧ t.decBits = s.decBits ∧ t.payBase = s.payBase ∧ t.ftV = s.ftV ∧
    t.payV = s.payV ∧ t.ft = s.ft ∧ t.ct = s.ct ∧ t.mid = s.mid) ∧
  (∀ s t : State, exec .codes s = .next t →
    t.ftN = s.ftN ∧ t.root = s.root ∧ t.nodeN = s.nodeN ∧ t.encBits = s.encBits ∧ t.decBits = s.decBits ∧
    t.payBase = s.payBase ∧ t.ftV = s.ftV ∧ t.treeV = s.treeV ∧ t.payV = s.payV ∧ t.ft = s.ft ∧ t.node = s.node ∧
    t.mid = s.mid) ∧
  (∀ s t : State, exec .pack s = .next t →
    ResultsSame { s with outLen := t.outLen, errInfo := t.errInfo, encBits := t.encBits } t ∧ t.mid = s.mid) ∧
  (∀ (l : Bool) (s t : State), exec (.walk l) s = .next t →
    ResultsSame { s with outLen := t.outLen, errInfo := t.errInfo } t)

/-- In every state of the invariant every command the engine completes ends, with BUSY = 0, in exactly one of success
(DONE) and error entry (ERROR, a code, OUT_LEN = 0, DONE = 0). OUT_LEN = 0 after an error of FREQ, TREE, CODES or LOAD
is the model's reading of log 15. -/
def Obligations.EveryCommandCompletes : Prop :=
  ∀ (i : Instr) (s : State), s.Inv → s.error = false → i ≠ .nop → i ≠ .clear →
    ∃ t, exec i s = .next t ∧ t.busy = false ∧ t.busycnt = 0 ∧
      ((t.done = true ∧ t.error = false ∧ t.err = s.err) ∨
       (t.done = false ∧ t.error = true ∧ t.err ≠ .none ∧ t.outLen = 0#32))

/-- An error entry (60_exceptions.md sections 1 to 3): which command can raise which code, ERRINFO where it is one
value, what is cleared (OUT_LEN after FREQ, TREE, CODES and LOAD by the reading of log 15), what is kept, and OBUF: havoc
(in the model's form of log 7) after every error of PACK, WALK, COMPRESS and DECOMPRESS but ERR_SEQ, else unchanged
(log 19). -/
def Obligations.ErrorEntry : Prop :=
  ∀ (i : Instr) (s t : State), s.error = false → i ≠ .nop → i ≠ .clear → exec i s = .next t → t.error = true →
    t.done = false ∧ t.outLen = 0#32 ∧ t.busy = false ∧ t.err ≠ .none ∧ t.err ≠ .illcmd ∧ HostSideSame s t ∧
    (t.err = .empty → (i = .freq ∨ i = .compress) ∧ t.errInfo = 0#32) ∧
    (t.err = .inlen → (i = .freq ∨ i = .pack ∨ i = .load ∨ i = .compress ∨ ∃ l, i = .decompress l) ∧
      t.errInfo = s.inLen) ∧
    (t.err = .overflow → i = .pack ∨ (∃ l, i = .walk l) ∨ i = .compress ∨ ∃ l, i = .decompress l) ∧
    (t.err = .envelope → i = .load ∨ ∃ l, i = .decompress l) ∧
    (t.err = .midtree → (i = .walk false ∨ i = .decompress false) ∧ t.errInfo = t.decBits) ∧
    (t.err = .badpath → (∃ l, i = .walk l) ∨ ∃ l, i = .decompress l) ∧
    (t.err = .seq → (i = .tree ∨ i = .codes ∨ i = .pack ∨ ∃ l, i = .walk l) ∧ t.errInfo = 0#32) ∧
    (t.err = .invariant → i = .codes ∨ i = .pack) ∧
    (if (i = .pack ∨ (∃ l, i = .walk l) ∨ i = .compress ∨ ∃ l, i = .decompress l) ∧ t.err ≠ .seq
      then t.obuf = [] ∧ t.obufGen = s.obufGen + 1 else t.obuf = s.obuf ∧ t.obufGen = s.obufGen)

/-! ### FREQ -/

/-- R101: FREQ builds FT by the stable sort of the discovery list by count; the two errors keep the start effects and are
the error entry of R176, with OUT_LEN = 0 by the reading of log 15 and the working state kept (log 9). -/
def Obligations.FreqBuildsStableTable : Prop :=
  decode 0x00000010#32 = .ok .freq ∧ ∀ s : State,
    (s.inLen = 0#32 → exec .freq s = .next { s with
      ftV := false, treeV := false, ctV := false, payV := false, ftN := 0#9,
      err := .empty, errInfo := 0#32, error := true, done := false, outLen := 0#32, seq := none, busycnt := 0 }) ∧
    (s.inCap < s.inLen.toNat → exec .freq s = .next { s with
      ftV := false, treeV := false, ctV := false, payV := false, ftN := 0#9,
      err := .inlen, errInfo := s.inLen, error := true, done := false, outLen := 0#32, seq := none, busycnt := 0 }) ∧
    (s.inLen ≠ 0#32 → s.inLen.toNat ≤ s.inCap → ∃ w, exec .freq s = .next { s with
      ftV := true, treeV := false, ctV := false, payV := false,
      ft := tableOverlay s.ft (stableTable s.input), ftN := BitVec.ofNat 9 (stableTable s.input).length,
      done := true, seq := none, busycnt := 0, work := w })

/-- FREQ as a function (40_freq.md section 2, the spec's derived statement): every distinct byte once with its count,
the counts' sum the length, the entries in strictly increasing order of (count, first occurrence). -/
def Obligations.FreqTableIsOrdered : Prop :=
  ∀ s : State, s.inLen ≠ 0#32 → s.inLen.toNat ≤ s.inCap →
    ∃ t, exec .freq s = .next t ∧ t.ftList.length = t.ftN.toNat ∧ TableOk t.ftList ∧
      (∀ b, b ∈ s.input ↔ ∃ e ∈ t.ftList, e.sym = b) ∧
      (∀ e ∈ t.ftList, e.cnt.toNat = s.input.count e.sym) ∧
      (t.ftList.map fun e => e.cnt.toNat).sum = s.inLen.toNat ∧
      t.ftList.Pairwise fun x y =>
        x.cnt < y.cnt ∨ (x.cnt = y.cnt ∧ s.input.idxOf x.sym < s.input.idxOf y.sym)

/-! ### TREE -/

/-- R111: TREE builds NODE, NODE_N and ROOT from the symbols of FT in table order; with FT_V = 1 it cannot fail; the
spec's example. ERR_SEQ is the error entry of R176, with OUT_LEN = 0 by the reading of log 15 and the working state kept
(log 9). -/
def Obligations.TreeBuildsFromTable : Prop :=
  decode 0x00000011#32 = .ok .tree ∧
  (∀ s : State, s.ftV = false → exec .tree s = .next { s with
    err := .seq, errInfo := 0#32, error := true, done := false, outLen := 0#32, seq := none, busycnt := 0 }) ∧
  (∀ s : State, s.ftV = true → 1 ≤ s.ftN.toNat → s.ftN.toNat ≤ 256 →
    ∃ b w, buildTree s.symbols = some b ∧ exec .tree s = .next { s with
      treeV := true, ctV := false, node := tableOverlay s.node b.arena, nodeN := BitVec.ofNat 10 b.arena.length,
      root := b.root, done := true, seq := none, busycnt := 0, work := w }) ∧
  buildTree [0x63#8, 0x64#8, 0x62#8, 0x72#8, 0x61#8] = some ⟨[leafNode 0x63#8, leafNode 0x64#8, leafNode 0x62#8,
    leafNode 0x72#8, leafNode 0x61#8, innerNode 0#9 1#9, innerNode 2#9 3#9, innerNode 5#9 6#9, innerNode 7#9 4#9], 8#9⟩

/-- R112: the merge scheduler as a state machine reaches M_DONE and computes what R111 computes. -/
def Obligations.MergeSchedulerComputesTree : Prop :=
  ∀ (syms : List Byte) (node : Table NodeEntry 9), 1 ≤ syms.length → syms.length ≤ 256 →
    ∃ n b, buildTree syms = some b ∧
      let f := treeFsmRun syms n (treeFsmStart node)
      f.phase = .done ∧ f.treeV = true ∧ f.root = b.root ∧ f.nodeN = b.arena.length ∧
        f.node = tableOverlay node b.arena

/-- The arena's layout (41_tree.md section 2, the spec's derived statement): sizes, the root last, the leaves first in
table order, children before parents, NIL only in the one-symbol tree, and one parent for every node but the root. -/
def Obligations.TreeArenaLayout : Prop :=
  ∀ syms : List Byte, 1 ≤ syms.length → syms.length ≤ 256 →
    ∃ b, buildTree syms = some b ∧
      b.arena.length = (if syms.length = 1 then 2 else 2 * syms.length - 1) ∧ b.root.toNat + 1 = b.arena.length ∧
      (∀ i, i < syms.length → b.arena[i]? = syms[i]?.map leafNode) ∧
      (∀ (k : Nat) (e : NodeEntry), syms.length ≤ k → b.arena[k]? = some e → e.leaf = false ∧ e.sym = 0#8 ∧ e.left.toNat < k ∧
        ((e.right = nilIdx ∧ syms.length = 1) ∨ (e.right.toNat < k ∧ e.right ≠ e.left ∧ 2 ≤ syms.length))) ∧
      (∀ j : NodeIdx, j.toNat < b.root.toNat → ∃ (k : Nat) (e : NodeEntry), b.arena[k]? = some e ∧ e.leaf = false ∧
        (e.left = j ∨ e.right = j) ∧
        ∀ (k' : Nat) (e' : NodeEntry), b.arena[k']? = some e' → e'.leaf = false → (e'.left = j ∨ e'.right = j) → k' = k)

/-- The depth bound (41_tree.md section 2, the spec's derived statement): every code has 1 to max(1, ceil(log2 N)) bits,
at most 8. -/
def Obligations.TreeDepthBound : Prop :=
  ∀ (syms : List Byte) (b : Built) (node : Table NodeEntry 9) (p : List Bool) (l : NodeIdx),
    1 ≤ syms.length → syms.length ≤ 256 → buildTree syms = some b → tableTake node b.arena.length = b.arena →
    LeafPath node b.root p l → 1 ≤ p.length ∧ p.length ≤ max 1 (Nat.clog 2 syms.length) ∧ p.length ≤ 8

/-- R113: NODE, NODE_N and ROOT after TREE are a function of the symbol sequence alone. -/
def Obligations.TreeDependsOnSymbolsOnly : Prop :=
  ∀ s s' : State, s.ftV = true → s'.ftV = true → 1 ≤ s.ftN.toNat → s.ftN.toNat ≤ 256 → s'.ftN = s.ftN →
    s'.symbols = s.symbols →
    ∃ t t', exec .tree s = .next t ∧ exec .tree s' = .next t' ∧ t'.nodeN = t.nodeN ∧ t'.root = t.root ∧
      tableTake t'.node t'.nodeN.toNat = tableTake t.node t.nodeN.toNat

/-! ### CODES -/

/-- CODES as a function (42_codes.md section 2, the spec's derived statement): in every state of the invariant with a
valid tree it succeeds, the code of every leaf's symbol is the path to it, every symbol of FT has a leaf, and every
other entry is invalid. -/
def Obligations.CodesRecordsPaths : Prop :=
  ∀ s : State, s.Inv → s.treeV = true →
    ∃ ct w, exec .codes s = .next { s with
        ct := ct, ctV := true, done := true, seq := none, busycnt := 0, work := w } ∧
      (∀ p l, LeafPath s.node s.root p l → tableGet ct (tableGet s.node l).sym = codeOfPath p) ∧
      (∀ b, b ∈ s.symbols → ∃ p l, LeafPath s.node s.root p l ∧ (tableGet s.node l).sym = b) ∧
      (∀ b, b ∉ s.symbols → tableGet ct b = ⟨false, 0#4, 0#8⟩)

/-- The invariants of the code table (42_codes.md section 2, the spec's derived statement): exactly the symbols of FT
have a code, of 1 to 8 bits, and no code is a prefix of another. -/
def Obligations.CodesArePrefixFree : Prop :=
  ∀ s : State, s.Inv → s.ctV = true →
    (∀ b, (tableGet s.ct b).valid = true ↔ b ∈ s.symbols) ∧
    (∀ b, b ∈ s.symbols → 1 ≤ (tableGet s.ct b).len.toNat ∧ (tableGet s.ct b).len.toNat ≤ 8) ∧
    (∀ b c, b ∈ s.symbols → c ∈ s.symbols → b ≠ c →
      ¬ codeBits (tableGet s.ct b) <+: codeBits (tableGet s.ct c))

/-- The single-symbol property (42_codes.md section 2): a table of one symbol gives it the code "0" and no other symbol
a code. -/
def Obligations.SingleSymbolCode : Prop :=
  ∀ s : State, s.ftV = true → s.ftN = 1#9 →
    ∃ t u, exec .tree s = .next t ∧ exec .codes t = .next u ∧ u.ctV = true ∧
      ∀ b, tableGet u.ct b = if b = (tableGet s.ft 0#8).sym then ⟨true, 1#4, 0#8⟩ else ⟨false, 0#4, 0#8⟩

/-! ### PACK -/

/-- PACK as a function (43_pack.md section 2, the spec's derived statement): where every input byte has a code and the
envelope fits, OBUF[0..OUT_LEN-1] is the envelope of FT and of the codes in input order, and no other byte of OBUF
changes. -/
def Obligations.PackWritesEnvelope : Prop :=
  ∀ s : State, s.ctV = true → s.inLen.toNat ≤ s.inCap → s.ftN.toNat ≤ 256 →
    (∀ b, b ∈ s.input → (tableGet s.ct b).valid = true) →
    let bits := encodeBits s.ct s.input
    let size := envSize s.ftN.toNat bits.length
    size ≤ s.outCap →
    ∃ m w, exec .pack s = .next { s with
        obuf := m, encBits := BitVec.ofNat 32 bits.length, outLen := BitVec.ofNat 32 size,
        done := true, seq := none, busycnt := 0, work := w } ∧
      ∀ a, State.obufByte { s with obuf := m } a =
        if a < size then byteAt (envelope s.ftList bits) a else s.obufByte a

/-- The errors of PACK after its start effects and their ERRINFO (43_pack.md section 2): which comes first, and that
OUT_LEN and ENC_BITS are 0. OBUF is then havoc, in the model's form of log 7. -/
def Obligations.PackErrors : Prop :=
  ∀ s : State, s.ctV = true →
    let fails := fun (e : ErrCode) (info : Nat) => ∃ w, exec .pack s = .next { s with
      err := e, errInfo := BitVec.ofNat 32 info, error := true, done := false, outLen := 0#32, encBits := 0#32,
      obuf := [], obufGen := s.obufGen + 1, seq := none, busycnt := 0, work := w }
    let before := fun i => (encodeBits s.ct (s.input.take i)).length
    let head := 6 + 5 * s.ftN.toNat
    let coded := fun i => ∀ b, b ∈ s.input.take i → (tableGet s.ct b).valid = true
    (s.inCap < s.inLen.toNat → fails .inlen s.inLen.toNat) ∧
    (s.inLen.toNat ≤ s.inCap → s.ftN.toNat ≤ 256 →
      (s.outCap < head → fails .overflow 0) ∧
      (head ≤ s.outCap → ∀ i, i < s.inLen.toNat →
        (coded i → (∀ b, s.input[i]? = some b → (tableGet s.ct b).valid = false) →
          head + before i / 8 ≤ s.outCap → fails .invariant i) ∧
        (coded (i + 1) → head + before i / 8 ≤ s.outCap → s.outCap < head + before (i + 1) / 8 →
          fails .overflow i)) ∧
      (coded s.inLen.toNat → head + before s.inLen.toNat / 8 ≤ s.outCap →
        s.outCap < head + ceil8 (before s.inLen.toNat) → fails .overflow s.inLen.toNat))

/-- Every envelope PACK writes from a state of the invariant is well-formed (30_encoding.md section 4, the spec's
derived statement). -/
def Obligations.PackedEnvelopeWellFormed : Prop :=
  ∀ s : State, s.Inv → s.ctV = true → s.inLen.toNat ≤ s.inCap →
    (∀ b, b ∈ s.input → (tableGet s.ct b).valid = true) →
    envSize s.ftN.toNat (encodeBits s.ct s.input).length ≤ s.outCap →
    ∃ t, exec .pack s = .next t ∧ t.done = true ∧ EnvelopeOk (t.obufBytes t.outLen.toNat)

/-! ### LOAD -/

/-- LOAD as a function (44_decode.md section 2, the spec's derived statement): it succeeds exactly on a well-formed
envelope that fits IBUF, FT then holds its table in persisted order; else the start effects stay and OBUF is as it
was. After an error OUT_LEN = 0 is the model's reading of log 15, and the working state kept is log 9. -/
def Obligations.LoadAcceptsExactlyEnvelopes : Prop :=
  ∀ s : State,
    (s.inLen.toNat ≤ s.inCap → EnvelopeOk s.input → ∃ w, exec .load s = .next { s with
      ftV := true, payV := true, treeV := false, ctV := false, ft := tableOverlay s.ft (envTable s.input),
      ftN := BitVec.ofNat 9 (envN s.input), decBits := BitVec.ofNat 32 (envB s.input),
      payBase := BitVec.ofNat 32 (6 + 5 * envN s.input), done := true, seq := none, busycnt := 0, work := w }) ∧
    (¬ (s.inLen.toNat ≤ s.inCap ∧ EnvelopeOk s.input) → ∃ f info, exec .load s = .next { s with
      ftV := false, payV := false, treeV := false, ctV := false, ft := f, ftN := 0#9, decBits := 0#32,
      payBase := 0#32, err := if s.inCap < s.inLen.toNat then .inlen else .envelope, errInfo := info,
      error := true, done := false, outLen := 0#32, seq := none, busycnt := 0 })

/-- The error LOAD reports (44_decode.md section 2): that of the first condition that fails, with its ERRINFO. -/
def Obligations.LoadReportsFirstFault : Prop :=
  ∀ s : State,
    let e := s.input
    let len := s.inLen.toNat
    let bad := fun i => envCnt e i = 0 ∨ (0 < i ∧ envCnt e i < envCnt e (i - 1)) ∨ ∃ j, j < i ∧ envSym e j = envSym e i
    let fails := fun (c : ErrCode) (info : Nat) =>
      ∃ t, exec .load s = .next t ∧ t.error = true ∧ t.err = c ∧ t.errInfo = BitVec.ofNat 32 info
    let tableOk := 2 ≤ len ∧ 1 ≤ envN e ∧ envN e ≤ 256 ∧ 6 + 5 * envN e ≤ len
    (s.inCap < len → fails .inlen len) ∧
    (len ≤ s.inCap →
      (len < 2 → fails .envelope 0) ∧
      (2 ≤ len → (envN e = 0 ∨ 256 < envN e) → fails .envelope 0) ∧
      (2 ≤ len → 1 ≤ envN e → envN e ≤ 256 → len < 6 + 5 * envN e → fails .envelope len) ∧
      (tableOk →
        (∀ i, i < envN e → bad i → (∀ j, j < i → ¬ bad j) → fails .envelope (2 + 5 * i)) ∧
        ((∀ i, i < envN e → ¬ bad i) →
          (len ≠ envSize (envN e) (envB e) → fails .envelope (2 + 5 * envN e)) ∧
          (len = envSize (envN e) (envB e) → envB e % 8 ≠ 0 →
            byteAt e (len - 1) >>> (envB e % 8) ≠ 0#8 → fails .envelope (len - 1)))))

/-! ### WALK -/

/-- WALK as a function (44_decode.md section 3, the spec's derived statement): it decodes by the code of the tree;
complete, or incomplete with L = 1, succeeds where the output fits, and the rest are the three errors, which leave OBUF
havoc in the model's form of log 7. -/
def Obligations.WalkDecodesByCode : Prop :=
  ∀ (s : State) (l : Bool) (ct : Table CtEntry 8), s.Inv → s.treeV = true → s.payV = true →
    buildCodes s.node s.root = .ok ct →
    let r := decodeCode (codeList ct) [] ((List.range s.decBits.toNat).map (payBit s))
    let succeeds := fun (mid : Bool) => ∃ m w, exec (.walk l) s = .next { s with
        obuf := m, outLen := BitVec.ofNat 32 r.1.length, mid := s.mid || mid, done := true, seq := none, busycnt := 0,
        work := w } ∧
      ∀ a, State.obufByte { s with obuf := m } a = (r.1[a]?).getD (s.obufByte a)
    let fails := fun (e : ErrCode) => ∃ info w, exec (.walk l) s = .next { s with
      err := e, errInfo := info, error := true, done := false, outLen := 0#32, obuf := [], obufGen := s.obufGen + 1,
      seq := none, busycnt := 0, work := w } ∧ (e = .midtree → info = s.decBits)
    (r.1.length ≤ s.outCap →
      (r.2 = .complete → succeeds false) ∧ (r.2 = .incomplete → l = true → succeeds true) ∧
      (r.2 = .incomplete → l = false → fails .midtree) ∧ (r.2 = .badPath → fails .badpath)) ∧
    (s.outCap < r.1.length → fails .overflow)

/-- R146: the decoder as a state machine is never stuck, ends in W_DONE or in an error, and computes what R145
computes; at the top of W_BIT its cursor is on an internal node. A failed walk leaves OBUF havoc in the model's form of
log 7. -/
def Obligations.DecoderMachineComputesWalk : Prop :=
  ∀ (s : State) (l : Bool), s.treeV = true → s.payV = true →
    s.payBase.toNat + ceil8 s.decBits.toNat ≤ s.inCap →
    ∃ n, let x := walkFsmRun l { s with outLen := 0#32 } n (walkFsmStart { s with outLen := 0#32 })
      (x.phase = .done ∨ ∃ e info, x.phase = .failed e info) ∧
      (x.phase = .done → ∃ w, exec (.walk l) s = .next { s with
        obuf := x.obuf, outLen := x.outLen, mid := x.mid, done := true, seq := none, busycnt := 0, work := w }) ∧
      (∀ e info, x.phase = .failed e info → ∃ w, exec (.walk l) s = .next { s with
        err := e, errInfo := info, error := true, done := false, outLen := 0#32, obuf := [],
        obufGen := s.obufGen + 1, seq := none, busycnt := 0, work := w }) ∧
      (s.Inv → ∀ k, let y := walkFsmRun l { s with outLen := 0#32 } k (walkFsmStart { s with outLen := 0#32 })
        y.phase = .bit → (tableGet s.node y.cur).leaf = false)

/-- Strict and lenient end of input (44_decode.md section 3): the two modes differ exactly where the bits run out inside
the tree, where strict raises ERR_MIDTREE and lenient succeeds with MID = 1. Elsewhere the two agree in all but the
working state (log 9), and in OBUF where they succeed: after an error its bytes are havoc (log 7) and are not compared. -/
def Obligations.StrictAndLenientWalk : Prop :=
  ∀ s : State, s.Inv → s.treeV = true → s.payV = true → s.mid = false → s.error = false →
    ∃ t u, exec (.walk false) s = .next t ∧ exec (.walk true) s = .next u ∧
      (t.err = .midtree → t.error = true ∧ t.outLen = 0#32 ∧ t.errInfo = s.decBits ∧ u.error = false ∧ u.done = true ∧
        u.mid = true) ∧
      (t.err ≠ .midtree → u = { t with obuf := u.obuf, obufGen := u.obufGen, work := u.work } ∧ t.mid = false ∧
        (t.error = false → SameObuf t u))

/-! ### The composite commands -/

/-- COMPRESS (45_control.md section 2): the envelope of the input's own table and codes where it fits, ERR_OVERFLOW
with the tables valid where it does not, ERR_EMPTY and ERR_INLEN from FREQ, with the working state kept (log 9). After an
error OBUF is havoc (10_state.md section 8, log 19), in the model's form of log 7. -/
def Obligations.CompressWritesEnvelope : Prop :=
  ∀ s : State,
    (s.inLen = 0#32 → exec .compress s = .next { s with
      ftV := false, treeV := false, ctV := false, payV := false, ftN := 0#9,
      err := .empty, errInfo := 0#32, error := true, done := false, outLen := 0#32,
      obuf := [], obufGen := s.obufGen + 1, seq := none, busycnt := 0 }) ∧
    (s.inCap < s.inLen.toNat → exec .compress s = .next { s with
      ftV := false, treeV := false, ctV := false, payV := false, ftN := 0#9,
      err := .inlen, errInfo := s.inLen, error := true, done := false, outLen := 0#32,
      obuf := [], obufGen := s.obufGen + 1, seq := none, busycnt := 0 }) ∧
    (s.inLen ≠ 0#32 → s.inLen.toNat ≤ s.inCap →
      ∃ b ct, buildTree ((stableTable s.input).map FtEntry.sym) = some b ∧
        buildCodes (tableOverlay s.node b.arena) b.root = .ok ct ∧
        let table := stableTable s.input
        let bits := encodeBits ct s.input
        let size := envSize table.length bits.length
        (size ≤ s.outCap → ∃ m w, exec .compress s = .next { s with
            ftV := true, treeV := true, ctV := true, payV := false, ft := tableOverlay s.ft table,
            ftN := BitVec.ofNat 9 table.length, node := tableOverlay s.node b.arena,
            nodeN := BitVec.ofNat 10 b.arena.length, root := b.root, ct := ct, obuf := m,
            encBits := BitVec.ofNat 32 bits.length, outLen := BitVec.ofNat 32 size,
            done := true, seq := none, busycnt := 0, work := w } ∧
          ∀ a, State.obufByte { s with obuf := m } a =
            if a < size then byteAt (envelope table bits) a else s.obufByte a) ∧
        (s.outCap < size → ∃ t, exec .compress s = .next t ∧ t.error = true ∧ t.err = .overflow ∧
          t.outLen = 0#32 ∧ t.done = false ∧ t.obuf = [] ∧ t.obufGen = s.obufGen + 1 ∧
          t.ftV = true ∧ t.treeV = true ∧ t.ctV = true ∧ t.payV = false))

/-- DECOMPRESS (45_control.md section 2): on a well-formed envelope it decodes the payload by the tree of the envelope's
table; else it ends as LOAD does. After every error, one of LOAD included, OBUF is havoc (10_state.md section 8, log 19),
in the model's form of log 7. -/
def Obligations.DecompressDecodesEnvelope : Prop :=
  ∀ (s : State) (l : Bool),
    (s.inLen.toNat ≤ s.inCap → EnvelopeOk s.input →
      ∃ b ct, buildTree ((envTable s.input).map FtEntry.sym) = some b ∧
        buildCodes (tableOverlay s.node b.arena) b.root = .ok ct ∧
        let e := s.input
        let base := 6 + 5 * envN e
        let bits := (List.range (envB e)).map fun k => (byteAt e (base + k / 8)).getLsbD (k % 8)
        let r := decodeCode (codeList ct) [] bits
        let succeeds := fun (mid : Bool) => ∃ m w, exec (.decompress l) s = .next { s with
            ftV := true, payV := true, treeV := true, ctV := false, ft := tableOverlay s.ft (envTable e),
            ftN := BitVec.ofNat 9 (envN e), decBits := BitVec.ofNat 32 (envB e), payBase := BitVec.ofNat 32 base,
            node := tableOverlay s.node b.arena, nodeN := BitVec.ofNat 10 b.arena.length, root := b.root,
            obuf := m, outLen := BitVec.ofNat 32 r.1.length, mid := s.mid || mid,
            done := true, seq := none, busycnt := 0, work := w } ∧
          ∀ a, State.obufByte { s with obuf := m } a = (r.1[a]?).getD (s.obufByte a)
        let fails := fun (c : ErrCode) => ∃ t, exec (.decompress l) s = .next t ∧ t.error = true ∧ t.err = c ∧
          t.outLen = 0#32 ∧ t.done = false ∧ t.obuf = [] ∧ t.obufGen = s.obufGen + 1 ∧
          t.ftV = true ∧ t.treeV = true ∧ t.payV = true ∧ t.ctV = false
        (r.1.length ≤ s.outCap →
          (r.2 = .complete → succeeds false) ∧ (r.2 = .incomplete → l = true → succeeds true) ∧
          (r.2 = .incomplete → l = false → fails .midtree) ∧ (r.2 = .badPath → fails .badpath)) ∧
        (s.outCap < r.1.length → fails .overflow)) ∧
    (¬ (s.inLen.toNat ≤ s.inCap ∧ EnvelopeOk s.input) →
      ∃ t, exec .load s = .next t ∧ exec (.decompress l) s = .next { t with obuf := [], obufGen := s.obufGen + 1 })

/-- The composite commands against the unit commands (45_control.md section 2, the spec's derived statement): from an
idle block without an error the two end in the same state but for LASTOP, the working state (log 9) and the model's count
of draws (log 5), and OBUF too where they succeed; after an error OUT_LEN is 0 and OBUF is not compared (logs 7, 19). -/
def Obligations.CompositeEqualsUnitSequence : Prop :=
  (∀ s : State, s.busy = false → s.error = false → s.inCap ≤ 2 ^ 28 →
    ∃ t u, issue .compress s = .next t ∧ issueAll [.freq, .tree, .codes, .pack] s = .next u ∧
      { t with lastop := u.lastop, work := u.work, draws := u.draws, obuf := u.obuf, obufGen := u.obufGen } = u ∧
      (u.error = false → SameObuf t u) ∧ (u.error = true → u.outLen = 0#32) ∧ t.lastop = 0x20#8 ∧
      (u.error = false → u.lastop = 0x13#8)) ∧
  (∀ (s : State) (l : Bool), s.busy = false → s.error = false → s.inCap ≤ 2 ^ 28 →
    ∃ t u, issue (.decompress l) s = .next t ∧ issueAll [.load, .tree, .walk l] s = .next u ∧
      { t with lastop := u.lastop, work := u.work, draws := u.draws, obuf := u.obuf, obufGen := u.obufGen } = u ∧
      (u.error = false → SameObuf t u) ∧ (u.error = true → u.outLen = 0#32) ∧ t.lastop = 0x21#8 ∧
      (u.error = false → u.lastop = 0x15#8))

/-- The round trip (44_decode.md section 3, the spec's derived statement): what COMPRESS writes for a non-empty input
decompresses, in either mode, to that input with MID = 0, where the capacities allow. -/
def Obligations.RoundTripRestoresInput : Prop :=
  ∀ (s s' t : State) (l : Bool), s.inLen ≠ 0#32 → s.inLen.toNat ≤ s.inCap → s.inCap ≤ 2 ^ 28 → s.outCap ≤ 2 ^ 28 →
    s.error = false → issue .compress s = .next t → t.error = false →
    s'.error = false → s'.inLen = t.outLen → s'.input = t.obufBytes t.outLen.toNat → s'.inLen.toNat ≤ s'.inCap →
    s'.inCap ≤ 2 ^ 28 → s.inLen.toNat ≤ s'.outCap →
    ∃ u, issue (.decompress l) s' = .next u ∧ u.done = true ∧ u.error = false ∧ u.mid = false ∧ u.outLen = s.inLen ∧
      u.obufBytes u.outLen.toNat = s.input

/-! ### The whole machine -/

/-- R62: from acceptance to completion nothing the host can see changes but by its own accesses: no table, buffer,
result register or flag of the command; in a cycle without a transaction nothing but BUSYCNT; DIE and EIE only by a write
to CTRL, DONE only by a write to STATUS, and OVR falls only by one. -/
def Obligations.NothingVisibleBeforeCompletion : Prop :=
  ∀ s : State, s.busy = true → 2 ≤ s.busycnt → (∀ x h, s.script ≠ .rst x :: h) →
    ∃ t, step s = .next t ∧ t.busy = true ∧
      t = { s with
        busycnt := s.busycnt - 1, script := t.script, resp := t.resp, ovr := t.ovr, done := t.done, die := t.die,
        eie := t.eie } ∧ (s.done = false → t.done = false) ∧
      ((∀ x h, s.script ≠ .txn x :: h) → t.ovr = s.ovr ∧ t.done = s.done ∧ t.die = s.die ∧ t.eie = s.eie) ∧
      ((∀ v h, s.script ≠ .txn (.write (regAddr .ctrl) v) :: h) → t.die = s.die ∧ t.eie = s.eie) ∧
      ((∀ v h, s.script ≠ .txn (.write (regAddr .status) v) :: h) →
        t.done = s.done ∧ (s.ovr = true → t.ovr = true))

/-- R216: a transaction in a cycle in which the engine works, the completion cycle among them, sees the state before the
engine's step, locks in force, and the engine's step follows; a W1C of DONE in that cycle leaves DONE = 1 after a success. -/
def Obligations.TransactionBeforeCompletion : Prop :=
  (∀ (s : State) (x : Txn) (h : List HostAct), s.busy = true → s.script = .txn x :: h →
    ∃ s1, portTxn x { s with script := h } = .next s1 ∧ s1.busy = true ∧ s1.busycnt = s.busycnt ∧ s1.seq = s.seq ∧
      step s = engineTick s1) ∧
  (∀ (s t : State) (w v : Word) (i : Instr) (h : List HostAct), s.seq = some w → decode w = .ok i → i ≠ .nop →
    i ≠ .clear → s.busycnt = 1 → s.script = .txn (.write (regAddr .status) v) :: h → step s = .next t →
    t.error = false → t.done = true)

/-- The interrupt output after a completion and after CLEAR (60_exceptions.md section 5): with the enables, DONE drives
it after a success and ERROR after an error entry; CLEAR drops it; DONE and ERROR never stand together. -/
def Obligations.InterruptFollowsCompletion : Prop :=
  (∀ (i : Instr) (s t : State), s.Inv → s.error = false → i ≠ .nop → i ≠ .clear → exec i s = .next t →
    t.irq = if t.error then s.eie else s.die) ∧
  (∀ s t : State, s.busy = false → exec .clear s = .next t → t.irq = false) ∧
  (∀ s : State, s.Inv → ¬ (s.done = true ∧ s.error = true))

/-- The script lines of R95 fill the input buffer: `wr IPTR, 0`, `put bs`, `wr IN_LEN, |bs|` (R206 steps 2 to 4). -/
def Obligations.ScriptFillsInputBuffer : Prop :=
  ∀ (s : State) (bs : List Byte), s.busy = false → bs.length ≤ s.inCap → s.inCap ≤ 2 ^ 28 →
    s.script = scriptOf [.wr .iptr 0#32, .put bs, .wr .inLen (BitVec.ofNat 32 bs.length)] →
    ∃ t, Sys2Proof.core.run (bs.length + 2) s = .next t ∧ t.input = bs ∧ t.inLen.toNat = bs.length ∧
      t.iptr = BitVec.ofNat 32 bs.length ∧ t.busy = false ∧ t.script = [] ∧ ResultsSame s t ∧ SameObuf s t

/-- The state after reset meets the invariant. -/
def Obligations.ResetMeetsInvariant : Prop := State.reset.Inv

/-- Every step keeps the invariant of the valid flags and of STATUS (10_state.md section 3, the spec's derived
statement), from every state that meets it. -/
def Obligations.StepKeepsInvariant : Prop := ∀ s t : State, s.Inv → step s = .next t → t.Inv

/-- No state of the invariant is stuck: every cycle, whatever the host does, has a next state
(70_reset_and_hazards.md section 5). -/
def Obligations.NoStateIsStuck : Prop := ∀ s : State, s.Inv → ∃ t, step s = .next t

/-- Every accepted command completes after BUSYCNT cycles, unless the host resets the block, and then exactly one of
DONE and ERROR holds (70_reset_and_hazards.md sections 4 and 5). -/
def Obligations.AcceptedCommandCompletes : Prop :=
  ∀ s : State, s.Inv → s.busy = true → (∀ a, a ∈ s.script → ∀ x, a ≠ .rst x) →
    ∃ t, Sys2Proof.core.run s.busycnt s = .next t ∧ t.busy = false ∧ t.done = !t.error
end

