-- ==== Sys2Proof/Laws/Table.lean ====
section
/-! SUPPORT. The laws of the table operations: a read after a write, a read of an overlaid table, its first entries. -/

namespace Sys2Proof.Machine

variable {α : Type} {w : Nat}

@[simp] theorem tableGet_put_same (t : Table α w) (i : BitVec w) (v : α) : tableGet (tablePut t i v) i = v := by
  simp [tableGet, tablePut]

theorem tableGet_put_ne (t : Table α w) (i j : BitVec w) (v : α) (h : i ≠ j) :
    tableGet (tablePut t i v) j = tableGet t j := by
  have hne : i.toNat ≠ j.toNat := fun e => h (BitVec.eq_of_toNat_eq e)
  simp [tableGet, tablePut, hne]

theorem tableGet_put (t : Table α w) (i j : BitVec w) (v : α) :
    tableGet (tablePut t i v) j = if i = j then v else tableGet t j := by
  by_cases h : i = j
  · subst h; simp
  · simp [h, tableGet_put_ne t i j v h]

@[simp] theorem tableGet_replicate (v : α) (i : BitVec w) :
    tableGet (Vector.replicate (2 ^ w) v : Table α w) i = v := by
  simp [tableGet]

/-- A table read through its list. -/
theorem tableGet_eq_toList (t : Table α w) (i : BitVec w) : t.toList[i.toNat]? = some (tableGet t i) := by
  have h : i.toNat < t.toList.length := by simpa using i.isLt
  rw [List.getElem?_eq_getElem h]
  simp [tableGet]

theorem tableOverlay_toList (t : Table α w) (l : List α) :
    (tableOverlay t l).toList = (l ++ t.toList.drop l.length).take (2 ^ w) := by
  simp [tableOverlay, Vector.toList]

/-- The overlaid entries. -/
theorem tableGet_overlay_lt (t : Table α w) (l : List α) (i : BitVec w) (h : i.toNat < l.length) :
    tableGet (tableOverlay t l) i = l[i.toNat] := by
  have key := tableGet_eq_toList (tableOverlay t l) i
  rw [tableOverlay_toList, List.getElem?_take, if_pos i.isLt, List.getElem?_append_left h,
    List.getElem?_eq_getElem h] at key
  exact (Option.some.inj key).symm

/-- The entries at and above the overlaid ones keep their bits. -/
theorem tableGet_overlay_ge (t : Table α w) (l : List α) (i : BitVec w) (h : l.length ≤ i.toNat) :
    tableGet (tableOverlay t l) i = tableGet t i := by
  have key := tableGet_eq_toList (tableOverlay t l) i
  rw [tableOverlay_toList, List.getElem?_take, if_pos i.isLt, List.getElem?_append_right h, List.getElem?_drop,
    Nat.add_sub_cancel' h, tableGet_eq_toList] at key
  exact (Option.some.inj key).symm

/-- The first entries of an overlaid table are the overlay. -/
theorem tableTake_overlay (t : Table α w) (l : List α) (h : l.length ≤ 2 ^ w) :
    tableTake (tableOverlay t l) l.length = l := by
  rw [tableTake, tableOverlay_toList, List.take_take, Nat.min_eq_left h, List.take_left]

theorem tableTake_length (t : Table α w) (n : Nat) (h : n ≤ 2 ^ w) : (tableTake t n).length = n := by
  simp [tableTake, h]

theorem tableTake_getElem? (t : Table α w) (n : Nat) (i : BitVec w) (h : i.toNat < n) :
    (tableTake t n)[i.toNat]? = some (tableGet t i) := by
  rw [tableTake, List.getElem?_take, if_pos h, tableGet_eq_toList]

end Sys2Proof.Machine
end

