-- ==== Sys2Proof/Laws/Tree.lean ====
section
/-! SUPPORT. The tree of R111 as a shape: which leaves it has, in which order, how high it is, and where it stands in
the arena. -/

namespace Sys2Proof.Machine

/-- A binary tree with the arena index of each node; `wrap` is the synthetic root of a one-symbol table. -/
inductive Shape where
  | leaf (i : NodeIdx) (b : Byte)
  | node (i : NodeIdx) (l r : Shape)
  | wrap (i : NodeIdx) (l : Shape)

/-- The arena index of the root. -/
def Shape.root : Shape → NodeIdx
  | .leaf i _ => i
  | .node i _ _ => i
  | .wrap i _ => i

@[simp] theorem Shape.root_leaf (i : NodeIdx) (b : Byte) : (Shape.leaf i b).root = i := rfl
@[simp] theorem Shape.root_node (i : NodeIdx) (l r : Shape) : (Shape.node i l r).root = i := rfl
@[simp] theorem Shape.root_wrap (i : NodeIdx) (l : Shape) : (Shape.wrap i l).root = i := rfl

/-- The symbols of the leaves, left to right. -/
def Shape.syms : Shape → List Byte
  | .leaf _ b => [b]
  | .node _ l r => l.syms ++ r.syms
  | .wrap _ l => l.syms

/-- The length of the longest path to a leaf. -/
def Shape.height : Shape → Nat
  | .leaf _ _ => 0
  | .node _ l r => max l.height r.height + 1
  | .wrap _ l => l.height + 1

/-- The root is a leaf. -/
def Shape.isLeaf : Shape → Bool
  | .leaf _ _ => true
  | .node _ _ _ => false
  | .wrap _ _ => false

/-- The shape stands in the arena. -/
def Shape.InArena (arena : List NodeEntry) : Shape → Prop
  | .leaf i b => arena[i.toNat]? = some (leafNode b)
  | .node i l r => arena[i.toNat]? = some (innerNode l.root r.root) ∧ l.root ≠ nilIdx ∧ r.root ≠ nilIdx ∧
      l.InArena arena ∧ r.InArena arena
  | .wrap i l => arena[i.toNat]? = some (innerNode l.root nilIdx) ∧ l.root ≠ nilIdx ∧ l.InArena arena

/-- The shape stands in the NODE memory. -/
def Shape.InNodes (node : Table NodeEntry 9) : Shape → Prop
  | .leaf i b => tableGet node i = leafNode b
  | .node i l r => tableGet node i = innerNode l.root r.root ∧ l.root ≠ nilIdx ∧ r.root ≠ nilIdx ∧
      l.InNodes node ∧ r.InNodes node
  | .wrap i l => tableGet node i = innerNode l.root nilIdx ∧ l.root ≠ nilIdx ∧ l.InNodes node

theorem Shape.InArena.append {arena : List NodeEntry} {t : Shape} (h : t.InArena arena) (more : List NodeEntry) :
    t.InArena (arena ++ more) := by
  have key : ∀ (i : Nat) (e : NodeEntry), arena[i]? = some e → (arena ++ more)[i]? = some e := by
    intro i e he
    obtain ⟨hi, _⟩ := List.getElem?_eq_some_iff.mp he
    rw [List.getElem?_append_left hi, he]
  induction t with
  | leaf i b => exact key _ _ h
  | node i l r hl hr => exact ⟨key _ _ h.1, h.2.1, h.2.2.1, hl h.2.2.2.1, hr h.2.2.2.2⟩
  | wrap i l hl => exact ⟨key _ _ h.1, h.2.1, hl h.2.2⟩

/-- An arena that is the first part of the NODE memory. -/
theorem Shape.InArena.inNodes {arena : List NodeEntry} {t : Shape} (h : t.InArena arena) {node : Table NodeEntry 9}
    (hn : tableTake node arena.length = arena) : t.InNodes node := by
  have key : ∀ (i : NodeIdx) (e : NodeEntry), arena[i.toNat]? = some e → tableGet node i = e := by
    intro i e he
    have h1 : (tableTake node arena.length)[i.toNat]? = some e := by rw [hn]; exact he
    obtain ⟨hi, _⟩ := List.getElem?_eq_some_iff.mp he
    rw [tableTake, List.getElem?_take, if_pos hi, tableGet_eq_toList] at h1
    exact Option.some.inj h1
  induction t with
  | leaf i b => exact key _ _ h
  | node i l r hl hr => exact ⟨key _ _ h.1, h.2.1, h.2.2.1, hl h.2.2.2.1, hr h.2.2.2.2⟩
  | wrap i l hl => exact ⟨key _ _ h.1, h.2.1, hl h.2.2⟩

theorem nextIdx_toNat (arena : List NodeEntry) (h : arena.length < 512) : (nextIdx arena).toNat = arena.length := by
  simp [nextIdx, Nat.mod_eq_of_lt h]

theorem nextIdx_ne_nil (arena : List NodeEntry) (h : arena.length < 511) : nextIdx arena ≠ nilIdx := by
  intro e
  have := congrArg BitVec.toNat e
  rw [nextIdx_toNat arena (by omega)] at this
  simp [nilIdx] at this
  omega

/-- One pass (R111): pairs become nodes over them, an odd last tree is carried, the leaves keep their order, the heights
grow by at most one, and what joins the arena leaves the queue. -/
theorem mergePass_shapes (ts : List Shape) (arena : List NodeEntry) (h : Nat) (hr : ∀ t ∈ ts, t.InArena arena)
    (hn : ∀ t ∈ ts, t.root ≠ nilIdx) (hh : ∀ t ∈ ts, t.height ≤ h) (hl : arena.length + ts.length ≤ 512) :
    ∃ (us : List Shape) (more : List NodeEntry), mergePass (ts.map Shape.root) arena = (us.map Shape.root, arena ++ more) ∧
      (∀ t ∈ us, t.InArena (arena ++ more)) ∧ (∀ t ∈ us, t.root ≠ nilIdx) ∧ (∀ t ∈ us, t.height ≤ h + 1) ∧
      us.flatMap Shape.syms = ts.flatMap Shape.syms ∧ us.length = (ts.length + 1) / 2 ∧
      more.length + us.length = ts.length := by
  induction ts using List.twoStepInduction generalizing arena with
  | nil => exact ⟨[], [], by simp [mergePass], by simp, by simp, by simp, rfl, rfl, rfl⟩
  | singleton t =>
    exact ⟨[t], [], by simp [mergePass], by simpa using hr, by simpa using hn,
      by have := hh t (by simp); simpa using Nat.le_succ_of_le this, rfl, by simp, by simp⟩
  | cons_cons a b ts ih _ =>
    simp only [List.length_cons] at hl
    have hlen : arena.length < 511 := by omega
    obtain ⟨us, more, e1, e2, e3, e4, e5, e6, e7⟩ := ih (arena ++ [innerNode a.root b.root])
      (fun t ht => (hr t (by simp [ht])).append _) (fun t ht => hn t (by simp [ht]))
      (fun t ht => hh t (by simp [ht])) (by simp; omega)
    have hnew : (Shape.node (nextIdx arena) a b).InArena (arena ++ [innerNode a.root b.root]) := by
      refine ⟨?_, hn a (by simp), hn b (by simp), (hr a (by simp)).append _, (hr b (by simp)).append _⟩
      rw [nextIdx_toNat arena (by omega)]
      simp
    refine ⟨.node (nextIdx arena) a b :: us, innerNode a.root b.root :: more, ?_, ?_, ?_, ?_, ?_, ?_, ?_⟩
    · simp only [List.map_cons, mergePass, e1, Shape.root_node]
      simp
    · intro t ht
      rcases List.mem_cons.mp ht with rfl | ht
      · have := hnew.append more; simpa using this
      · have := e2 t ht; simpa using this
    · intro t ht
      rcases List.mem_cons.mp ht with rfl | ht
      · exact nextIdx_ne_nil arena hlen
      · exact e3 t ht
    · intro t ht
      rcases List.mem_cons.mp ht with rfl | ht
      · have h1 := hh a (by simp); have h2 := hh b (by simp)
        simp only [Shape.height]; omega
      · exact e4 t ht
    · simp [Shape.syms, e5]
    · simp only [List.length_cons, e6]; omega
    · simp only [List.length_cons]; omega

/-- All passes of R111: one tree is left, over the same leaves in the same order, and no higher than the number of
passes adds. -/
theorem mergePasses_shapes (fuel : Nat) (ts : List Shape) (arena : List NodeEntry) (h : Nat)
    (hr : ∀ t ∈ ts, t.InArena arena) (hn : ∀ t ∈ ts, t.root ≠ nilIdx) (hh : ∀ t ∈ ts, t.height ≤ h)
    (hl : arena.length + ts.length ≤ 512) (hf : ts.length ≤ fuel) (hp : 1 ≤ ts.length) :
    ∃ (t : Shape) (more : List NodeEntry), mergePasses fuel (ts.map Shape.root) arena = ([t.root], arena ++ more) ∧ t.InArena (arena ++ more) ∧
      t.root ≠ nilIdx ∧ t.height ≤ h + Nat.clog 2 ts.length ∧ t.syms = ts.flatMap Shape.syms ∧
      more.length + 1 = ts.length ∧ (ts.length = 1 → ts = [t]) ∧ (2 ≤ ts.length → t.isLeaf = false) ∧
      (2 ≤ ts.length → t.root.toNat + 1 = (arena ++ more).length) := by
  induction fuel generalizing ts arena h with
  | zero => omega
  | succ fuel ih =>
    by_cases h1 : ts.length = 1
    · obtain ⟨t, rfl⟩ := List.length_eq_one_iff.mp h1
      refine ⟨t, [], ?_, by simpa using hr, by simpa using hn, ?_, by simp, rfl, fun _ => rfl, by simp, by simp⟩
      · simp [mergePasses]
      · have := hh t (by simp); omega
    · obtain ⟨us, more, e1, e2, e3, e4, e5, e6, e7⟩ := mergePass_shapes ts arena h hr hn hh hl
      obtain ⟨t, more2, f1, f2, f3, f4, f5, f6, f7, f8, f9⟩ := ih us (arena ++ more) (h + 1) e2 e3 e4
        (by simp; omega) (by omega) (by omega)
      have hc : Nat.clog 2 ts.length = Nat.clog 2 us.length + 1 := by
        have : ts.length + 2 - 1 = ts.length + 1 := by omega
        rw [Nat.clog_of_two_le (by omega) (by omega), e6, this]
      refine ⟨t, more ++ more2, ?_, ?_, f3, by omega, by rw [f5, e5], by simp; omega, by omega, ?_, ?_⟩
      · rw [mergePasses, List.length_map, if_pos (by omega)]
        simp only [e1, f1]
        simp
      · simpa using f2
      · intro h2
        by_cases h3 : us.length = 1
        · have hts : ts.length = 2 := by omega
          match ts, hts with
          | [a, b], _ =>
            have := f7 h3
            subst this
            simp only [List.map_cons, List.map_nil, mergePass, List.cons.injEq, Prod.mk.injEq] at e1
            have hx : t.InArena (arena ++ more) := e2 t (by simp)
            have hy : more = [innerNode a.root b.root] := by
              have := e1.2; exact (List.append_cancel_left this).symm
            have hz : t.root = nextIdx arena := e1.1.1.symm
            cases t with
            | leaf i c =>
              simp only [Shape.root_leaf] at hz
              subst hz
              simp only [Shape.InArena, hy, nextIdx_toNat arena (by simp at hl; omega)] at hx
              simp [leafNode, innerNode] at hx
            | node i l r => rfl
            | wrap i l => rfl
        · exact f8 (by omega)
      · intro h2
        by_cases h3 : us.length = 1
        · have hts : ts.length = 2 := by omega
          match ts, hts with
          | [a, b], _ =>
            have := f7 h3
            subst this
            simp only [List.map_cons, List.map_nil, mergePass, List.cons.injEq, Prod.mk.injEq] at e1
            have hy : more = [innerNode a.root b.root] := by
              have := e1.2; exact (List.append_cancel_left this).symm
            have hz : t.root = nextIdx arena := e1.1.1.symm
            have hm2 : more2 = [] := by simpa using f6
            rw [hz, hy, hm2, nextIdx_toNat arena (by simp at hl; omega)]
            simp
        · have := f9 (by omega)
          rw [this]; simp

/-- The leaves of phase M_SEED. -/
def seeds (syms : List Byte) : List Shape := syms.zipIdx.map fun p => .leaf (BitVec.ofNat 9 p.2) p.1

theorem seeds_root (syms : List Byte) :
    (seeds syms).map Shape.root = (List.range syms.length).map (BitVec.ofNat 9) := by
  apply List.ext_getElem
  · simp [seeds]
  · intro i h1 h2
    simp [seeds]

theorem seeds_syms (syms : List Byte) : (seeds syms).flatMap Shape.syms = syms := by
  rw [seeds, List.flatMap_map]
  have : ∀ (l : List Byte) (k : Nat), (l.zipIdx k).flatMap (fun p => (Shape.leaf (BitVec.ofNat 9 p.2) p.1).syms) = l := by
    intro l
    induction l with
    | nil => intro k; rfl
    | cons a l ih => intro k; simp [List.zipIdx_cons, Shape.syms] at ih ⊢; exact ih (k + 1)
  exact this syms 0

theorem seeds_length (syms : List Byte) : (seeds syms).length = syms.length := by simp [seeds]

/-- The leaves stand in the arena after phase M_SEED. -/
theorem seeds_inArena (syms : List Byte) (h : syms.length ≤ 256) :
    ∀ t ∈ seeds syms, t.InArena (syms.map leafNode) ∧ t.root ≠ nilIdx ∧ t.height ≤ 0 := by
  intro t ht
  simp only [seeds, List.mem_map] at ht
  obtain ⟨⟨b, i⟩, hp, rfl⟩ := ht
  obtain ⟨hlt, hb⟩ := List.getElem?_eq_some_iff.mp (List.mk_mem_zipIdx_iff_getElem?.mp hp)
  have hm : i % 512 = i := Nat.mod_eq_of_lt (by omega)
  refine ⟨by simp [Shape.InArena, hm, hlt, hb], ?_, Nat.le_refl 0⟩
  intro e
  have := congrArg BitVec.toNat e
  simp [nilIdx, hm] at this
  omega

/-- With two symbols or more the passes of R111 end in one node, which is no leaf, and phase M_WRAP does nothing. -/
theorem buildTree_passes (syms : List Byte) (h1 : 2 ≤ syms.length) (h2 : syms.length ≤ 256) :
    ∃ (t : Shape) (more : List NodeEntry),
      mergePasses syms.length ((List.range syms.length).map (BitVec.ofNat 9)) (syms.map leafNode) =
        ([t.root], syms.map leafNode ++ more) ∧
      buildTree syms = some ⟨syms.map leafNode ++ more, t.root⟩ ∧ t.InArena (syms.map leafNode ++ more) ∧
      t.isLeaf = false ∧ t.root ≠ nilIdx ∧ t.syms = syms ∧ t.height ≤ Nat.clog 2 syms.length ∧
      t.root.toNat + 1 = (syms.map leafNode ++ more).length ∧ more.length + 1 = syms.length := by
  have hlen := seeds_length syms
  have hin := seeds_inArena syms h2
  obtain ⟨t, more, e1, e2, e3, e4, e5, e6, _, e8, e9⟩ := mergePasses_shapes syms.length (seeds syms) (syms.map leafNode) 0
    (fun t ht => (hin t ht).1) (fun t ht => (hin t ht).2.1) (fun t ht => (hin t ht).2.2) (by simp [hlen]; omega)
    (by omega) (by omega)
  rw [seeds_root] at e1
  rw [hlen] at e4 e6 e8 e9
  rw [seeds_syms] at e5
  have hnl : t.isLeaf = false := e8 (by omega)
  have hw : wrapRoot (syms.map leafNode ++ more) t.root = ⟨syms.map leafNode ++ more, t.root⟩ := by
    rw [wrapRoot, if_neg]
    cases t with
    | leaf i c => cases hnl
    | node i l r => simp only [Shape.root_node]; rw [e2.1]; simp [innerNode]
    | wrap i l => simp only [Shape.root_wrap]; rw [e2.1]; simp [innerNode]
  exact ⟨t, more, e1, by rw [buildTree, e1]; simp only [hw], e2, hnl, e3, e5, by omega, e9 (by omega), e6⟩

/-- The tree of one symbol (R111 phase M_WRAP). -/
theorem buildTree_one (c : Byte) : buildTree [c] = some ⟨[leafNode c, innerNode 0#9 nilIdx], 1#9⟩ := by
  simp [buildTree, mergePasses, wrapRoot, leafNode, innerNode, nextIdx]

/-- The tree of R111: it exists for every sequence of 1 to 256 symbols; its leaves are the symbols in table order; it is
no leaf; its height is at most max(1, ceil(log2 N)) (R115); the root is the last node (R114). -/
theorem buildTree_shape (syms : List Byte) (h1 : 1 ≤ syms.length) (h2 : syms.length ≤ 256) :
    ∃ (b : Built) (t : Shape), buildTree syms = some b ∧ t.InArena b.arena ∧ t.root = b.root ∧ t.isLeaf = false ∧
      t.root ≠ nilIdx ∧ t.syms = syms ∧ t.height ≤ max 1 (Nat.clog 2 syms.length) ∧
      b.root.toNat + 1 = b.arena.length ∧ b.arena.length = (if syms.length = 1 then 2 else 2 * syms.length - 1) ∧
      (syms.map leafNode) <+: b.arena ∧
      (syms.length = 1 → t = .wrap 1#9 (.leaf 0#9 (syms[0]'(by omega)))) := by
  by_cases hs : syms.length = 1
  · obtain ⟨c, rfl⟩ := List.length_eq_one_iff.mp hs
    refine ⟨_, .wrap 1#9 (.leaf 0#9 c), buildTree_one c, ?_, rfl, rfl, by simp [nilIdx], rfl, ?_, rfl, rfl, ?_,
      fun _ => rfl⟩
    · simp [Shape.InArena, nilIdx]
    · simp [Shape.height]
    · simp
  · obtain ⟨t, more, _, hb, e2, hnl, e3, e5, e4, e9, e6⟩ := buildTree_passes syms (by omega) h2
    refine ⟨_, t, hb, e2, rfl, hnl, e3, e5, by omega, e9, ?_, List.prefix_append _ _, fun h => absurd h hs⟩
    simp [hs]; omega

end Sys2Proof.Machine
end

