-- ==== Sys2Proof/Laws/Arena.lean ====
section
/-! SUPPORT. The arena of R111 as a forest: internal nodes over smaller indices, and one parent for every node but the
queued ones (R114). -/

namespace Sys2Proof.Machine

/-- Entry `k` is an internal node with the child `j`. -/
def IsParent (arena : List NodeEntry) (k : Nat) (j : NodeIdx) : Prop :=
  ∃ e, arena[k]? = some e ∧ e.leaf = false ∧ (e.left = j ∨ e.right = j)

/-- The arena over `n` leaves with the queued nodes `roots`. -/
structure Forest (n : Nat) (arena : List NodeEntry) (roots : List NodeIdx) : Prop where
  inRange : ∀ j ∈ roots, j.toNat < arena.length
  nodup : roots.Nodup
  leaves : ∀ (k : Nat) (e : NodeEntry), k < n → arena[k]? = some e → e.leaf = true
  inner : ∀ (k : Nat) (e : NodeEntry), n ≤ k → arena[k]? = some e →
    ∃ a b, e = innerNode a b ∧ a.toNat < k ∧ b.toNat < k ∧ a ≠ b
  free : ∀ j ∈ roots, ∀ k, ¬ IsParent arena k j
  covered : ∀ j : NodeIdx, j.toNat < arena.length → j ∈ roots ∨ ∃ k, IsParent arena k j
  unique : ∀ j k k', IsParent arena k j → IsParent arena k' j → k = k'

/-- A child stands below its parent. -/
theorem Forest.child_lt {n : Nat} {arena : List NodeEntry} {roots : List NodeIdx} (f : Forest n arena roots) {k : Nat}
    {j : NodeIdx} (h : IsParent arena k j) : j.toNat < k ∧ k < arena.length := by
  obtain ⟨e, he, hl, hc⟩ := h
  obtain ⟨hk, _⟩ := List.getElem?_eq_some_iff.mp he
  refine ⟨?_, hk⟩
  by_cases hn : k < n
  · have := f.leaves k e hn he; rw [hl] at this; cases this
  · obtain ⟨a, b, rfl, ha, hb, _⟩ := f.inner k e (by omega) he
    rcases hc with rfl | rfl
    · exact ha
    · exact hb

/-- The parents after one more internal node. -/
theorem isParent_append (arena : List NodeEntry) (a b : NodeIdx) (k : Nat) (j : NodeIdx) :
    IsParent (arena ++ [innerNode a b]) k j ↔ IsParent arena k j ∨ (k = arena.length ∧ (a = j ∨ b = j)) := by
  constructor
  · rintro ⟨e, he, hl, hc⟩
    by_cases hk : k < arena.length
    · rw [List.getElem?_append_left hk] at he
      exact .inl ⟨e, he, hl, hc⟩
    · obtain ⟨hk2, _⟩ := List.getElem?_eq_some_iff.mp he
      simp at hk2
      have : k = arena.length := by omega
      subst this
      simp at he
      subst he
      exact .inr ⟨rfl, hc⟩
  · rintro (⟨e, he, hl, hc⟩ | ⟨rfl, hc⟩)
    · obtain ⟨hk, _⟩ := List.getElem?_eq_some_iff.mp he
      exact ⟨e, by rw [List.getElem?_append_left hk, he], hl, hc⟩
    · exact ⟨innerNode a b, by simp, rfl, hc⟩

/-- Two queued nodes become the children of the next one (phase M_PAIR). -/
theorem Forest.pair {n : Nat} {arena : List NodeEntry} {out qa : List NodeIdx} {a b : NodeIdx}
    (f : Forest n arena (out ++ a :: b :: qa)) (hl : arena.length < 512) (hn : n ≤ arena.length) :
    Forest n (arena ++ [innerNode a b]) (out ++ nextIdx arena :: qa) := by
  have hnew := nextIdx_toNat arena hl
  have hnd := f.nodup
  rw [List.nodup_append] at hnd
  obtain ⟨ho, hq, hoq⟩ := hnd
  simp only [List.nodup_cons, List.mem_cons, not_or] at hq
  have hmem : ∀ j, j ∈ out ++ qa → j ∈ out ++ a :: b :: qa := by
    intro j hj
    simp only [List.mem_append, List.mem_cons] at hj ⊢
    tauto
  have hlt : ∀ j, j ∈ out ++ qa → j ≠ nextIdx arena := by
    intro j hj e
    have := f.inRange j (hmem j hj)
    rw [e, hnew] at this
    omega
  have hab : ∀ j, j ∈ out ++ qa → j ≠ a ∧ j ≠ b := by
    intro j hj
    simp only [List.mem_append] at hj
    rcases hj with hj | hj
    · exact ⟨hoq j hj a (by simp), hoq j hj b (by simp)⟩
    · exact ⟨fun e => hq.1.2 (e ▸ hj), fun e => hq.2.1 (e ▸ hj)⟩
  have hmem2 : ∀ j, j ∈ out ++ nextIdx arena :: qa ↔ j ∈ out ++ qa ∨ j = nextIdx arena := by
    intro j; simp only [List.mem_append, List.mem_cons]; tauto
  refine ⟨?_, ?_, ?_, ?_, ?_, ?_, ?_⟩
  · intro j hj
    simp only [List.length_append, List.length_singleton]
    rcases (hmem2 j).mp hj with hj | rfl
    · have := f.inRange j (hmem j hj); omega
    · omega
  · rw [List.nodup_append]
    refine ⟨ho, ?_, ?_⟩
    · refine List.nodup_cons.mpr ⟨fun h => hlt _ (List.mem_append_right _ h) rfl, hq.2.2⟩
    · intro x hx y hy
      rcases List.mem_cons.mp hy with rfl | hy
      · exact hlt x (List.mem_append_left _ hx)
      · exact hoq x hx y (by simp [hy])
  · intro k e hk he
    rw [List.getElem?_append_left (by omega)] at he
    exact f.leaves k e hk he
  · intro k e hk he
    by_cases hk2 : k < arena.length
    · rw [List.getElem?_append_left hk2] at he
      exact f.inner k e hk he
    · obtain ⟨hk3, _⟩ := List.getElem?_eq_some_iff.mp he
      simp at hk3
      have : k = arena.length := by omega
      subst this
      simp at he
      subst he
      exact ⟨a, b, rfl, f.inRange a (by simp), f.inRange b (by simp), hq.1.1⟩
  · intro j hj k hp
    rw [isParent_append] at hp
    rcases (hmem2 j).mp hj with hj | rfl
    · rcases hp with hp | ⟨_, rfl | rfl⟩
      · exact f.free j (hmem j hj) k hp
      · exact (hab _ hj).1 rfl
      · exact (hab _ hj).2 rfl
    · rcases hp with hp | ⟨_, h⟩
      · have := f.child_lt hp; rw [hnew] at this; omega
      · rcases h with h | h
        · have := f.inRange a (by simp); rw [h, hnew] at this; omega
        · have := f.inRange b (by simp); rw [h, hnew] at this; omega
  · intro j hj
    simp only [List.length_append, List.length_singleton] at hj
    by_cases hj2 : j.toNat < arena.length
    · rcases f.covered j hj2 with h | ⟨k, h⟩
      · simp only [List.mem_append, List.mem_cons] at h
        rcases h with h | rfl | rfl | h
        · exact .inl ((hmem2 j).mpr (.inl (by simp [h])))
        · exact .inr ⟨arena.length, (isParent_append ..).mpr (.inr ⟨rfl, .inl rfl⟩)⟩
        · exact .inr ⟨arena.length, (isParent_append ..).mpr (.inr ⟨rfl, .inr rfl⟩)⟩
        · exact .inl ((hmem2 j).mpr (.inl (by simp [h])))
      · exact .inr ⟨k, (isParent_append ..).mpr (.inl h)⟩
    · have : j = nextIdx arena := BitVec.eq_of_toNat_eq (by omega)
      exact .inl ((hmem2 j).mpr (.inr this))
  · intro j k k' h h'
    rw [isParent_append] at h h'
    have hfree : ∀ m, IsParent arena m j → ¬ (a = j ∨ b = j) := by
      rintro m hm (rfl | rfl)
      · exact f.free _ (by simp) m hm
      · exact f.free _ (by simp) m hm
    rcases h with h | ⟨rfl, h⟩ <;> rcases h' with h' | ⟨rfl, h'⟩
    · exact f.unique j k k' h h'
    · exact absurd h' (hfree k h)
    · exact absurd h (hfree k' h')
    · rfl

/-- A pass keeps the forest. -/
theorem mergePass_forest (n : Nat) (qa out : List NodeIdx) (arena : List NodeEntry) (f : Forest n arena (out ++ qa))
    (hn : n ≤ arena.length) (hl : arena.length + qa.length ≤ 512) :
    Forest n (mergePass qa arena).2 (out ++ (mergePass qa arena).1) ∧ n ≤ (mergePass qa arena).2.length ∧
      (mergePass qa arena).2.length + (mergePass qa arena).1.length = arena.length + qa.length := by
  induction qa using List.twoStepInduction generalizing out arena with
  | nil => exact ⟨f, hn, rfl⟩
  | singleton c => exact ⟨f, hn, rfl⟩
  | cons_cons a b qa ih _ =>
    simp only [List.length_cons] at hl
    have h := ih (out ++ [nextIdx arena]) (arena ++ [innerNode a b])
      (by simpa using f.pair (by omega) hn) (by simp; omega) (by simp; omega)
    simp only [mergePass]
    refine ⟨by simpa using h.1, h.2.1, ?_⟩
    have := h.2.2
    simp at this ⊢
    omega

/-- All passes keep the forest. -/
theorem mergePasses_forest (n fuel : Nat) (qa : List NodeIdx) (arena : List NodeEntry) (f : Forest n arena qa)
    (hn : n ≤ arena.length) (hl : arena.length + qa.length ≤ 512) :
    Forest n (mergePasses fuel qa arena).2 (mergePasses fuel qa arena).1 ∧ n ≤ (mergePasses fuel qa arena).2.length := by
  induction fuel generalizing qa arena with
  | zero => exact ⟨f, hn⟩
  | succ fuel ih =>
    rw [mergePasses]
    split
    · obtain ⟨h1, h2, h3⟩ := mergePass_forest n qa [] arena f hn hl
      exact ih _ _ (by simpa using h1) h2 (by omega)
    · exact ⟨f, hn⟩

/-- The leaves of phase M_SEED are a forest. -/
theorem seeds_forest (syms : List Byte) (h : syms.length ≤ 256) :
    Forest syms.length (syms.map leafNode) ((List.range syms.length).map (BitVec.ofNat 9)) := by
  have noParent : ∀ k j, ¬ IsParent (syms.map leafNode) k j := by
    rintro k j ⟨e, he, hl, _⟩
    simp only [List.getElem?_map, Option.map_eq_some_iff] at he
    obtain ⟨b, _, rfl⟩ := he
    cases hl
  refine ⟨?_, ?_, ?_, ?_, fun j _ k => noParent k j, ?_, fun j k k' hk => absurd hk (noParent k j)⟩
  · intro j hj
    simp only [List.mem_map, List.mem_range] at hj
    obtain ⟨i, hi, rfl⟩ := hj
    simp [Nat.mod_eq_of_lt (by omega : i < 512), hi]
  · refine List.Nodup.map_on ?_ List.nodup_range
    intro x hx y hy e
    simp only [List.mem_range] at hx hy
    have := congrArg BitVec.toNat e
    simpa [Nat.mod_eq_of_lt (by omega : x < 512), Nat.mod_eq_of_lt (by omega : y < 512)] using this
  · intro k e _ he
    simp only [List.getElem?_map, Option.map_eq_some_iff] at he
    obtain ⟨b, _, rfl⟩ := he
    rfl
  · intro k e hk he
    obtain ⟨hk2, _⟩ := List.getElem?_eq_some_iff.mp he
    simp at hk2
    omega
  · intro j hj
    simp only [List.length_map] at hj
    exact .inl (List.mem_map.mpr ⟨j.toNat, List.mem_range.mpr hj, by simp⟩)

/-- The arena of a table of at least two symbols is a tree over one root (R114). -/
theorem buildTree_forest (syms : List Byte) (h1 : 2 ≤ syms.length) (h2 : syms.length ≤ 256) :
    ∃ b, buildTree syms = some b ∧ Forest syms.length b.arena [b.root] := by
  obtain ⟨t, more, e1, hb, _⟩ := buildTree_passes syms h1 h2
  refine ⟨_, hb, ?_⟩
  have hf := mergePasses_forest syms.length syms.length _ _ (seeds_forest syms h2) (by simp) (by simp; omega)
  rw [e1] at hf
  exact hf.1

end Sys2Proof.Machine
end

