-- ==== Sys2Proof/Laws/Run.lean ====
section
/-! SUPPORT. What a piece of pseudocode and a completion step can come to, said once. -/

namespace Sys2Proof.Machine

variable {σ α : Type}

@[simp] theorem andThen_ok (s : σ) (f : σ → Run σ) : (Run.ok s).andThen f = f s := rfl
@[simp] theorem andThen_raise (e : ErrCode) (i : Word) (s : σ) (f : σ → Run σ) :
    (Run.raise e i s).andThen f = .raise e i s := rfl
@[simp] theorem andThen_fault (x : Fault) (f : σ → Run σ) : (Run.fault x : Run σ).andThen f = .fault x := rfl

theorem andThen_assoc (r : Run σ) (f g : σ → Run σ) :
    (r.andThen f).andThen g = r.andThen fun s => (f s).andThen g := by
  cases r <;> rfl

theorem andThen_eq_ok {r : Run σ} {f : σ → Run σ} {t : σ} :
    r.andThen f = .ok t ↔ ∃ s, r = .ok s ∧ f s = .ok t := by
  cases r <;> simp

theorem andThen_eq_raise {r : Run σ} {f : σ → Run σ} {e : ErrCode} {i : Word} {t : σ} :
    r.andThen f = .raise e i t ↔ r = .raise e i t ∨ ∃ s, r = .ok s ∧ f s = .raise e i t := by
  cases r <;> simp

theorem andThen_eq_fault {r : Run σ} {f : σ → Run σ} {x : Fault} :
    r.andThen f = .fault x ↔ r = .fault x ∨ ∃ s, r = .ok s ∧ f s = .fault x := by
  cases r <;> simp

@[simp] theorem spoilOnRaise_ok (s : State) : spoilOnRaise (.ok s) = .ok s := rfl
@[simp] theorem spoilOnRaise_raise (e : ErrCode) (i : Word) (s : State) :
    spoilOnRaise (.raise e i s) = .raise e i (havocObuf s) := rfl
@[simp] theorem spoilOnRaise_fault (x : Fault) : spoilOnRaise (.fault x) = .fault x := rfl

/-- Everything `spoilOnRaise` can do: only a `raise` is changed, in OBUF alone. -/
theorem spoilOnRaise_cases (r : Run State) :
    (∃ s, r = .ok s ∧ spoilOnRaise r = .ok s) ∨
    (∃ e i s, r = .raise e i s ∧ spoilOnRaise r = .raise e i (havocObuf s)) ∨
    ∃ x, r = .fault x ∧ spoilOnRaise r = .fault x := by
  cases r with
  | ok s => exact .inl ⟨s, rfl, rfl⟩
  | raise e i s => exact .inr (.inl ⟨e, i, s, rfl, rfl⟩)
  | fault x => exact .inr (.inr ⟨x, rfl, rfl⟩)

@[simp] theorem runList_nil (f : α → σ → Run σ) (s : σ) : runList f [] s = .ok s := rfl
@[simp] theorem runList_cons (f : α → σ → Run σ) (a : α) (as : List α) (s : σ) :
    runList f (a :: as) s = (f a s).andThen (runList f as) := rfl

theorem runList_append (f : α → σ → Run σ) (as bs : List α) (s : σ) :
    runList f (as ++ bs) s = (runList f as s).andThen (runList f bs) := by
  induction as generalizing s with
  | nil => rfl
  | cons a as ih =>
    simp only [List.cons_append, runList_cons, andThen_assoc]
    cases f a s <;> simp [ih]

@[simp] theorem runTimes_zero (f : σ → Run σ) (s : σ) : runTimes f 0 s = .ok s := rfl
@[simp] theorem runTimes_succ (f : σ → Run σ) (n : Nat) (s : σ) :
    runTimes f (n + 1) s = (f s).andThen (runTimes f n) := rfl

/-- A property every iteration keeps holds of the state a loop ends in without `raise`. -/
theorem runList_ok_inv {P : σ → Prop} {f : α → σ → Run σ} (h : ∀ a s t, P s → f a s = .ok t → P t)
    {as : List α} {s t : σ} (hs : P s) (ht : runList f as s = .ok t) : P t := by
  induction as generalizing s with
  | nil => simp at ht; exact ht ▸ hs
  | cons a as ih =>
    obtain ⟨u, hu, hut⟩ := andThen_eq_ok.mp ht
    exact ih (h a s u hs hu) hut

theorem runTimes_ok_inv {P : σ → Prop} {f : σ → Run σ} (h : ∀ s t, P s → f s = .ok t → P t)
    {n : Nat} {s t : σ} (hs : P s) (ht : runTimes f n s = .ok t) : P t := by
  induction n generalizing s with
  | zero => simp at ht; exact ht ▸ hs
  | succ n ih =>
    obtain ⟨u, hu, hut⟩ := andThen_eq_ok.mp ht
    exact ih (h s u hs hu) hut

/-- The three ways a completion step can go (R83, R176). -/
theorem settle_eq_next {r : Run State} {t : State} :
    settle r = .next t ↔ (∃ s, r = .ok s ∧ t = succeed s) ∨ ∃ e i s, r = .raise e i s ∧ t = errorEntry e i s := by
  cases r <;> simp [settle, eq_comm]

theorem settle_ok (s : State) : settle (.ok s) = .next (succeed s) := rfl
theorem settle_raise (e : ErrCode) (i : Word) (s : State) : settle (.raise e i s) = .next (errorEntry e i s) := rfl
theorem settle_fault (f : Fault) : settle (.fault f) = .fault f := rfl

theorem settle_ne_refused (r : Run State) (x : Refusal) : settle r ≠ .refused x := by cases r <;> simp [settle]

/-- No command is refused. -/
theorem exec_ne_refused (i : Instr) (s : State) (x : Refusal) : exec i s ≠ .refused x := by
  cases i <;> simp only [exec, execNop, execClear, execFreq, execTree, execCodes, execPack, execLoad, execWalk,
    execCompress, execDecompress, ne_eq]
  case nop => split <;> simp
  case clear => split <;> simp
  all_goals exact settle_ne_refused _ x

end Sys2Proof.Machine
end

