-- ==== Sys2Proof/Laws/Codes.lean ====
section
/-! SUPPORT. The paths of a tree, the code table they give (R122), and what CODES computes on a tree. -/

namespace Sys2Proof.Machine

/-- The paths to the leaves with their symbols, left to right: false is a LEFT edge, true a RIGHT edge (R9). -/
def Shape.paths : Shape → List (List Bool × Byte)
  | .leaf _ b => [([], b)]
  | .node _ l r => l.paths.map (fun x => (false :: x.1, x.2)) ++ r.paths.map (fun x => (true :: x.1, x.2))
  | .wrap _ l => l.paths.map (fun x => (false :: x.1, x.2))

theorem Shape.paths_syms (t : Shape) : t.paths.map Prod.snd = t.syms := by
  induction t with
  | leaf i b => rfl
  | node i l r hl hr =>
    simp only [paths, syms, List.map_append, List.map_map, ← hl, ← hr]; rfl
  | wrap i l hl => simp only [paths, syms, List.map_map, ← hl]; rfl

theorem Shape.paths_length (t : Shape) : ∀ x ∈ t.paths, x.1.length ≤ t.height := by
  induction t with
  | leaf i b => simp [paths, height]
  | node i l r hl hr =>
    intro x hx
    simp only [paths, List.mem_append, List.mem_map] at hx
    simp only [height]
    rcases hx with ⟨y, hy, rfl⟩ | ⟨y, hy, rfl⟩
    · have := hl y hy; simp only [List.length_cons]; omega
    · have := hr y hy; simp only [List.length_cons]; omega
  | wrap i l hl =>
    intro x hx
    simp only [paths, List.mem_map] at hx
    obtain ⟨y, hy, rfl⟩ := hx
    have := hl y hy
    simp only [List.length_cons, height]; omega

/-- A path is empty only in a leaf. -/
theorem Shape.paths_ne_nil (t : Shape) (h : t.isLeaf = false) : ∀ x ∈ t.paths, x.1 ≠ [] := by
  cases t with
  | leaf i b => cases h
  | node i l r =>
    intro x hx
    simp only [paths, List.mem_append, List.mem_map] at hx
    rcases hx with ⟨y, _, rfl⟩ | ⟨y, _, rfl⟩ <;> simp
  | wrap i l =>
    intro x hx
    simp only [paths, List.mem_map] at hx
    obtain ⟨y, _, rfl⟩ := hx
    simp

/-- No path is the beginning of another (R123 (b)). -/
theorem Shape.paths_prefix (t : Shape) : ∀ x ∈ t.paths, ∀ y ∈ t.paths, x.1 <+: y.1 → x = y := by
  induction t with
  | leaf i b => simp [paths]
  | node i l r hl hr =>
    intro x hx y hy hp
    simp only [paths, List.mem_append, List.mem_map] at hx hy
    rcases hx with ⟨x, hx, rfl⟩ | ⟨x, hx, rfl⟩ <;> rcases hy with ⟨y, hy, rfl⟩ | ⟨y, hy, rfl⟩ <;>
      simp only [List.cons_prefix_cons] at hp
    · rw [hl x hx y hy hp.2]
    · exact absurd hp.1 (by simp)
    · exact absurd hp.1 (by simp)
    · rw [hr x hx y hy hp.2]
  | wrap i l hl =>
    intro x hx y hy hp
    simp only [paths, List.mem_map] at hx hy
    obtain ⟨x, hx, rfl⟩ := hx
    obtain ⟨y, hy, rfl⟩ := hy
    simp only [List.cons_prefix_cons] at hp
    rw [hl x hx y hy hp.2]

/-- The leaf paths of the NODE memory are the paths of the shape in it. -/
theorem Shape.leafPath_mem {node : Table NodeEntry 9} {t : Shape} (h : t.InNodes node) {p : List Bool} {l : NodeIdx}
    (hp : LeafPath node t.root p l) : (p, (tableGet node l).sym) ∈ t.paths := by
  induction t generalizing p l with
  | leaf i b =>
    simp only [InNodes] at h
    simp only [root_leaf] at hp
    cases hp with
    | leaf _ hl => simp [paths, h, leafNode]
    | left _ _ _ hl _ => rw [h] at hl; cases hl
    | right _ _ _ hl _ _ => rw [h] at hl; cases hl
  | node i a b ha hb =>
    obtain ⟨he, _, _, h1, h2⟩ := h
    simp only [root_node] at hp
    simp only [paths, List.mem_append, List.mem_map]
    cases hp with
    | leaf _ hl => rw [he] at hl; cases hl
    | left _ _ q hl hq =>
      rw [he] at hq
      exact .inl ⟨_, ha h1 hq, rfl⟩
    | right _ _ q hl _ hq =>
      rw [he] at hq
      exact .inr ⟨_, hb h2 hq, rfl⟩
  | wrap i a ha =>
    obtain ⟨he, _, h1⟩ := h
    simp only [root_wrap] at hp
    simp only [paths, List.mem_map]
    cases hp with
    | leaf _ hl => rw [he] at hl; cases hl
    | left _ _ q hl hq =>
      rw [he] at hq
      exact ⟨_, ha h1 hq, rfl⟩
    | right _ _ q hl hn hq => rw [he] at hn; exact absurd rfl hn

theorem Shape.mem_leafPath {node : Table NodeEntry 9} {t : Shape} (h : t.InNodes node) {p : List Bool} {b : Byte}
    (hp : (p, b) ∈ t.paths) : ∃ l, LeafPath node t.root p l ∧ (tableGet node l).sym = b := by
  induction t generalizing p with
  | leaf i c =>
    simp only [InNodes] at h
    simp only [paths, List.mem_singleton, Prod.mk.injEq] at hp
    obtain ⟨rfl, rfl⟩ := hp
    exact ⟨i, .leaf i (by rw [h]; rfl), by rw [h]; rfl⟩
  | node i l r hl hr =>
    obtain ⟨he, _, hn, h1, h2⟩ := h
    simp only [paths, List.mem_append, List.mem_map, Prod.mk.injEq] at hp
    rcases hp with ⟨⟨q, c⟩, hq, rfl, rfl⟩ | ⟨⟨q, c⟩, hq, rfl, rfl⟩
    · obtain ⟨k, hk, hs⟩ := hl h1 hq
      exact ⟨k, .left _ _ _ (by rw [root_node, he]; rfl) (by rw [root_node, he]; exact hk), hs⟩
    · obtain ⟨k, hk, hs⟩ := hr h2 hq
      exact ⟨k, .right _ _ _ (by rw [root_node, he]; rfl) (by rw [root_node, he]; exact hn)
        (by rw [root_node, he]; exact hk), hs⟩
  | wrap i l hl =>
    obtain ⟨he, _, h1⟩ := h
    simp only [paths, List.mem_map, Prod.mk.injEq] at hp
    obtain ⟨⟨q, c⟩, hq, rfl, rfl⟩ := hp
    obtain ⟨k, hk, hs⟩ := hl h1 hq
    exact ⟨k, .left _ _ _ (by rw [root_wrap, he]; rfl) (by rw [root_wrap, he]; exact hk), hs⟩

/-! ### Codes as bytes -/

theorem byteOfBits_getLsbD (f : Nat → Bool) (i : Nat) : (byteOfBits f).getLsbD i = (decide (i < 8) && f i) := by
  by_cases h : i < 8
  · have : i = 0 ∨ i = 1 ∨ i = 2 ∨ i = 3 ∨ i = 4 ∨ i = 5 ∨ i = 6 ∨ i = 7 := by omega
    simp only [byteOfBits, BitVec.getLsbD_ofBoolListLE]
    rcases this with rfl | rfl | rfl | rfl | rfl | rfl | rfl | rfl <;> simp
  · rw [BitVec.getLsbD_of_ge _ _ (by omega)]; simp [h]

/-- CODE of a path (R32). -/
def pathCode (p : List Bool) : BitVec 8 := byteOfBits fun t => (p[t]?).getD false

theorem codeOfPath_eq (p : List Bool) : codeOfPath p = ⟨true, BitVec.ofNat 4 p.length, pathCode p⟩ := rfl

theorem pathCode_append_false (p : List Bool) : pathCode (p ++ [false]) = pathCode p := by
  apply BitVec.eq_of_getLsbD_eq
  intro i _
  simp only [pathCode, byteOfBits_getLsbD, List.getElem?_append]
  by_cases h : i < p.length
  · simp [h]
  · rw [if_neg h, List.getElem?_eq_none (by omega : p.length ≤ i)]
    cases hq : i - p.length <;> simp

theorem appendOne_pathCode (p : List Bool) (h : p.length < 8) :
    appendOne (pathCode p) p.length = pathCode (p ++ [true]) := by
  apply BitVec.eq_of_getLsbD_eq
  intro i hi
  simp only [appendOne, BitVec.getLsbD_or, pathCode, byteOfBits_getLsbD, List.getElem?_append, BitVec.getLsbD_shiftLeft,
    hi, decide_true, Bool.true_and]
  by_cases h1 : i < p.length
  · simp [h1]
  · rw [if_neg h1, List.getElem?_eq_none (by omega : p.length ≤ i)]
    by_cases h2 : i = p.length
    · subst h2; simp
    · obtain ⟨m, hm⟩ : ∃ m, i - p.length = m + 1 := ⟨i - p.length - 1, by omega⟩
      simp [h1, hm]

/-- The bits of a path's code are the path (R32). -/
theorem codeBits_codeOfPath (p : List Bool) (h : p.length ≤ 8) : codeBits (codeOfPath p) = p := by
  have hl : (BitVec.ofNat 4 p.length).toNat = p.length := by simp [Nat.mod_eq_of_lt (by omega : p.length < 16)]
  apply List.ext_getElem
  · simp [codeBits, codeOfPath_eq, hl]
  · intro i h1 h2
    simp only [codeBits, codeOfPath_eq, List.getElem_map, List.getElem_range, pathCode, byteOfBits_getLsbD,
      List.getElem?_eq_getElem h2]
    simp [(by omega : i < 8)]

/-! ### The code table -/

/-- Entries for the paths, put one after another. -/
def putPaths (ct : Table CtEntry 8) (ps : List (List Bool × Byte)) : Table CtEntry 8 :=
  ps.foldl (fun ct x => tablePut ct x.2 (codeOfPath x.1)) ct

@[simp] theorem putPaths_nil (ct : Table CtEntry 8) : putPaths ct [] = ct := rfl
@[simp] theorem putPaths_cons (ct : Table CtEntry 8) (x : List Bool × Byte) (ps : List (List Bool × Byte)) :
    putPaths ct (x :: ps) = putPaths (tablePut ct x.2 (codeOfPath x.1)) ps := rfl
theorem putPaths_append (ct : Table CtEntry 8) (ps qs : List (List Bool × Byte)) :
    putPaths ct (ps ++ qs) = putPaths (putPaths ct ps) qs := List.foldl_append

/-- A symbol that no path leads to keeps its entry. -/
theorem tableGet_putPaths_of_notMem (ps : List (List Bool × Byte)) (ct : Table CtEntry 8) (b : Byte)
    (h : b ∉ ps.map Prod.snd) : tableGet (putPaths ct ps) b = tableGet ct b := by
  induction ps generalizing ct with
  | nil => rfl
  | cons x ps ih =>
    simp only [List.map_cons, List.mem_cons, not_or] at h
    rw [putPaths_cons, ih _ h.2, tableGet_put_ne _ _ _ _ (Ne.symm h.1)]

/-- A symbol that one path leads to gets that path's entry (R122). -/
theorem tableGet_putPaths_of_mem (ps : List (List Bool × Byte)) (ct : Table CtEntry 8) (p : List Bool) (b : Byte)
    (hn : (ps.map Prod.snd).Nodup) (h : (p, b) ∈ ps) : tableGet (putPaths ct ps) b = codeOfPath p := by
  induction ps generalizing ct with
  | nil => cases h
  | cons x ps ih =>
    simp only [List.map_cons, List.nodup_cons] at hn
    rcases List.mem_cons.mp h with rfl | h
    · rw [putPaths_cons, tableGet_putPaths_of_notMem _ _ _ hn.1, tableGet_put_same]
    · rw [putPaths_cons, ih _ hn.2 h]

/-- The paths behind a common beginning. -/
def prefixed (pre : List Bool) (ps : List (List Bool × Byte)) : List (List Bool × Byte) :=
  ps.map fun x => (pre ++ x.1, x.2)

theorem prefixed_cons (pre : List Bool) (b : Bool) (ps : List (List Bool × Byte)) :
    prefixed pre (ps.map fun x => (b :: x.1, x.2)) = prefixed (pre ++ [b]) ps := by
  simp [prefixed, Function.comp_def]

theorem prefixed_append (pre : List Bool) (ps qs : List (List Bool × Byte)) :
    prefixed pre (ps ++ qs) = prefixed pre ps ++ prefixed pre qs := by
  simp [prefixed]

theorem prefixed_syms (pre : List Bool) (ps : List (List Bool × Byte)) :
    (prefixed pre ps).map Prod.snd = ps.map Prod.snd := by
  simp [prefixed, Function.comp_def]

/-- `visit` on a tree with distinct symbols records the path to every leaf and raises nothing (R121 to R123). -/
theorem visit_shape (node : Table NodeEntry 9) (t : Shape) (ht : t.InNodes node) (frames : Nat) (pre : List Bool)
    (ct : Table CtEntry 8) (hf : t.height < frames) (hp : pre.length + t.height ≤ 8) (hn : t.syms.Nodup)
    (hv : ∀ b ∈ t.syms, (tableGet ct b).valid = false) :
    visit node frames t.root (pathCode pre) pre.length ct = .ok (putPaths ct (prefixed pre t.paths)) := by
  induction t generalizing frames pre ct with
  | leaf i b =>
    obtain ⟨frames, rfl⟩ : ∃ m, frames = m + 1 := ⟨frames - 1, by simp only [Shape.height] at hf; omega⟩
    simp only [Shape.InNodes] at ht
    have := hv b (by simp [Shape.syms])
    simp only [visit, Shape.root_leaf, ht, leafNode, if_true, this, Bool.false_eq_true, if_false]
    simp [Shape.paths, prefixed, codeOfPath_eq]
  | node i l r hl hr =>
    obtain ⟨frames, rfl⟩ : ∃ m, frames = m + 1 := ⟨frames - 1, by omega⟩
    obtain ⟨he, _, hne, h1, h2⟩ := ht
    simp only [Shape.height] at hf hp
    simp only [Shape.syms, List.nodup_append] at hn
    simp only [Shape.syms, List.mem_append] at hv
    have e1 := hl h1 frames (pre ++ [false]) ct (by omega) (by simp; omega) hn.1 (fun b hb => hv b (.inl hb))
    have e2 := hr h2 frames (pre ++ [true]) (putPaths ct (prefixed (pre ++ [false]) l.paths)) (by omega)
      (by simp; omega) hn.2.1 (fun b hb => by
        rw [tableGet_putPaths_of_notMem, hv b (.inr hb)]
        rw [prefixed_syms, l.paths_syms]
        exact fun hb' => hn.2.2 b hb' b hb rfl)
    rw [pathCode_append_false, List.length_append, List.length_singleton] at e1
    rw [List.length_append, List.length_singleton] at e2
    simp only [visit, Shape.root_node, he, innerNode, Bool.false_eq_true, if_false, e1, andThen_ok, hne]
    rw [appendOne_pathCode pre (by omega), e2]
    simp only [Shape.paths]
    rw [prefixed_append, putPaths_append, prefixed_cons, prefixed_cons]
  | wrap i l hl =>
    obtain ⟨frames, rfl⟩ : ∃ m, frames = m + 1 := ⟨frames - 1, by omega⟩
    obtain ⟨he, _, h1⟩ := ht
    simp only [Shape.height] at hf hp
    have e1 := hl h1 frames (pre ++ [false]) ct (by omega) (by simp; omega) hn hv
    rw [pathCode_append_false, List.length_append, List.length_singleton] at e1
    simp only [visit, Shape.root_wrap, he, innerNode, Bool.false_eq_true, if_false, e1, andThen_ok, if_true]
    rw [Shape.paths, prefixed_cons]

/-- CODES on a tree (R121): the code table of its paths. -/
theorem buildCodes_shape (node : Table NodeEntry 9) (t : Shape) (ht : t.InNodes node) (hh : t.height ≤ 8)
    (hn : t.syms.Nodup) : buildCodes node t.root = .ok (putPaths clearCodes t.paths) := by
  have h := visit_shape node t ht 9 [] clearCodes (by omega) (by simpa using hh) hn
    (fun b _ => by rw [clearCodes, tableGet_replicate]; rfl)
  have hp : prefixed [] t.paths = t.paths := by simp [prefixed]
  rw [hp] at h
  exact h

end Sys2Proof.Machine
end

