-- ==== Sys2Proof/Laws/State.lean ====
section
/-! SUPPORT. One lemma per field per named update of the state, each true by unfolding the update once. -/

namespace Sys2Proof.Machine

variable (s : State)

/-! ### `setOvr`: an access that is dropped (R60, R82) -/

@[simp] theorem setOvr_inCap : (setOvr s).inCap = s.inCap := rfl
@[simp] theorem setOvr_outCap : (setOvr s).outCap = s.outCap := rfl
@[simp] theorem setOvr_done : (setOvr s).done = s.done := rfl
@[simp] theorem setOvr_error : (setOvr s).error = s.error := rfl
@[simp] theorem setOvr_ovr : (setOvr s).ovr = true := rfl
@[simp] theorem setOvr_ftV : (setOvr s).ftV = s.ftV := rfl
@[simp] theorem setOvr_treeV : (setOvr s).treeV = s.treeV := rfl
@[simp] theorem setOvr_ctV : (setOvr s).ctV = s.ctV := rfl
@[simp] theorem setOvr_payV : (setOvr s).payV = s.payV := rfl
@[simp] theorem setOvr_mid : (setOvr s).mid = s.mid := rfl
@[simp] theorem setOvr_err : (setOvr s).err = s.err := rfl
@[simp] theorem setOvr_lastop : (setOvr s).lastop = s.lastop := rfl
@[simp] theorem setOvr_die : (setOvr s).die = s.die := rfl
@[simp] theorem setOvr_eie : (setOvr s).eie = s.eie := rfl
@[simp] theorem setOvr_inLen : (setOvr s).inLen = s.inLen := rfl
@[simp] theorem setOvr_outLen : (setOvr s).outLen = s.outLen := rfl
@[simp] theorem setOvr_errInfo : (setOvr s).errInfo = s.errInfo := rfl
@[simp] theorem setOvr_ftN : (setOvr s).ftN = s.ftN := rfl
@[simp] theorem setOvr_root : (setOvr s).root = s.root := rfl
@[simp] theorem setOvr_nodeN : (setOvr s).nodeN = s.nodeN := rfl
@[simp] theorem setOvr_encBits : (setOvr s).encBits = s.encBits := rfl
@[simp] theorem setOvr_decBits : (setOvr s).decBits = s.decBits := rfl
@[simp] theorem setOvr_payBase : (setOvr s).payBase = s.payBase := rfl
@[simp] theorem setOvr_iptr : (setOvr s).iptr = s.iptr := rfl
@[simp] theorem setOvr_optr : (setOvr s).optr = s.optr := rfl
@[simp] theorem setOvr_ft : (setOvr s).ft = s.ft := rfl
@[simp] theorem setOvr_node : (setOvr s).node = s.node := rfl
@[simp] theorem setOvr_ct : (setOvr s).ct = s.ct := rfl
@[simp] theorem setOvr_ibuf : (setOvr s).ibuf = s.ibuf := rfl
@[simp] theorem setOvr_obuf : (setOvr s).obuf = s.obuf := rfl
@[simp] theorem setOvr_obufGen : (setOvr s).obufGen = s.obufGen := rfl
@[simp] theorem setOvr_seq : (setOvr s).seq = s.seq := rfl
@[simp] theorem setOvr_busycnt : (setOvr s).busycnt = s.busycnt := rfl
@[simp] theorem setOvr_work : (setOvr s).work = s.work := rfl
@[simp] theorem setOvr_script : (setOvr s).script = s.script := rfl
@[simp] theorem setOvr_resp : (setOvr s).resp = s.resp := rfl
@[simp] theorem setOvr_draws : (setOvr s).draws = s.draws := rfl
@[simp] theorem setOvr_busy : (setOvr s).busy = s.busy := rfl
@[simp] theorem setOvr_ibufByte (a : Nat) : (setOvr s).ibufByte a = s.ibufByte a := rfl
@[simp] theorem setOvr_obufByte (a : Nat) : (setOvr s).obufByte a = s.obufByte a := rfl

/-! ### `succeed`: completion without raise (R83) -/

@[simp] theorem succeed_inCap : (succeed s).inCap = s.inCap := rfl
@[simp] theorem succeed_outCap : (succeed s).outCap = s.outCap := rfl
@[simp] theorem succeed_done : (succeed s).done = true := rfl
@[simp] theorem succeed_error : (succeed s).error = s.error := rfl
@[simp] theorem succeed_ovr : (succeed s).ovr = s.ovr := rfl
@[simp] theorem succeed_ftV : (succeed s).ftV = s.ftV := rfl
@[simp] theorem succeed_treeV : (succeed s).treeV = s.treeV := rfl
@[simp] theorem succeed_ctV : (succeed s).ctV = s.ctV := rfl
@[simp] theorem succeed_payV : (succeed s).payV = s.payV := rfl
@[simp] theorem succeed_mid : (succeed s).mid = s.mid := rfl
@[simp] theorem succeed_err : (succeed s).err = s.err := rfl
@[simp] theorem succeed_lastop : (succeed s).lastop = s.lastop := rfl
@[simp] theorem succeed_die : (succeed s).die = s.die := rfl
@[simp] theorem succeed_eie : (succeed s).eie = s.eie := rfl
@[simp] theorem succeed_inLen : (succeed s).inLen = s.inLen := rfl
@[simp] theorem succeed_outLen : (succeed s).outLen = s.outLen := rfl
@[simp] theorem succeed_errInfo : (succeed s).errInfo = s.errInfo := rfl
@[simp] theorem succeed_ftN : (succeed s).ftN = s.ftN := rfl
@[simp] theorem succeed_root : (succeed s).root = s.root := rfl
@[simp] theorem succeed_nodeN : (succeed s).nodeN = s.nodeN := rfl
@[simp] theorem succeed_encBits : (succeed s).encBits = s.encBits := rfl
@[simp] theorem succeed_decBits : (succeed s).decBits = s.decBits := rfl
@[simp] theorem succeed_payBase : (succeed s).payBase = s.payBase := rfl
@[simp] theorem succeed_iptr : (succeed s).iptr = s.iptr := rfl
@[simp] theorem succeed_optr : (succeed s).optr = s.optr := rfl
@[simp] theorem succeed_ft : (succeed s).ft = s.ft := rfl
@[simp] theorem succeed_node : (succeed s).node = s.node := rfl
@[simp] theorem succeed_ct : (succeed s).ct = s.ct := rfl
@[simp] theorem succeed_ibuf : (succeed s).ibuf = s.ibuf := rfl
@[simp] theorem succeed_obuf : (succeed s).obuf = s.obuf := rfl
@[simp] theorem succeed_obufGen : (succeed s).obufGen = s.obufGen := rfl
@[simp] theorem succeed_seq : (succeed s).seq = none := rfl
@[simp] theorem succeed_busycnt : (succeed s).busycnt = 0 := rfl
@[simp] theorem succeed_work : (succeed s).work = s.work := rfl
@[simp] theorem succeed_script : (succeed s).script = s.script := rfl
@[simp] theorem succeed_resp : (succeed s).resp = s.resp := rfl
@[simp] theorem succeed_draws : (succeed s).draws = s.draws := rfl
@[simp] theorem succeed_busy : (succeed s).busy = false := rfl
@[simp] theorem succeed_ibufByte (a : Nat) : (succeed s).ibufByte a = s.ibufByte a := rfl
@[simp] theorem succeed_obufByte (a : Nat) : (succeed s).obufByte a = s.obufByte a := rfl

/-! ### `errorEntry`: error entry (R176) -/

@[simp] theorem errorEntry_inCap (e : ErrCode) (i : Word) : (errorEntry e i s).inCap = s.inCap := rfl
@[simp] theorem errorEntry_outCap (e : ErrCode) (i : Word) : (errorEntry e i s).outCap = s.outCap := rfl
@[simp] theorem errorEntry_done (e : ErrCode) (i : Word) : (errorEntry e i s).done = false := rfl
@[simp] theorem errorEntry_error (e : ErrCode) (i : Word) : (errorEntry e i s).error = true := rfl
@[simp] theorem errorEntry_ovr (e : ErrCode) (i : Word) : (errorEntry e i s).ovr = s.ovr := rfl
@[simp] theorem errorEntry_ftV (e : ErrCode) (i : Word) : (errorEntry e i s).ftV = s.ftV := rfl
@[simp] theorem errorEntry_treeV (e : ErrCode) (i : Word) : (errorEntry e i s).treeV = s.treeV := rfl
@[simp] theorem errorEntry_ctV (e : ErrCode) (i : Word) : (errorEntry e i s).ctV = s.ctV := rfl
@[simp] theorem errorEntry_payV (e : ErrCode) (i : Word) : (errorEntry e i s).payV = s.payV := rfl
@[simp] theorem errorEntry_mid (e : ErrCode) (i : Word) : (errorEntry e i s).mid = s.mid := rfl
@[simp] theorem errorEntry_err (e : ErrCode) (i : Word) : (errorEntry e i s).err = e := rfl
@[simp] theorem errorEntry_lastop (e : ErrCode) (i : Word) : (errorEntry e i s).lastop = s.lastop := rfl
@[simp] theorem errorEntry_die (e : ErrCode) (i : Word) : (errorEntry e i s).die = s.die := rfl
@[simp] theorem errorEntry_eie (e : ErrCode) (i : Word) : (errorEntry e i s).eie = s.eie := rfl
@[simp] theorem errorEntry_inLen (e : ErrCode) (i : Word) : (errorEntry e i s).inLen = s.inLen := rfl
@[simp] theorem errorEntry_outLen (e : ErrCode) (i : Word) : (errorEntry e i s).outLen = 0#32 := rfl
@[simp] theorem errorEntry_errInfo (e : ErrCode) (i : Word) : (errorEntry e i s).errInfo = i := rfl
@[simp] theorem errorEntry_ftN (e : ErrCode) (i : Word) : (errorEntry e i s).ftN = s.ftN := rfl
@[simp] theorem errorEntry_root (e : ErrCode) (i : Word) : (errorEntry e i s).root = s.root := rfl
@[simp] theorem errorEntry_nodeN (e : ErrCode) (i : Word) : (errorEntry e i s).nodeN = s.nodeN := rfl
@[simp] theorem errorEntry_encBits (e : ErrCode) (i : Word) : (errorEntry e i s).encBits = s.encBits := rfl
@[simp] theorem errorEntry_decBits (e : ErrCode) (i : Word) : (errorEntry e i s).decBits = s.decBits := rfl
@[simp] theorem errorEntry_payBase (e : ErrCode) (i : Word) : (errorEntry e i s).payBase = s.payBase := rfl
@[simp] theorem errorEntry_iptr (e : ErrCode) (i : Word) : (errorEntry e i s).iptr = s.iptr := rfl
@[simp] theorem errorEntry_optr (e : ErrCode) (i : Word) : (errorEntry e i s).optr = s.optr := rfl
@[simp] theorem errorEntry_ft (e : ErrCode) (i : Word) : (errorEntry e i s).ft = s.ft := rfl
@[simp] theorem errorEntry_node (e : ErrCode) (i : Word) : (errorEntry e i s).node = s.node := rfl
@[simp] theorem errorEntry_ct (e : ErrCode) (i : Word) : (errorEntry e i s).ct = s.ct := rfl
@[simp] theorem errorEntry_ibuf (e : ErrCode) (i : Word) : (errorEntry e i s).ibuf = s.ibuf := rfl
@[simp] theorem errorEntry_obuf (e : ErrCode) (i : Word) : (errorEntry e i s).obuf = s.obuf := rfl
@[simp] theorem errorEntry_obufGen (e : ErrCode) (i : Word) : (errorEntry e i s).obufGen = s.obufGen := rfl
@[simp] theorem errorEntry_seq (e : ErrCode) (i : Word) : (errorEntry e i s).seq = none := rfl
@[simp] theorem errorEntry_busycnt (e : ErrCode) (i : Word) : (errorEntry e i s).busycnt = 0 := rfl
@[simp] theorem errorEntry_work (e : ErrCode) (i : Word) : (errorEntry e i s).work = s.work := rfl
@[simp] theorem errorEntry_script (e : ErrCode) (i : Word) : (errorEntry e i s).script = s.script := rfl
@[simp] theorem errorEntry_resp (e : ErrCode) (i : Word) : (errorEntry e i s).resp = s.resp := rfl
@[simp] theorem errorEntry_draws (e : ErrCode) (i : Word) : (errorEntry e i s).draws = s.draws := rfl
@[simp] theorem errorEntry_busy (e : ErrCode) (i : Word) : (errorEntry e i s).busy = false := rfl
@[simp] theorem errorEntry_ibufByte (e : ErrCode) (i : Word) (a : Nat) : (errorEntry e i s).ibufByte a = s.ibufByte a := rfl
@[simp] theorem errorEntry_obufByte (e : ErrCode) (i : Word) (a : Nat) : (errorEntry e i s).obufByte a = s.obufByte a := rfl

/-! ### `clearState`: CLEAR (R161) -/

@[simp] theorem clearState_inCap : (clearState s).inCap = s.inCap := rfl
@[simp] theorem clearState_outCap : (clearState s).outCap = s.outCap := rfl
@[simp] theorem clearState_done : (clearState s).done = false := rfl
@[simp] theorem clearState_error : (clearState s).error = false := rfl
@[simp] theorem clearState_ovr : (clearState s).ovr = false := rfl
@[simp] theorem clearState_ftV : (clearState s).ftV = false := rfl
@[simp] theorem clearState_treeV : (clearState s).treeV = false := rfl
@[simp] theorem clearState_ctV : (clearState s).ctV = false := rfl
@[simp] theorem clearState_payV : (clearState s).payV = false := rfl
@[simp] theorem clearState_mid : (clearState s).mid = false := rfl
@[simp] theorem clearState_err : (clearState s).err = .none := rfl
@[simp] theorem clearState_lastop : (clearState s).lastop = 0#8 := rfl
@[simp] theorem clearState_die : (clearState s).die = s.die := rfl
@[simp] theorem clearState_eie : (clearState s).eie = s.eie := rfl
@[simp] theorem clearState_inLen : (clearState s).inLen = s.inLen := rfl
@[simp] theorem clearState_outLen : (clearState s).outLen = 0#32 := rfl
@[simp] theorem clearState_errInfo : (clearState s).errInfo = 0#32 := rfl
@[simp] theorem clearState_ftN : (clearState s).ftN = 0#9 := rfl
@[simp] theorem clearState_root : (clearState s).root = 0#9 := rfl
@[simp] theorem clearState_nodeN : (clearState s).nodeN = 0#10 := rfl
@[simp] theorem clearState_encBits : (clearState s).encBits = 0#32 := rfl
@[simp] theorem clearState_decBits : (clearState s).decBits = 0#32 := rfl
@[simp] theorem clearState_payBase : (clearState s).payBase = 0#32 := rfl
@[simp] theorem clearState_iptr : (clearState s).iptr = s.iptr := rfl
@[simp] theorem clearState_optr : (clearState s).optr = s.optr := rfl
@[simp] theorem clearState_ft : (clearState s).ft = s.ft := rfl
@[simp] theorem clearState_node : (clearState s).node = s.node := rfl
@[simp] theorem clearState_ct : (clearState s).ct = s.ct := rfl
@[simp] theorem clearState_ibuf : (clearState s).ibuf = s.ibuf := rfl
@[simp] theorem clearState_obuf : (clearState s).obuf = s.obuf := rfl
@[simp] theorem clearState_obufGen : (clearState s).obufGen = s.obufGen := rfl
@[simp] theorem clearState_seq : (clearState s).seq = s.seq := rfl
@[simp] theorem clearState_busycnt : (clearState s).busycnt = s.busycnt := rfl
@[simp] theorem clearState_work : (clearState s).work = s.work := rfl
@[simp] theorem clearState_script : (clearState s).script = s.script := rfl
@[simp] theorem clearState_resp : (clearState s).resp = s.resp := rfl
@[simp] theorem clearState_draws : (clearState s).draws = s.draws := rfl
@[simp] theorem clearState_busy : (clearState s).busy = s.busy := rfl
@[simp] theorem clearState_ibufByte (a : Nat) : (clearState s).ibufByte a = s.ibufByte a := rfl
@[simp] theorem clearState_obufByte (a : Nat) : (clearState s).obufByte a = s.obufByte a := rfl

/-! ### `accept`: acceptance (R81) -/

@[simp] theorem accept_inCap (w : Word) : (accept w s).inCap = s.inCap := rfl
@[simp] theorem accept_outCap (w : Word) : (accept w s).outCap = s.outCap := rfl
@[simp] theorem accept_done (w : Word) : (accept w s).done = false := rfl
@[simp] theorem accept_error (w : Word) : (accept w s).error = s.error := rfl
@[simp] theorem accept_ovr (w : Word) : (accept w s).ovr = s.ovr := rfl
@[simp] theorem accept_ftV (w : Word) : (accept w s).ftV = s.ftV := rfl
@[simp] theorem accept_treeV (w : Word) : (accept w s).treeV = s.treeV := rfl
@[simp] theorem accept_ctV (w : Word) : (accept w s).ctV = s.ctV := rfl
@[simp] theorem accept_payV (w : Word) : (accept w s).payV = s.payV := rfl
@[simp] theorem accept_mid (w : Word) : (accept w s).mid = false := rfl
@[simp] theorem accept_err (w : Word) : (accept w s).err = s.err := rfl
@[simp] theorem accept_lastop (w : Word) : (accept w s).lastop = w.extractLsb' 0 8 := rfl
@[simp] theorem accept_die (w : Word) : (accept w s).die = s.die := rfl
@[simp] theorem accept_eie (w : Word) : (accept w s).eie = s.eie := rfl
@[simp] theorem accept_inLen (w : Word) : (accept w s).inLen = s.inLen := rfl
@[simp] theorem accept_outLen (w : Word) : (accept w s).outLen = s.outLen := rfl
@[simp] theorem accept_errInfo (w : Word) : (accept w s).errInfo = s.errInfo := rfl
@[simp] theorem accept_ftN (w : Word) : (accept w s).ftN = s.ftN := rfl
@[simp] theorem accept_root (w : Word) : (accept w s).root = s.root := rfl
@[simp] theorem accept_nodeN (w : Word) : (accept w s).nodeN = s.nodeN := rfl
@[simp] theorem accept_encBits (w : Word) : (accept w s).encBits = s.encBits := rfl
@[simp] theorem accept_decBits (w : Word) : (accept w s).decBits = s.decBits := rfl
@[simp] theorem accept_payBase (w : Word) : (accept w s).payBase = s.payBase := rfl
@[simp] theorem accept_iptr (w : Word) : (accept w s).iptr = s.iptr := rfl
@[simp] theorem accept_optr (w : Word) : (accept w s).optr = s.optr := rfl
@[simp] theorem accept_ft (w : Word) : (accept w s).ft = s.ft := rfl
@[simp] theorem accept_node (w : Word) : (accept w s).node = s.node := rfl
@[simp] theorem accept_ct (w : Word) : (accept w s).ct = s.ct := rfl
@[simp] theorem accept_ibuf (w : Word) : (accept w s).ibuf = s.ibuf := rfl
@[simp] theorem accept_obuf (w : Word) : (accept w s).obuf = s.obuf := rfl
@[simp] theorem accept_obufGen (w : Word) : (accept w s).obufGen = s.obufGen := rfl
@[simp] theorem accept_seq (w : Word) : (accept w s).seq = some w := rfl
@[simp] theorem accept_busycnt (w : Word) : (accept w s).busycnt = Config.busyDraw s.draws + 1 := rfl
@[simp] theorem accept_work (w : Word) : (accept w s).work = { s.work with cmdl := w.getLsbD 8 } := rfl
@[simp] theorem accept_script (w : Word) : (accept w s).script = s.script := rfl
@[simp] theorem accept_resp (w : Word) : (accept w s).resp = s.resp := rfl
@[simp] theorem accept_draws (w : Word) : (accept w s).draws = s.draws + 1 := rfl
@[simp] theorem accept_busy (w : Word) : (accept w s).busy = true := rfl
@[simp] theorem accept_ibufByte (w : Word) (a : Nat) : (accept w s).ibufByte a = s.ibufByte a := rfl
@[simp] theorem accept_obufByte (w : Word) (a : Nat) : (accept w s).obufByte a = s.obufByte a := rfl

/-! ### `havocObuf`: OBUF havoc (R42) -/

@[simp] theorem havocObuf_inCap : (havocObuf s).inCap = s.inCap := rfl
@[simp] theorem havocObuf_outCap : (havocObuf s).outCap = s.outCap := rfl
@[simp] theorem havocObuf_done : (havocObuf s).done = s.done := rfl
@[simp] theorem havocObuf_error : (havocObuf s).error = s.error := rfl
@[simp] theorem havocObuf_ovr : (havocObuf s).ovr = s.ovr := rfl
@[simp] theorem havocObuf_ftV : (havocObuf s).ftV = s.ftV := rfl
@[simp] theorem havocObuf_treeV : (havocObuf s).treeV = s.treeV := rfl
@[simp] theorem havocObuf_ctV : (havocObuf s).ctV = s.ctV := rfl
@[simp] theorem havocObuf_payV : (havocObuf s).payV = s.payV := rfl
@[simp] theorem havocObuf_mid : (havocObuf s).mid = s.mid := rfl
@[simp] theorem havocObuf_err : (havocObuf s).err = s.err := rfl
@[simp] theorem havocObuf_lastop : (havocObuf s).lastop = s.lastop := rfl
@[simp] theorem havocObuf_die : (havocObuf s).die = s.die := rfl
@[simp] theorem havocObuf_eie : (havocObuf s).eie = s.eie := rfl
@[simp] theorem havocObuf_inLen : (havocObuf s).inLen = s.inLen := rfl
@[simp] theorem havocObuf_outLen : (havocObuf s).outLen = s.outLen := rfl
@[simp] theorem havocObuf_errInfo : (havocObuf s).errInfo = s.errInfo := rfl
@[simp] theorem havocObuf_ftN : (havocObuf s).ftN = s.ftN := rfl
@[simp] theorem havocObuf_root : (havocObuf s).root = s.root := rfl
@[simp] theorem havocObuf_nodeN : (havocObuf s).nodeN = s.nodeN := rfl
@[simp] theorem havocObuf_encBits : (havocObuf s).encBits = s.encBits := rfl
@[simp] theorem havocObuf_decBits : (havocObuf s).decBits = s.decBits := rfl
@[simp] theorem havocObuf_payBase : (havocObuf s).payBase = s.payBase := rfl
@[simp] theorem havocObuf_iptr : (havocObuf s).iptr = s.iptr := rfl
@[simp] theorem havocObuf_optr : (havocObuf s).optr = s.optr := rfl
@[simp] theorem havocObuf_ft : (havocObuf s).ft = s.ft := rfl
@[simp] theorem havocObuf_node : (havocObuf s).node = s.node := rfl
@[simp] theorem havocObuf_ct : (havocObuf s).ct = s.ct := rfl
@[simp] theorem havocObuf_ibuf : (havocObuf s).ibuf = s.ibuf := rfl
@[simp] theorem havocObuf_obuf : (havocObuf s).obuf = [] := rfl
@[simp] theorem havocObuf_obufGen : (havocObuf s).obufGen = s.obufGen + 1 := rfl
@[simp] theorem havocObuf_seq : (havocObuf s).seq = s.seq := rfl
@[simp] theorem havocObuf_busycnt : (havocObuf s).busycnt = s.busycnt := rfl
@[simp] theorem havocObuf_work : (havocObuf s).work = s.work := rfl
@[simp] theorem havocObuf_script : (havocObuf s).script = s.script := rfl
@[simp] theorem havocObuf_resp : (havocObuf s).resp = s.resp := rfl
@[simp] theorem havocObuf_draws : (havocObuf s).draws = s.draws := rfl
@[simp] theorem havocObuf_busy : (havocObuf s).busy = s.busy := rfl
@[simp] theorem havocObuf_ibufByte (a : Nat) : (havocObuf s).ibufByte a = s.ibufByte a := rfl

/-! ### `startFreq`: start effects of FREQ (R39) -/

@[simp] theorem startFreq_inCap : (startFreq s).inCap = s.inCap := rfl
@[simp] theorem startFreq_outCap : (startFreq s).outCap = s.outCap := rfl
@[simp] theorem startFreq_done : (startFreq s).done = s.done := rfl
@[simp] theorem startFreq_error : (startFreq s).error = s.error := rfl
@[simp] theorem startFreq_ovr : (startFreq s).ovr = s.ovr := rfl
@[simp] theorem startFreq_ftV : (startFreq s).ftV = false := rfl
@[simp] theorem startFreq_treeV : (startFreq s).treeV = false := rfl
@[simp] theorem startFreq_ctV : (startFreq s).ctV = false := rfl
@[simp] theorem startFreq_payV : (startFreq s).payV = false := rfl
@[simp] theorem startFreq_mid : (startFreq s).mid = s.mid := rfl
@[simp] theorem startFreq_err : (startFreq s).err = s.err := rfl
@[simp] theorem startFreq_lastop : (startFreq s).lastop = s.lastop := rfl
@[simp] theorem startFreq_die : (startFreq s).die = s.die := rfl
@[simp] theorem startFreq_eie : (startFreq s).eie = s.eie := rfl
@[simp] theorem startFreq_inLen : (startFreq s).inLen = s.inLen := rfl
@[simp] theorem startFreq_outLen : (startFreq s).outLen = s.outLen := rfl
@[simp] theorem startFreq_errInfo : (startFreq s).errInfo = s.errInfo := rfl
@[simp] theorem startFreq_ftN : (startFreq s).ftN = 0#9 := rfl
@[simp] theorem startFreq_root : (startFreq s).root = s.root := rfl
@[simp] theorem startFreq_nodeN : (startFreq s).nodeN = s.nodeN := rfl
@[simp] theorem startFreq_encBits : (startFreq s).encBits = s.encBits := rfl
@[simp] theorem startFreq_decBits : (startFreq s).decBits = s.decBits := rfl
@[simp] theorem startFreq_payBase : (startFreq s).payBase = s.payBase := rfl
@[simp] theorem startFreq_iptr : (startFreq s).iptr = s.iptr := rfl
@[simp] theorem startFreq_optr : (startFreq s).optr = s.optr := rfl
@[simp] theorem startFreq_ft : (startFreq s).ft = s.ft := rfl
@[simp] theorem startFreq_node : (startFreq s).node = s.node := rfl
@[simp] theorem startFreq_ct : (startFreq s).ct = s.ct := rfl
@[simp] theorem startFreq_ibuf : (startFreq s).ibuf = s.ibuf := rfl
@[simp] theorem startFreq_obuf : (startFreq s).obuf = s.obuf := rfl
@[simp] theorem startFreq_obufGen : (startFreq s).obufGen = s.obufGen := rfl
@[simp] theorem startFreq_seq : (startFreq s).seq = s.seq := rfl
@[simp] theorem startFreq_busycnt : (startFreq s).busycnt = s.busycnt := rfl
@[simp] theorem startFreq_work : (startFreq s).work = s.work := rfl
@[simp] theorem startFreq_script : (startFreq s).script = s.script := rfl
@[simp] theorem startFreq_resp : (startFreq s).resp = s.resp := rfl
@[simp] theorem startFreq_draws : (startFreq s).draws = s.draws := rfl
@[simp] theorem startFreq_busy : (startFreq s).busy = s.busy := rfl
@[simp] theorem startFreq_ibufByte (a : Nat) : (startFreq s).ibufByte a = s.ibufByte a := rfl
@[simp] theorem startFreq_obufByte (a : Nat) : (startFreq s).obufByte a = s.obufByte a := rfl

/-! ### `startLoad`: start effects of LOAD (R39) -/

@[simp] theorem startLoad_inCap : (startLoad s).inCap = s.inCap := rfl
@[simp] theorem startLoad_outCap : (startLoad s).outCap = s.outCap := rfl
@[simp] theorem startLoad_done : (startLoad s).done = s.done := rfl
@[simp] theorem startLoad_error : (startLoad s).error = s.error := rfl
@[simp] theorem startLoad_ovr : (startLoad s).ovr = s.ovr := rfl
@[simp] theorem startLoad_ftV : (startLoad s).ftV = false := rfl
@[simp] theorem startLoad_treeV : (startLoad s).treeV = false := rfl
@[simp] theorem startLoad_ctV : (startLoad s).ctV = false := rfl
@[simp] theorem startLoad_payV : (startLoad s).payV = false := rfl
@[simp] theorem startLoad_mid : (startLoad s).mid = s.mid := rfl
@[simp] theorem startLoad_err : (startLoad s).err = s.err := rfl
@[simp] theorem startLoad_lastop : (startLoad s).lastop = s.lastop := rfl
@[simp] theorem startLoad_die : (startLoad s).die = s.die := rfl
@[simp] theorem startLoad_eie : (startLoad s).eie = s.eie := rfl
@[simp] theorem startLoad_inLen : (startLoad s).inLen = s.inLen := rfl
@[simp] theorem startLoad_outLen : (startLoad s).outLen = s.outLen := rfl
@[simp] theorem startLoad_errInfo : (startLoad s).errInfo = s.errInfo := rfl
@[simp] theorem startLoad_ftN : (startLoad s).ftN = 0#9 := rfl
@[simp] theorem startLoad_root : (startLoad s).root = s.root := rfl
@[simp] theorem startLoad_nodeN : (startLoad s).nodeN = s.nodeN := rfl
@[simp] theorem startLoad_encBits : (startLoad s).encBits = s.encBits := rfl
@[simp] theorem startLoad_decBits : (startLoad s).decBits = 0#32 := rfl
@[simp] theorem startLoad_payBase : (startLoad s).payBase = 0#32 := rfl
@[simp] theorem startLoad_iptr : (startLoad s).iptr = s.iptr := rfl
@[simp] theorem startLoad_optr : (startLoad s).optr = s.optr := rfl
@[simp] theorem startLoad_ft : (startLoad s).ft = s.ft := rfl
@[simp] theorem startLoad_node : (startLoad s).node = s.node := rfl
@[simp] theorem startLoad_ct : (startLoad s).ct = s.ct := rfl
@[simp] theorem startLoad_ibuf : (startLoad s).ibuf = s.ibuf := rfl
@[simp] theorem startLoad_obuf : (startLoad s).obuf = s.obuf := rfl
@[simp] theorem startLoad_obufGen : (startLoad s).obufGen = s.obufGen := rfl
@[simp] theorem startLoad_seq : (startLoad s).seq = s.seq := rfl
@[simp] theorem startLoad_busycnt : (startLoad s).busycnt = s.busycnt := rfl
@[simp] theorem startLoad_work : (startLoad s).work = s.work := rfl
@[simp] theorem startLoad_script : (startLoad s).script = s.script := rfl
@[simp] theorem startLoad_resp : (startLoad s).resp = s.resp := rfl
@[simp] theorem startLoad_draws : (startLoad s).draws = s.draws := rfl
@[simp] theorem startLoad_busy : (startLoad s).busy = s.busy := rfl
@[simp] theorem startLoad_ibufByte (a : Nat) : (startLoad s).ibufByte a = s.ibufByte a := rfl
@[simp] theorem startLoad_obufByte (a : Nat) : (startLoad s).obufByte a = s.obufByte a := rfl

/-! ### `startTree`: start effects of TREE (R39) -/

@[simp] theorem startTree_inCap : (startTree s).inCap = s.inCap := rfl
@[simp] theorem startTree_outCap : (startTree s).outCap = s.outCap := rfl
@[simp] theorem startTree_done : (startTree s).done = s.done := rfl
@[simp] theorem startTree_error : (startTree s).error = s.error := rfl
@[simp] theorem startTree_ovr : (startTree s).ovr = s.ovr := rfl
@[simp] theorem startTree_ftV : (startTree s).ftV = s.ftV := rfl
@[simp] theorem startTree_treeV : (startTree s).treeV = false := rfl
@[simp] theorem startTree_ctV : (startTree s).ctV = false := rfl
@[simp] theorem startTree_payV : (startTree s).payV = s.payV := rfl
@[simp] theorem startTree_mid : (startTree s).mid = s.mid := rfl
@[simp] theorem startTree_err : (startTree s).err = s.err := rfl
@[simp] theorem startTree_lastop : (startTree s).lastop = s.lastop := rfl
@[simp] theorem startTree_die : (startTree s).die = s.die := rfl
@[simp] theorem startTree_eie : (startTree s).eie = s.eie := rfl
@[simp] theorem startTree_inLen : (startTree s).inLen = s.inLen := rfl
@[simp] theorem startTree_outLen : (startTree s).outLen = s.outLen := rfl
@[simp] theorem startTree_errInfo : (startTree s).errInfo = s.errInfo := rfl
@[simp] theorem startTree_ftN : (startTree s).ftN = s.ftN := rfl
@[simp] theorem startTree_root : (startTree s).root = 0#9 := rfl
@[simp] theorem startTree_nodeN : (startTree s).nodeN = 0#10 := rfl
@[simp] theorem startTree_encBits : (startTree s).encBits = s.encBits := rfl
@[simp] theorem startTree_decBits : (startTree s).decBits = s.decBits := rfl
@[simp] theorem startTree_payBase : (startTree s).payBase = s.payBase := rfl
@[simp] theorem startTree_iptr : (startTree s).iptr = s.iptr := rfl
@[simp] theorem startTree_optr : (startTree s).optr = s.optr := rfl
@[simp] theorem startTree_ft : (startTree s).ft = s.ft := rfl
@[simp] theorem startTree_node : (startTree s).node = s.node := rfl
@[simp] theorem startTree_ct : (startTree s).ct = s.ct := rfl
@[simp] theorem startTree_ibuf : (startTree s).ibuf = s.ibuf := rfl
@[simp] theorem startTree_obuf : (startTree s).obuf = s.obuf := rfl
@[simp] theorem startTree_obufGen : (startTree s).obufGen = s.obufGen := rfl
@[simp] theorem startTree_seq : (startTree s).seq = s.seq := rfl
@[simp] theorem startTree_busycnt : (startTree s).busycnt = s.busycnt := rfl
@[simp] theorem startTree_work : (startTree s).work = s.work := rfl
@[simp] theorem startTree_script : (startTree s).script = s.script := rfl
@[simp] theorem startTree_resp : (startTree s).resp = s.resp := rfl
@[simp] theorem startTree_draws : (startTree s).draws = s.draws := rfl
@[simp] theorem startTree_busy : (startTree s).busy = s.busy := rfl
@[simp] theorem startTree_ibufByte (a : Nat) : (startTree s).ibufByte a = s.ibufByte a := rfl
@[simp] theorem startTree_obufByte (a : Nat) : (startTree s).obufByte a = s.obufByte a := rfl

/-! ### `startCodes`: start effect of CODES (R39) -/

@[simp] theorem startCodes_inCap : (startCodes s).inCap = s.inCap := rfl
@[simp] theorem startCodes_outCap : (startCodes s).outCap = s.outCap := rfl
@[simp] theorem startCodes_done : (startCodes s).done = s.done := rfl
@[simp] theorem startCodes_error : (startCodes s).error = s.error := rfl
@[simp] theorem startCodes_ovr : (startCodes s).ovr = s.ovr := rfl
@[simp] theorem startCodes_ftV : (startCodes s).ftV = s.ftV := rfl
@[simp] theorem startCodes_treeV : (startCodes s).treeV = s.treeV := rfl
@[simp] theorem startCodes_ctV : (startCodes s).ctV = false := rfl
@[simp] theorem startCodes_payV : (startCodes s).payV = s.payV := rfl
@[simp] theorem startCodes_mid : (startCodes s).mid = s.mid := rfl
@[simp] theorem startCodes_err : (startCodes s).err = s.err := rfl
@[simp] theorem startCodes_lastop : (startCodes s).lastop = s.lastop := rfl
@[simp] theorem startCodes_die : (startCodes s).die = s.die := rfl
@[simp] theorem startCodes_eie : (startCodes s).eie = s.eie := rfl
@[simp] theorem startCodes_inLen : (startCodes s).inLen = s.inLen := rfl
@[simp] theorem startCodes_outLen : (startCodes s).outLen = s.outLen := rfl
@[simp] theorem startCodes_errInfo : (startCodes s).errInfo = s.errInfo := rfl
@[simp] theorem startCodes_ftN : (startCodes s).ftN = s.ftN := rfl
@[simp] theorem startCodes_root : (startCodes s).root = s.root := rfl
@[simp] theorem startCodes_nodeN : (startCodes s).nodeN = s.nodeN := rfl
@[simp] theorem startCodes_encBits : (startCodes s).encBits = s.encBits := rfl
@[simp] theorem startCodes_decBits : (startCodes s).decBits = s.decBits := rfl
@[simp] theorem startCodes_payBase : (startCodes s).payBase = s.payBase := rfl
@[simp] theorem startCodes_iptr : (startCodes s).iptr = s.iptr := rfl
@[simp] theorem startCodes_optr : (startCodes s).optr = s.optr := rfl
@[simp] theorem startCodes_ft : (startCodes s).ft = s.ft := rfl
@[simp] theorem startCodes_node : (startCodes s).node = s.node := rfl
@[simp] theorem startCodes_ct : (startCodes s).ct = s.ct := rfl
@[simp] theorem startCodes_ibuf : (startCodes s).ibuf = s.ibuf := rfl
@[simp] theorem startCodes_obuf : (startCodes s).obuf = s.obuf := rfl
@[simp] theorem startCodes_obufGen : (startCodes s).obufGen = s.obufGen := rfl
@[simp] theorem startCodes_seq : (startCodes s).seq = s.seq := rfl
@[simp] theorem startCodes_busycnt : (startCodes s).busycnt = s.busycnt := rfl
@[simp] theorem startCodes_work : (startCodes s).work = s.work := rfl
@[simp] theorem startCodes_script : (startCodes s).script = s.script := rfl
@[simp] theorem startCodes_resp : (startCodes s).resp = s.resp := rfl
@[simp] theorem startCodes_draws : (startCodes s).draws = s.draws := rfl
@[simp] theorem startCodes_busy : (startCodes s).busy = s.busy := rfl
@[simp] theorem startCodes_ibufByte (a : Nat) : (startCodes s).ibufByte a = s.ibufByte a := rfl
@[simp] theorem startCodes_obufByte (a : Nat) : (startCodes s).obufByte a = s.obufByte a := rfl

/-! ### `startPack`: start effects of PACK (R39) -/

@[simp] theorem startPack_inCap : (startPack s).inCap = s.inCap := rfl
@[simp] theorem startPack_outCap : (startPack s).outCap = s.outCap := rfl
@[simp] theorem startPack_done : (startPack s).done = s.done := rfl
@[simp] theorem startPack_error : (startPack s).error = s.error := rfl
@[simp] theorem startPack_ovr : (startPack s).ovr = s.ovr := rfl
@[simp] theorem startPack_ftV : (startPack s).ftV = s.ftV := rfl
@[simp] theorem startPack_treeV : (startPack s).treeV = s.treeV := rfl
@[simp] theorem startPack_ctV : (startPack s).ctV = s.ctV := rfl
@[simp] theorem startPack_payV : (startPack s).payV = s.payV := rfl
@[simp] theorem startPack_mid : (startPack s).mid = s.mid := rfl
@[simp] theorem startPack_err : (startPack s).err = s.err := rfl
@[simp] theorem startPack_lastop : (startPack s).lastop = s.lastop := rfl
@[simp] theorem startPack_die : (startPack s).die = s.die := rfl
@[simp] theorem startPack_eie : (startPack s).eie = s.eie := rfl
@[simp] theorem startPack_inLen : (startPack s).inLen = s.inLen := rfl
@[simp] theorem startPack_outLen : (startPack s).outLen = 0#32 := rfl
@[simp] theorem startPack_errInfo : (startPack s).errInfo = s.errInfo := rfl
@[simp] theorem startPack_ftN : (startPack s).ftN = s.ftN := rfl
@[simp] theorem startPack_root : (startPack s).root = s.root := rfl
@[simp] theorem startPack_nodeN : (startPack s).nodeN = s.nodeN := rfl
@[simp] theorem startPack_encBits : (startPack s).encBits = 0#32 := rfl
@[simp] theorem startPack_decBits : (startPack s).decBits = s.decBits := rfl
@[simp] theorem startPack_payBase : (startPack s).payBase = s.payBase := rfl
@[simp] theorem startPack_iptr : (startPack s).iptr = s.iptr := rfl
@[simp] theorem startPack_optr : (startPack s).optr = s.optr := rfl
@[simp] theorem startPack_ft : (startPack s).ft = s.ft := rfl
@[simp] theorem startPack_node : (startPack s).node = s.node := rfl
@[simp] theorem startPack_ct : (startPack s).ct = s.ct := rfl
@[simp] theorem startPack_ibuf : (startPack s).ibuf = s.ibuf := rfl
@[simp] theorem startPack_obuf : (startPack s).obuf = s.obuf := rfl
@[simp] theorem startPack_obufGen : (startPack s).obufGen = s.obufGen := rfl
@[simp] theorem startPack_seq : (startPack s).seq = s.seq := rfl
@[simp] theorem startPack_busycnt : (startPack s).busycnt = s.busycnt := rfl
@[simp] theorem startPack_work : (startPack s).work = s.work := rfl
@[simp] theorem startPack_script : (startPack s).script = s.script := rfl
@[simp] theorem startPack_resp : (startPack s).resp = s.resp := rfl
@[simp] theorem startPack_draws : (startPack s).draws = s.draws := rfl
@[simp] theorem startPack_busy : (startPack s).busy = s.busy := rfl
@[simp] theorem startPack_ibufByte (a : Nat) : (startPack s).ibufByte a = s.ibufByte a := rfl
@[simp] theorem startPack_obufByte (a : Nat) : (startPack s).obufByte a = s.obufByte a := rfl

/-! ### `startWalk`: start effect of WALK (R39) -/

@[simp] theorem startWalk_inCap : (startWalk s).inCap = s.inCap := rfl
@[simp] theorem startWalk_outCap : (startWalk s).outCap = s.outCap := rfl
@[simp] theorem startWalk_done : (startWalk s).done = s.done := rfl
@[simp] theorem startWalk_error : (startWalk s).error = s.error := rfl
@[simp] theorem startWalk_ovr : (startWalk s).ovr = s.ovr := rfl
@[simp] theorem startWalk_ftV : (startWalk s).ftV = s.ftV := rfl
@[simp] theorem startWalk_treeV : (startWalk s).treeV = s.treeV := rfl
@[simp] theorem startWalk_ctV : (startWalk s).ctV = s.ctV := rfl
@[simp] theorem startWalk_payV : (startWalk s).payV = s.payV := rfl
@[simp] theorem startWalk_mid : (startWalk s).mid = s.mid := rfl
@[simp] theorem startWalk_err : (startWalk s).err = s.err := rfl
@[simp] theorem startWalk_lastop : (startWalk s).lastop = s.lastop := rfl
@[simp] theorem startWalk_die : (startWalk s).die = s.die := rfl
@[simp] theorem startWalk_eie : (startWalk s).eie = s.eie := rfl
@[simp] theorem startWalk_inLen : (startWalk s).inLen = s.inLen := rfl
@[simp] theorem startWalk_outLen : (startWalk s).outLen = 0#32 := rfl
@[simp] theorem startWalk_errInfo : (startWalk s).errInfo = s.errInfo := rfl
@[simp] theorem startWalk_ftN : (startWalk s).ftN = s.ftN := rfl
@[simp] theorem startWalk_root : (startWalk s).root = s.root := rfl
@[simp] theorem startWalk_nodeN : (startWalk s).nodeN = s.nodeN := rfl
@[simp] theorem startWalk_encBits : (startWalk s).encBits = s.encBits := rfl
@[simp] theorem startWalk_decBits : (startWalk s).decBits = s.decBits := rfl
@[simp] theorem startWalk_payBase : (startWalk s).payBase = s.payBase := rfl
@[simp] theorem startWalk_iptr : (startWalk s).iptr = s.iptr := rfl
@[simp] theorem startWalk_optr : (startWalk s).optr = s.optr := rfl
@[simp] theorem startWalk_ft : (startWalk s).ft = s.ft := rfl
@[simp] theorem startWalk_node : (startWalk s).node = s.node := rfl
@[simp] theorem startWalk_ct : (startWalk s).ct = s.ct := rfl
@[simp] theorem startWalk_ibuf : (startWalk s).ibuf = s.ibuf := rfl
@[simp] theorem startWalk_obuf : (startWalk s).obuf = s.obuf := rfl
@[simp] theorem startWalk_obufGen : (startWalk s).obufGen = s.obufGen := rfl
@[simp] theorem startWalk_seq : (startWalk s).seq = s.seq := rfl
@[simp] theorem startWalk_busycnt : (startWalk s).busycnt = s.busycnt := rfl
@[simp] theorem startWalk_work : (startWalk s).work = s.work := rfl
@[simp] theorem startWalk_script : (startWalk s).script = s.script := rfl
@[simp] theorem startWalk_resp : (startWalk s).resp = s.resp := rfl
@[simp] theorem startWalk_draws : (startWalk s).draws = s.draws := rfl
@[simp] theorem startWalk_busy : (startWalk s).busy = s.busy := rfl
@[simp] theorem startWalk_ibufByte (a : Nat) : (startWalk s).ibufByte a = s.ibufByte a := rfl
@[simp] theorem startWalk_obufByte (a : Nat) : (startWalk s).obufByte a = s.obufByte a := rfl

/-! ### `writeStatus`: a host write to STATUS (R14) -/

@[simp] theorem writeStatus_inCap (w : Word) : (writeStatus w s).inCap = s.inCap := rfl
@[simp] theorem writeStatus_outCap (w : Word) : (writeStatus w s).outCap = s.outCap := rfl
@[simp] theorem writeStatus_done (w : Word) : (writeStatus w s).done = (s.done && !w.getLsbD 1) := rfl
@[simp] theorem writeStatus_error (w : Word) : (writeStatus w s).error = s.error := rfl
@[simp] theorem writeStatus_ovr (w : Word) : (writeStatus w s).ovr = (s.ovr && !w.getLsbD 3) := rfl
@[simp] theorem writeStatus_ftV (w : Word) : (writeStatus w s).ftV = s.ftV := rfl
@[simp] theorem writeStatus_treeV (w : Word) : (writeStatus w s).treeV = s.treeV := rfl
@[simp] theorem writeStatus_ctV (w : Word) : (writeStatus w s).ctV = s.ctV := rfl
@[simp] theorem writeStatus_payV (w : Word) : (writeStatus w s).payV = s.payV := rfl
@[simp] theorem writeStatus_mid (w : Word) : (writeStatus w s).mid = s.mid := rfl
@[simp] theorem writeStatus_err (w : Word) : (writeStatus w s).err = s.err := rfl
@[simp] theorem writeStatus_lastop (w : Word) : (writeStatus w s).lastop = s.lastop := rfl
@[simp] theorem writeStatus_die (w : Word) : (writeStatus w s).die = s.die := rfl
@[simp] theorem writeStatus_eie (w : Word) : (writeStatus w s).eie = s.eie := rfl
@[simp] theorem writeStatus_inLen (w : Word) : (writeStatus w s).inLen = s.inLen := rfl
@[simp] theorem writeStatus_outLen (w : Word) : (writeStatus w s).outLen = s.outLen := rfl
@[simp] theorem writeStatus_errInfo (w : Word) : (writeStatus w s).errInfo = s.errInfo := rfl
@[simp] theorem writeStatus_ftN (w : Word) : (writeStatus w s).ftN = s.ftN := rfl
@[simp] theorem writeStatus_root (w : Word) : (writeStatus w s).root = s.root := rfl
@[simp] theorem writeStatus_nodeN (w : Word) : (writeStatus w s).nodeN = s.nodeN := rfl
@[simp] theorem writeStatus_encBits (w : Word) : (writeStatus w s).encBits = s.encBits := rfl
@[simp] theorem writeStatus_decBits (w : Word) : (writeStatus w s).decBits = s.decBits := rfl
@[simp] theorem writeStatus_payBase (w : Word) : (writeStatus w s).payBase = s.payBase := rfl
@[simp] theorem writeStatus_iptr (w : Word) : (writeStatus w s).iptr = s.iptr := rfl
@[simp] theorem writeStatus_optr (w : Word) : (writeStatus w s).optr = s.optr := rfl
@[simp] theorem writeStatus_ft (w : Word) : (writeStatus w s).ft = s.ft := rfl
@[simp] theorem writeStatus_node (w : Word) : (writeStatus w s).node = s.node := rfl
@[simp] theorem writeStatus_ct (w : Word) : (writeStatus w s).ct = s.ct := rfl
@[simp] theorem writeStatus_ibuf (w : Word) : (writeStatus w s).ibuf = s.ibuf := rfl
@[simp] theorem writeStatus_obuf (w : Word) : (writeStatus w s).obuf = s.obuf := rfl
@[simp] theorem writeStatus_obufGen (w : Word) : (writeStatus w s).obufGen = s.obufGen := rfl
@[simp] theorem writeStatus_seq (w : Word) : (writeStatus w s).seq = s.seq := rfl
@[simp] theorem writeStatus_busycnt (w : Word) : (writeStatus w s).busycnt = s.busycnt := rfl
@[simp] theorem writeStatus_work (w : Word) : (writeStatus w s).work = s.work := rfl
@[simp] theorem writeStatus_script (w : Word) : (writeStatus w s).script = s.script := rfl
@[simp] theorem writeStatus_resp (w : Word) : (writeStatus w s).resp = s.resp := rfl
@[simp] theorem writeStatus_draws (w : Word) : (writeStatus w s).draws = s.draws := rfl
@[simp] theorem writeStatus_busy (w : Word) : (writeStatus w s).busy = s.busy := rfl
@[simp] theorem writeStatus_ibufByte (w : Word) (a : Nat) : (writeStatus w s).ibufByte a = s.ibufByte a := rfl
@[simp] theorem writeStatus_obufByte (w : Word) (a : Nat) : (writeStatus w s).obufByte a = s.obufByte a := rfl

/-! ### `writeCtrl`: a host write to CTRL (R15) -/

@[simp] theorem writeCtrl_inCap (w : Word) : (writeCtrl w s).inCap = s.inCap := rfl
@[simp] theorem writeCtrl_outCap (w : Word) : (writeCtrl w s).outCap = s.outCap := rfl
@[simp] theorem writeCtrl_done (w : Word) : (writeCtrl w s).done = s.done := rfl
@[simp] theorem writeCtrl_error (w : Word) : (writeCtrl w s).error = s.error := rfl
@[simp] theorem writeCtrl_ovr (w : Word) : (writeCtrl w s).ovr = s.ovr := rfl
@[simp] theorem writeCtrl_ftV (w : Word) : (writeCtrl w s).ftV = s.ftV := rfl
@[simp] theorem writeCtrl_treeV (w : Word) : (writeCtrl w s).treeV = s.treeV := rfl
@[simp] theorem writeCtrl_ctV (w : Word) : (writeCtrl w s).ctV = s.ctV := rfl
@[simp] theorem writeCtrl_payV (w : Word) : (writeCtrl w s).payV = s.payV := rfl
@[simp] theorem writeCtrl_mid (w : Word) : (writeCtrl w s).mid = s.mid := rfl
@[simp] theorem writeCtrl_err (w : Word) : (writeCtrl w s).err = s.err := rfl
@[simp] theorem writeCtrl_lastop (w : Word) : (writeCtrl w s).lastop = s.lastop := rfl
@[simp] theorem writeCtrl_die (w : Word) : (writeCtrl w s).die = w.getLsbD 0 := rfl
@[simp] theorem writeCtrl_eie (w : Word) : (writeCtrl w s).eie = w.getLsbD 1 := rfl
@[simp] theorem writeCtrl_inLen (w : Word) : (writeCtrl w s).inLen = s.inLen := rfl
@[simp] theorem writeCtrl_outLen (w : Word) : (writeCtrl w s).outLen = s.outLen := rfl
@[simp] theorem writeCtrl_errInfo (w : Word) : (writeCtrl w s).errInfo = s.errInfo := rfl
@[simp] theorem writeCtrl_ftN (w : Word) : (writeCtrl w s).ftN = s.ftN := rfl
@[simp] theorem writeCtrl_root (w : Word) : (writeCtrl w s).root = s.root := rfl
@[simp] theorem writeCtrl_nodeN (w : Word) : (writeCtrl w s).nodeN = s.nodeN := rfl
@[simp] theorem writeCtrl_encBits (w : Word) : (writeCtrl w s).encBits = s.encBits := rfl
@[simp] theorem writeCtrl_decBits (w : Word) : (writeCtrl w s).decBits = s.decBits := rfl
@[simp] theorem writeCtrl_payBase (w : Word) : (writeCtrl w s).payBase = s.payBase := rfl
@[simp] theorem writeCtrl_iptr (w : Word) : (writeCtrl w s).iptr = s.iptr := rfl
@[simp] theorem writeCtrl_optr (w : Word) : (writeCtrl w s).optr = s.optr := rfl
@[simp] theorem writeCtrl_ft (w : Word) : (writeCtrl w s).ft = s.ft := rfl
@[simp] theorem writeCtrl_node (w : Word) : (writeCtrl w s).node = s.node := rfl
@[simp] theorem writeCtrl_ct (w : Word) : (writeCtrl w s).ct = s.ct := rfl
@[simp] theorem writeCtrl_ibuf (w : Word) : (writeCtrl w s).ibuf = s.ibuf := rfl
@[simp] theorem writeCtrl_obuf (w : Word) : (writeCtrl w s).obuf = s.obuf := rfl
@[simp] theorem writeCtrl_obufGen (w : Word) : (writeCtrl w s).obufGen = s.obufGen := rfl
@[simp] theorem writeCtrl_seq (w : Word) : (writeCtrl w s).seq = s.seq := rfl
@[simp] theorem writeCtrl_busycnt (w : Word) : (writeCtrl w s).busycnt = s.busycnt := rfl
@[simp] theorem writeCtrl_work (w : Word) : (writeCtrl w s).work = s.work := rfl
@[simp] theorem writeCtrl_script (w : Word) : (writeCtrl w s).script = s.script := rfl
@[simp] theorem writeCtrl_resp (w : Word) : (writeCtrl w s).resp = s.resp := rfl
@[simp] theorem writeCtrl_draws (w : Word) : (writeCtrl w s).draws = s.draws := rfl
@[simp] theorem writeCtrl_busy (w : Word) : (writeCtrl w s).busy = s.busy := rfl
@[simp] theorem writeCtrl_ibufByte (w : Word) (a : Nat) : (writeCtrl w s).ibufByte a = s.ibufByte a := rfl
@[simp] theorem writeCtrl_obufByte (w : Word) (a : Nat) : (writeCtrl w s).obufByte a = s.obufByte a := rfl

/-! ### `putTable`: writing FT (R141) -/

@[simp] theorem putTable_inCap (l : List FtEntry) : (putTable l s).inCap = s.inCap := rfl
@[simp] theorem putTable_outCap (l : List FtEntry) : (putTable l s).outCap = s.outCap := rfl
@[simp] theorem putTable_done (l : List FtEntry) : (putTable l s).done = s.done := rfl
@[simp] theorem putTable_error (l : List FtEntry) : (putTable l s).error = s.error := rfl
@[simp] theorem putTable_ovr (l : List FtEntry) : (putTable l s).ovr = s.ovr := rfl
@[simp] theorem putTable_ftV (l : List FtEntry) : (putTable l s).ftV = s.ftV := rfl
@[simp] theorem putTable_treeV (l : List FtEntry) : (putTable l s).treeV = s.treeV := rfl
@[simp] theorem putTable_ctV (l : List FtEntry) : (putTable l s).ctV = s.ctV := rfl
@[simp] theorem putTable_payV (l : List FtEntry) : (putTable l s).payV = s.payV := rfl
@[simp] theorem putTable_mid (l : List FtEntry) : (putTable l s).mid = s.mid := rfl
@[simp] theorem putTable_err (l : List FtEntry) : (putTable l s).err = s.err := rfl
@[simp] theorem putTable_lastop (l : List FtEntry) : (putTable l s).lastop = s.lastop := rfl
@[simp] theorem putTable_die (l : List FtEntry) : (putTable l s).die = s.die := rfl
@[simp] theorem putTable_eie (l : List FtEntry) : (putTable l s).eie = s.eie := rfl
@[simp] theorem putTable_inLen (l : List FtEntry) : (putTable l s).inLen = s.inLen := rfl
@[simp] theorem putTable_outLen (l : List FtEntry) : (putTable l s).outLen = s.outLen := rfl
@[simp] theorem putTable_errInfo (l : List FtEntry) : (putTable l s).errInfo = s.errInfo := rfl
@[simp] theorem putTable_ftN (l : List FtEntry) : (putTable l s).ftN = s.ftN := rfl
@[simp] theorem putTable_root (l : List FtEntry) : (putTable l s).root = s.root := rfl
@[simp] theorem putTable_nodeN (l : List FtEntry) : (putTable l s).nodeN = s.nodeN := rfl
@[simp] theorem putTable_encBits (l : List FtEntry) : (putTable l s).encBits = s.encBits := rfl
@[simp] theorem putTable_decBits (l : List FtEntry) : (putTable l s).decBits = s.decBits := rfl
@[simp] theorem putTable_payBase (l : List FtEntry) : (putTable l s).payBase = s.payBase := rfl
@[simp] theorem putTable_iptr (l : List FtEntry) : (putTable l s).iptr = s.iptr := rfl
@[simp] theorem putTable_optr (l : List FtEntry) : (putTable l s).optr = s.optr := rfl
@[simp] theorem putTable_ft (l : List FtEntry) : (putTable l s).ft = tableOverlay s.ft l := rfl
@[simp] theorem putTable_node (l : List FtEntry) : (putTable l s).node = s.node := rfl
@[simp] theorem putTable_ct (l : List FtEntry) : (putTable l s).ct = s.ct := rfl
@[simp] theorem putTable_ibuf (l : List FtEntry) : (putTable l s).ibuf = s.ibuf := rfl
@[simp] theorem putTable_obuf (l : List FtEntry) : (putTable l s).obuf = s.obuf := rfl
@[simp] theorem putTable_obufGen (l : List FtEntry) : (putTable l s).obufGen = s.obufGen := rfl
@[simp] theorem putTable_seq (l : List FtEntry) : (putTable l s).seq = s.seq := rfl
@[simp] theorem putTable_busycnt (l : List FtEntry) : (putTable l s).busycnt = s.busycnt := rfl
@[simp] theorem putTable_work (l : List FtEntry) : (putTable l s).work = s.work := rfl
@[simp] theorem putTable_script (l : List FtEntry) : (putTable l s).script = s.script := rfl
@[simp] theorem putTable_resp (l : List FtEntry) : (putTable l s).resp = s.resp := rfl
@[simp] theorem putTable_draws (l : List FtEntry) : (putTable l s).draws = s.draws := rfl
@[simp] theorem putTable_busy (l : List FtEntry) : (putTable l s).busy = s.busy := rfl
@[simp] theorem putTable_ibufByte (l : List FtEntry) (a : Nat) : (putTable l s).ibufByte a = s.ibufByte a := rfl
@[simp] theorem putTable_obufByte (l : List FtEntry) (a : Nat) : (putTable l s).obufByte a = s.obufByte a := rfl

/-! ### `answer`: the port's answer (R57) -/

@[simp] theorem answer_inCap (r : Resp) : (answer r s).inCap = s.inCap := rfl
@[simp] theorem answer_outCap (r : Resp) : (answer r s).outCap = s.outCap := rfl
@[simp] theorem answer_done (r : Resp) : (answer r s).done = s.done := rfl
@[simp] theorem answer_error (r : Resp) : (answer r s).error = s.error := rfl
@[simp] theorem answer_ovr (r : Resp) : (answer r s).ovr = s.ovr := rfl
@[simp] theorem answer_ftV (r : Resp) : (answer r s).ftV = s.ftV := rfl
@[simp] theorem answer_treeV (r : Resp) : (answer r s).treeV = s.treeV := rfl
@[simp] theorem answer_ctV (r : Resp) : (answer r s).ctV = s.ctV := rfl
@[simp] theorem answer_payV (r : Resp) : (answer r s).payV = s.payV := rfl
@[simp] theorem answer_mid (r : Resp) : (answer r s).mid = s.mid := rfl
@[simp] theorem answer_err (r : Resp) : (answer r s).err = s.err := rfl
@[simp] theorem answer_lastop (r : Resp) : (answer r s).lastop = s.lastop := rfl
@[simp] theorem answer_die (r : Resp) : (answer r s).die = s.die := rfl
@[simp] theorem answer_eie (r : Resp) : (answer r s).eie = s.eie := rfl
@[simp] theorem answer_inLen (r : Resp) : (answer r s).inLen = s.inLen := rfl
@[simp] theorem answer_outLen (r : Resp) : (answer r s).outLen = s.outLen := rfl
@[simp] theorem answer_errInfo (r : Resp) : (answer r s).errInfo = s.errInfo := rfl
@[simp] theorem answer_ftN (r : Resp) : (answer r s).ftN = s.ftN := rfl
@[simp] theorem answer_root (r : Resp) : (answer r s).root = s.root := rfl
@[simp] theorem answer_nodeN (r : Resp) : (answer r s).nodeN = s.nodeN := rfl
@[simp] theorem answer_encBits (r : Resp) : (answer r s).encBits = s.encBits := rfl
@[simp] theorem answer_decBits (r : Resp) : (answer r s).decBits = s.decBits := rfl
@[simp] theorem answer_payBase (r : Resp) : (answer r s).payBase = s.payBase := rfl
@[simp] theorem answer_iptr (r : Resp) : (answer r s).iptr = s.iptr := rfl
@[simp] theorem answer_optr (r : Resp) : (answer r s).optr = s.optr := rfl
@[simp] theorem answer_ft (r : Resp) : (answer r s).ft = s.ft := rfl
@[simp] theorem answer_node (r : Resp) : (answer r s).node = s.node := rfl
@[simp] theorem answer_ct (r : Resp) : (answer r s).ct = s.ct := rfl
@[simp] theorem answer_ibuf (r : Resp) : (answer r s).ibuf = s.ibuf := rfl
@[simp] theorem answer_obuf (r : Resp) : (answer r s).obuf = s.obuf := rfl
@[simp] theorem answer_obufGen (r : Resp) : (answer r s).obufGen = s.obufGen := rfl
@[simp] theorem answer_seq (r : Resp) : (answer r s).seq = s.seq := rfl
@[simp] theorem answer_busycnt (r : Resp) : (answer r s).busycnt = s.busycnt := rfl
@[simp] theorem answer_work (r : Resp) : (answer r s).work = s.work := rfl
@[simp] theorem answer_script (r : Resp) : (answer r s).script = s.script := rfl
@[simp] theorem answer_resp (r : Resp) : (answer r s).resp = some r := rfl
@[simp] theorem answer_draws (r : Resp) : (answer r s).draws = s.draws := rfl
@[simp] theorem answer_busy (r : Resp) : (answer r s).busy = s.busy := rfl
@[simp] theorem answer_ibufByte (r : Resp) (a : Nat) : (answer r s).ibufByte a = s.ibufByte a := rfl
@[simp] theorem answer_obufByte (r : Resp) (a : Nat) : (answer r s).obufByte a = s.obufByte a := rfl

end Sys2Proof.Machine
end

