-- ==== Sys2Proof/Laws/Units.lean ====
section
/-! SUPPORT. What each unit body can come to, said once: where it ends, and the state it ends in, field by field of the
fields it writes. -/

namespace Sys2Proof.Machine

/-- FREQ (R101): its two errors after the start effects, or a table. -/
theorem bodyFreq_cases (s : State) :
    (s.inLen = 0#32 ∧ bodyFreq s = .raise .empty 0#32 (startFreq s)) ∨
    (s.inLen ≠ 0#32 ∧ s.inCap < s.inLen.toNat ∧ bodyFreq s = .raise .inlen s.inLen (startFreq s)) ∨
    (s.inLen ≠ 0#32 ∧ s.inLen.toNat ≤ s.inCap ∧ ∃ w, w.cmdl = s.work.cmdl ∧ bodyFreq s = .ok { startFreq s with
      ft := tableOverlay s.ft (freqTable s.input), ftN := BitVec.ofNat 9 (freqTable s.input).length, ftV := true,
      work := w }) := by
  by_cases h0 : s.inLen = 0#32
  · exact .inl ⟨h0, by simp [bodyFreq, startFreq, h0]⟩
  · by_cases h1 : s.inCap < s.inLen.toNat
    · exact .inr (.inl ⟨h0, h1, by simp [bodyFreq, startFreq, h0, h1]⟩)
    · refine .inr (.inr ⟨h0, by omega, { s.work with
        hist := (scanInput s.input).hist, disc := (scanInput s.input).disc, ipos := s.inLen }, rfl, ?_⟩)
      have hi : (startFreq s).input = s.input := rfl
      rw [bodyFreq]
      simp only [startFreq_inLen, startFreq_inCap, h0, h1, if_false, hi]
      rfl

/-- TREE (R111): ERR_SEQ, no meaning, or a tree. -/
theorem bodyTree_cases (s : State) :
    (s.ftV = false ∧ bodyTree s = .raise .seq 0#32 s) ∨
    (s.ftV = true ∧ 256 < s.ftN.toNat ∧ bodyTree s = .fault (.ftCount s.ftN.toNat)) ∨
    (s.ftV = true ∧ s.ftN.toNat ≤ 256 ∧ buildTree (s.ftList.map FtEntry.sym) = none ∧
      bodyTree s = .fault (.ftCount s.ftN.toNat)) ∨
    (s.ftV = true ∧ s.ftN.toNat ≤ 256 ∧ ∃ b w, buildTree (s.ftList.map FtEntry.sym) = some b ∧
      w.cmdl = s.work.cmdl ∧ bodyTree s = .ok { startTree s with
        node := tableOverlay s.node b.arena, nodeN := BitVec.ofNat 10 b.arena.length, root := b.root, treeV := true,
        work := w }) := by
  cases h0 : s.ftV
  · exact .inl ⟨rfl, by simp [bodyTree, h0]⟩
  · by_cases h1 : 256 < s.ftN.toNat
    · exact .inr (.inl ⟨rfl, h1, by simp [bodyTree, h0, h1]⟩)
    · cases hb : buildTree (s.ftList.map FtEntry.sym) with
      | none => exact .inr (.inr (.inl ⟨rfl, by omega, rfl, by
          have hb' : buildTree ((startTree s).ftList.map FtEntry.sym) = none := hb
          simp only [bodyTree, h0, Bool.not_true, Bool.false_eq_true, if_false, h1, hb']⟩))
      | some b => exact .inr (.inr (.inr ⟨rfl, by omega, b, { s.work with qa := [], qb := [] }, rfl, rfl, by
          have hb' : buildTree ((startTree s).ftList.map FtEntry.sym) = some b := hb
          simp only [bodyTree, h0, Bool.not_true, Bool.false_eq_true, if_false, h1, hb']; rfl⟩))

/-- `visit` raises nothing but ERR_INVARIANT and faults nowhere but on the depth. -/
theorem visit_cases (node : Table NodeEntry 9) (frames : Nat) (k : NodeIdx) (code : BitVec 8) (len : Nat)
    (ct : Table CtEntry 8) :
    (∃ ct1, visit node frames k code len ct = .ok ct1) ∨
    (∃ j ct1, visit node frames k code len ct = .raise .invariant j ct1) ∨
    (∃ j, visit node frames k code len ct = .fault (.stackDepth j)) := by
  induction frames generalizing k code len ct with
  | zero => exact .inr (.inr ⟨k, rfl⟩)
  | succ n ih =>
    rw [visit]
    split
    · split
      · exact .inr (.inl ⟨_, _, rfl⟩)
      · exact .inl ⟨_, rfl⟩
    · rcases ih (tableGet node k).left code (len + 1) ct with ⟨ct1, h⟩ | ⟨j, ct1, h⟩ | ⟨j, h⟩
      · rw [h, andThen_ok]
        split
        · exact .inl ⟨_, rfl⟩
        · exact ih _ _ _ _
      · rw [h]; exact .inr (.inl ⟨j, ct1, rfl⟩)
      · rw [h]; exact .inr (.inr ⟨j, rfl⟩)

/-- CODES (R121): ERR_SEQ, a code table, ERR_INVARIANT with CT_V = 0, or no meaning. -/
theorem bodyCodes_cases (s : State) :
    (s.treeV = false ∧ bodyCodes s = .raise .seq 0#32 s) ∨
    (s.treeV = true ∧ ∃ ct w, buildCodes s.node s.root = .ok ct ∧ w.cmdl = s.work.cmdl ∧
      bodyCodes s = .ok { startCodes s with ct := ct, ctV := true, work := w }) ∨
    (s.treeV = true ∧ ∃ j ct w, buildCodes s.node s.root = .raise .invariant j ct ∧ w.cmdl = s.work.cmdl ∧
      bodyCodes s = .raise .invariant j { startCodes s with ct := ct, work := w }) ∨
    (s.treeV = true ∧ ∃ j, buildCodes s.node s.root = .fault (.stackDepth j) ∧ bodyCodes s = .fault (.stackDepth j)) := by
  cases h0 : s.treeV
  · exact .inl ⟨rfl, by simp [bodyCodes, h0]⟩
  · rcases visit_cases s.node 9 s.root 0#8 0 clearCodes with ⟨ct, h⟩ | ⟨j, ct, h⟩ | ⟨j, h⟩
    · have hb : buildCodes s.node s.root = .ok ct := h
      have hb' : buildCodes (startCodes s).node (startCodes s).root = .ok ct := h
      exact .inr (.inl ⟨rfl, ct, { s.work with stack := [] }, hb, rfl, by
        simp only [bodyCodes, h0, Bool.not_true, Bool.false_eq_true, if_false, hb']; rfl⟩)
    · have hb : buildCodes s.node s.root = .raise .invariant j ct := h
      have hb' : buildCodes (startCodes s).node (startCodes s).root = .raise .invariant j ct := h
      exact .inr (.inr (.inl ⟨rfl, j, ct, { s.work with stack := [] }, hb, rfl, by
        simp only [bodyCodes, h0, Bool.not_true, Bool.false_eq_true, if_false, hb']; rfl⟩))
    · have hb : buildCodes s.node s.root = .fault (.stackDepth j) := h
      have hb' : buildCodes (startCodes s).node (startCodes s).root = .fault (.stackDepth j) := h
      exact .inr (.inr (.inr ⟨rfl, j, hb, by
        simp only [bodyCodes, h0, Bool.not_true, Bool.false_eq_true, if_false, hb']⟩))

/-! ### PACK -/

/-- Everything `packFlush` can do. -/
theorem packFlush_cases (outCap : Nat) (info : Word) (p : Packer) :
    (outCap ≤ p.opos ∧ packFlush outCap info p = .raise .overflow info p) ∨
    (p.opos < outCap ∧ packFlush outCap info p =
      .ok { p with obuf := memWrite p.obuf p.opos p.acc, opos := p.opos + 1, acc := 0#8, accN := 0 }) := by
  by_cases h : outCap ≤ p.opos
  · exact .inl ⟨h, by simp [packFlush, h]⟩
  · exact .inr ⟨by omega, by simp [packFlush, h]⟩

/-- A loop of PACK ends, or raises one of the codes its iterations raise; it never faults. -/
theorem runList_cases {σ α : Type} {f : α → σ → Run σ} {P : ErrCode → Prop}
    (h : ∀ a s, (∃ t, f a s = .ok t) ∨ ∃ e i t, P e ∧ f a s = .raise e i t) (l : List α) (s : σ) :
    (∃ t, runList f l s = .ok t) ∨ ∃ e i t, P e ∧ runList f l s = .raise e i t := by
  induction l generalizing s with
  | nil => exact .inl ⟨s, rfl⟩
  | cons a l ih =>
    rw [runList_cons]
    rcases h a s with ⟨t, ht⟩ | ⟨e, i, t, he, ht⟩
    · rw [ht]; exact ih t
    · rw [ht]; exact .inr ⟨e, i, t, he, rfl⟩

theorem packBit_cases (outCap : Nat) (b : Bool) (p : Packer) :
    (∃ q, packBit outCap b p = .ok q) ∨ ∃ e i q, e = ErrCode.overflow ∧ packBit outCap b p = .raise e i q := by
  rw [packBit]
  simp only
  split
  · rcases packFlush_cases outCap (BitVec.ofNat 32 p.ipos) _ with ⟨_, h⟩ | ⟨_, h⟩
    · exact .inr ⟨_, _, _, rfl, h⟩
    · exact .inl ⟨_, h⟩
  · exact .inl ⟨_, rfl⟩

theorem packByte_cases (outCap : Nat) (ct : Table CtEntry 8) (b : Byte) (p : Packer) :
    (∃ q, packByte outCap ct b p = .ok q) ∨
    ∃ e i q, (e = ErrCode.overflow ∨ e = .invariant) ∧ packByte outCap ct b p = .raise e i q := by
  rw [packByte]
  split
  · rcases runList_cases (packBit_cases outCap) (codeBits (tableGet ct b)) p with ⟨q, h⟩ | ⟨e, i, q, he, h⟩
    · rw [h]; exact .inl ⟨_, rfl⟩
    · rw [h]; exact .inr ⟨e, i, q, .inl he, rfl⟩
  · exact .inr ⟨_, _, _, .inr rfl, rfl⟩

/-- Phases P_BITS and P_FLUSH end or raise ERR_OVERFLOW or ERR_INVARIANT. -/
theorem packInput_cases (outCap : Nat) (ct : Table CtEntry 8) (input : List Byte) (p : Packer) :
    (∃ q, packInput outCap ct input p = .ok q) ∨
    ∃ e i q, (e = ErrCode.overflow ∨ e = .invariant) ∧ packInput outCap ct input p = .raise e i q := by
  rw [packInput]
  rcases runList_cases (packByte_cases outCap ct) input p with ⟨q, h⟩ | ⟨e, i, q, he, h⟩
  · rw [h, andThen_ok, packTail]
    split
    · split
      · exact .inr ⟨_, _, _, .inl rfl, rfl⟩
      · exact .inl ⟨_, rfl⟩
    · exact .inl ⟨_, rfl⟩
  · rw [h]; exact .inr ⟨e, i, q, he, rfl⟩

/-- PACK (R131): ERR_SEQ, an error after the start effects with OBUF havoc, no meaning, or an envelope. -/
theorem bodyPack_cases (s : State) :
    (s.ctV = false ∧ bodyPack s = .raise .seq 0#32 s) ∨
    (s.ctV = true ∧ s.inCap < s.inLen.toNat ∧ bodyPack s = .raise .inlen s.inLen (havocObuf (startPack s))) ∨
    (s.ctV = true ∧ s.inLen.toNat ≤ s.inCap ∧ 256 < s.ftN.toNat ∧ bodyPack s = .fault (.ftCount s.ftN.toNat)) ∨
    (s.ctV = true ∧ s.inLen.toNat ≤ s.inCap ∧ s.ftN.toNat ≤ 256 ∧ ∃ e i w, (e = .overflow ∨ e = .invariant) ∧
      w.cmdl = s.work.cmdl ∧ bodyPack s = .raise e i { havocObuf (startPack s) with work := w }) ∨
    (s.ctV = true ∧ s.inLen.toNat ≤ s.inCap ∧ s.ftN.toNat ≤ 256 ∧ headerSize s.ftN.toNat ≤ s.outCap ∧ ∃ p w,
      packInput s.outCap s.ct s.input (packStart s.obuf s.ftList) = .ok p ∧ w.cmdl = s.work.cmdl ∧
      bodyPack s = .ok { startPack s with
        obuf := memWriteList p.obuf (headerSize s.ftN.toNat - 4) (bytes32 p.nbits),
        encBits := BitVec.ofNat 32 p.nbits, outLen := BitVec.ofNat 32 p.opos, work := w }) := by
  cases h0 : s.ctV
  · exact .inl ⟨rfl, by simp [bodyPack, h0]⟩
  · by_cases h1 : s.inCap < s.inLen.toNat
    · exact .inr (.inl ⟨rfl, h1, by simp [bodyPack, h0, h1]⟩)
    · by_cases h2 : 256 < s.ftN.toNat
      · exact .inr (.inr (.inl ⟨rfl, by omega, h2, by simp [bodyPack, h0, h1, h2]⟩))
      · by_cases h3 : s.outCap < headerSize s.ftN.toNat
        · exact .inr (.inr (.inr (.inl ⟨rfl, by omega, by omega, .overflow, 0#32, s.work, .inl rfl, rfl, by
            rw [bodyPack, if_neg (by simp [h0])]
            simp only [startPack_inCap, startPack_inLen, startPack_ftN, startPack_outCap, h1, h2, h3, if_false, if_true]
            rfl⟩)))
        · have hin : (startPack s).input = s.input := rfl
          have hft : (startPack s).ftList = s.ftList := rfl
          rcases packInput_cases s.outCap s.ct s.input (packStart s.obuf s.ftList) with ⟨p, h⟩ | ⟨e, i, p, he, h⟩
          · refine .inr (.inr (.inr (.inr ⟨rfl, by omega, by omega, by omega, p, packWork s.work p, h, rfl, ?_⟩)))
            rw [bodyPack]
            simp only [h0, Bool.not_true, Bool.false_eq_true, if_false, startPack_inCap, startPack_inLen, startPack_ftN,
              startPack_outCap, startPack_ct, startPack_obuf, hin, hft, h1, h2, h3, h]
            rfl
          · refine .inr (.inr (.inr (.inl ⟨rfl, by omega, by omega, e, i, packWork s.work p, he, rfl, ?_⟩)))
            rw [bodyPack]
            simp only [h0, Bool.not_true, Bool.false_eq_true, if_false, startPack_inCap, startPack_inLen, startPack_ftN,
              startPack_outCap, startPack_ct, startPack_obuf, hin, hft, h1, h2, h3, h]
            rfl

/-! ### LOAD -/

/-- Every `raise` of the table loop is ERR_ENVELOPE, and it never faults. -/
theorem loadEntries_cases (s : State) (n : Nat) (t : List FtEntry) :
    (∃ t1, runTimes (loadEntry s) n t = .ok t1) ∨ ∃ i t1, runTimes (loadEntry s) n t = .raise .envelope i t1 := by
  induction n generalizing t with
  | zero => exact .inl ⟨t, rfl⟩
  | succ n ih =>
    rw [runTimes_succ, loadEntry]
    repeat' split
    · exact .inr ⟨_, _, rfl⟩
    · exact .inr ⟨_, _, rfl⟩
    · exact .inr ⟨_, _, rfl⟩
    · exact ih _

/-- LOAD (R141): ERR_INLEN, ERR_ENVELOPE, or a table. -/
theorem bodyLoad_cases (s : State) :
    (s.inCap < s.inLen.toNat ∧ bodyLoad s = .raise .inlen s.inLen (startLoad s)) ∨
    (s.inLen.toNat ≤ s.inCap ∧ ∃ i f, bodyLoad s = .raise .envelope i { startLoad s with ft := f }) ∨
    (s.inLen.toNat ≤ s.inCap ∧ ∃ n t b w, 1 ≤ n ∧ n ≤ 256 ∧ runTimes (loadEntry (startLoad s)) n [] = .ok t ∧
      n = ibuf16 s 0 ∧ b = ibuf32 s (2 + 5 * n) ∧ s.inLen.toNat = 6 + 5 * n + ceil8 b ∧
      (b % 8 ≠ 0 → s.ibufByte (s.inLen.toNat - 1) >>> (b % 8) = 0#8) ∧
      w.cmdl = s.work.cmdl ∧ bodyLoad s = .ok { startLoad s with
        ft := tableOverlay s.ft t, ftN := BitVec.ofNat 9 n, decBits := BitVec.ofNat 32 b,
        payBase := BitVec.ofNat 32 (6 + 5 * n), ftV := true, payV := true, work := w }) := by
  have e16 : ∀ a, ibuf16 (startLoad s) a = ibuf16 s a := fun _ => rfl
  have e32 : ∀ a, ibuf32 (startLoad s) a = ibuf32 s a := fun _ => rfl
  have e8 : ∀ a, (startLoad s).ibufByte a = s.ibufByte a := fun _ => rfl
  rw [bodyLoad]
  simp only [startLoad_inCap, startLoad_inLen, e16, e32, e8]
  by_cases h1 : s.inCap < s.inLen.toNat
  · exact .inl ⟨h1, by rw [if_pos h1]⟩
  rw [if_neg h1]
  by_cases h2 : s.inLen.toNat < 2
  · exact .inr (.inl ⟨by omega, _, (startLoad s).ft, by rw [if_pos h2]; rfl⟩)
  rw [if_neg h2]
  by_cases h3 : ibuf16 s 0 = 0 ∨ 256 < ibuf16 s 0
  · exact .inr (.inl ⟨by omega, _, (startLoad s).ft, by rw [if_pos h3]; rfl⟩)
  rw [if_neg h3]
  by_cases h4 : s.inLen.toNat < 6 + 5 * ibuf16 s 0
  · exact .inr (.inl ⟨by omega, _, (startLoad s).ft, by rw [if_pos h4]; rfl⟩)
  rw [if_neg h4]
  rcases loadEntries_cases (startLoad s) (ibuf16 s 0) [] with ⟨t, ht⟩ | ⟨i, t, ht⟩
  · rw [ht]
    simp only
    by_cases h5 : s.inLen.toNat ≠ 6 + 5 * ibuf16 s 0 + ceil8 (ibuf32 s (2 + 5 * ibuf16 s 0))
    · exact .inr (.inl ⟨by omega, _, tableOverlay s.ft t, by rw [if_pos h5]; rfl⟩)
    rw [if_neg h5]
    by_cases h6 : ibuf32 s (2 + 5 * ibuf16 s 0) % 8 ≠ 0 ∧
        s.ibufByte (s.inLen.toNat - 1) >>> (ibuf32 s (2 + 5 * ibuf16 s 0) % 8) ≠ 0#8
    · exact .inr (.inl ⟨by omega, _, tableOverlay s.ft t, by rw [if_pos h6]; rfl⟩)
    rw [if_neg h6]
    exact .inr (.inr ⟨by omega, ibuf16 s 0, t, ibuf32 s (2 + 5 * ibuf16 s 0), { s.work with ipos := s.inLen },
      by omega, by omega, ht, rfl, rfl, Classical.byContradiction h5,
      fun hb => Classical.byContradiction fun hc => h6 ⟨hb, hc⟩, rfl, rfl⟩)
  · rw [ht]
    exact .inr (.inl ⟨by omega, i, tableOverlay s.ft t, rfl⟩)

/-! ### WALK -/

/-- Everything one bit of WALK can come to (R145). -/
theorem walkBit_cases (s : State) (w : Walker) :
    (s.inCap ≤ payOffset s w.bpos ∧ walkBit s w = .fault (.ibufRange (payOffset s w.bpos))) ∨
    (payOffset s w.bpos < s.inCap ∧
      let c := childOf (tableGet s.node w.cur) (payBit s w.bpos)
      (c = nilIdx ∧ walkBit s w = .raise .badpath (BitVec.ofNat 32 w.bpos) w) ∨
      (c ≠ nilIdx ∧ (tableGet s.node c).leaf = true ∧ s.outCap ≤ w.opos ∧
        walkBit s w = .raise .overflow (BitVec.ofNat 32 w.bpos) w) ∨
      (c ≠ nilIdx ∧ (tableGet s.node c).leaf = true ∧ w.opos < s.outCap ∧
        walkBit s w = .ok { cur := s.root, bpos := w.bpos + 1, opos := w.opos + 1,
                            obuf := memWrite w.obuf w.opos (tableGet s.node c).sym }) ∨
      (c ≠ nilIdx ∧ (tableGet s.node c).leaf = false ∧ walkBit s w = .ok { w with cur := c, bpos := w.bpos + 1 })) := by
  by_cases h0 : s.inCap ≤ payOffset s w.bpos
  · exact .inl ⟨h0, by simp [walkBit, h0]⟩
  · refine .inr ⟨by omega, ?_⟩
    rw [walkBit, if_neg h0]
    simp only
    generalize childOf (tableGet s.node w.cur) (payBit s w.bpos) = c
    by_cases h1 : c = nilIdx
    · exact .inl ⟨h1, by rw [if_pos h1]⟩
    · rw [if_neg h1]
      cases h2 : (tableGet s.node c).leaf
      · exact .inr (.inr (.inr ⟨h1, rfl, by simp⟩))
      · by_cases h3 : s.outCap ≤ w.opos
        · exact .inr (.inl ⟨h1, rfl, h3, by simp [h3]⟩)
        · exact .inr (.inr (.inl ⟨h1, rfl, by omega, by simp [h3]⟩))

/-- The loop of WALK ends, raises ERR_BADPATH or ERR_OVERFLOW, or reads beyond IBUF. -/
theorem walkLoop_cases (s : State) (n : Nat) (w : Walker) :
    (∃ x, runTimes (walkBit s) n w = .ok x) ∨
    (∃ e i x, (e = ErrCode.badpath ∨ e = .overflow) ∧ runTimes (walkBit s) n w = .raise e i x) ∨
    (∃ a, s.inCap ≤ a ∧ runTimes (walkBit s) n w = .fault (.ibufRange a)) := by
  induction n generalizing w with
  | zero => exact .inl ⟨w, rfl⟩
  | succ n ih =>
    rw [runTimes_succ]
    rcases walkBit_cases s w with ⟨h, e⟩ | ⟨_, ⟨_, e⟩ | ⟨_, _, _, e⟩ | ⟨_, _, _, e⟩ | ⟨_, _, e⟩⟩ <;> rw [e]
    · exact .inr (.inr ⟨_, h, rfl⟩)
    · exact .inr (.inl ⟨_, _, _, .inl rfl, rfl⟩)
    · exact .inr (.inl ⟨_, _, _, .inr rfl, rfl⟩)
    · exact ih _
    · exact ih _

/-- WALK (R145): ERR_SEQ, an error after the start effect with OBUF havoc, no meaning, or an output. -/
theorem bodyWalk_cases (l : Bool) (s : State) :
    ((s.treeV && s.payV) = false ∧ bodyWalk l s = .raise .seq 0#32 s) ∨
    (s.treeV = true ∧ s.payV = true ∧ ∃ e i x w, walkBits (startWalk s) = .raise e i x ∧
      (e = .badpath ∨ e = .overflow) ∧ w.cmdl = s.work.cmdl ∧
      bodyWalk l s = .raise e i { havocObuf (startWalk s) with work := w }) ∨
    (s.treeV = true ∧ s.payV = true ∧ ∃ a, s.inCap ≤ a ∧ walkBits (startWalk s) = .fault (.ibufRange a) ∧
      bodyWalk l s = .fault (.ibufRange a)) ∨
    (s.treeV = true ∧ s.payV = true ∧ ∃ x w, walkBits (startWalk s) = .ok x ∧ x.cur ≠ s.root ∧ l = false ∧
      w.cmdl = s.work.cmdl ∧ bodyWalk l s = .raise .midtree s.decBits { havocObuf (startWalk s) with work := w }) ∨
    (s.treeV = true ∧ s.payV = true ∧ ∃ x w, walkBits (startWalk s) = .ok x ∧ (x.cur = s.root ∨ l = true) ∧
      w.cmdl = s.work.cmdl ∧ bodyWalk l s = .ok { startWalk s with
        mid := s.mid || decide (x.cur ≠ s.root), obuf := x.obuf, outLen := BitVec.ofNat 32 x.opos, work := w }) := by
  cases h0 : s.treeV
  · exact .inl ⟨rfl, by simp [bodyWalk, h0]⟩
  cases h1 : s.payV
  · exact .inl ⟨rfl, by simp [bodyWalk, h0, h1]⟩
  rcases walkLoop_cases (startWalk s) (startWalk s).decBits.toNat (walkStart (startWalk s)) with
    ⟨x, h⟩ | ⟨e, i, x, he, h⟩ | ⟨a, ha, h⟩
  · have hw : walkBits (startWalk s) = .ok x := h
    by_cases hc : x.cur ≠ s.root ∧ (!l) = true
    · refine .inr (.inr (.inr (.inl ⟨rfl, rfl, x, walkWork s.work x, hw, hc.1, by simpa using hc.2, rfl, ?_⟩)))
      rw [bodyWalk]
      simp only [h0, h1, Bool.and_self, Bool.not_true, Bool.false_eq_true, if_false, hw]
      rw [if_pos (show x.cur ≠ (startWalk s).root ∧ (!l) = true from hc)]
      rfl
    · refine .inr (.inr (.inr (.inr ⟨rfl, rfl, x, walkWork s.work x, hw, ?_, rfl, ?_⟩)))
      · by_cases hr : x.cur = s.root
        · exact .inl hr
        · cases l
          · exact absurd ⟨hr, rfl⟩ hc
          · exact .inr rfl
      · rw [bodyWalk]
        simp only [h0, h1, Bool.and_self, Bool.not_true, Bool.false_eq_true, if_false, hw]
        rw [if_neg (show ¬ (x.cur ≠ (startWalk s).root ∧ (!l) = true) from hc)]
        rfl
  · have hw : walkBits (startWalk s) = .raise e i x := h
    refine .inr (.inl ⟨rfl, rfl, e, i, x, walkWork s.work x, hw, he, rfl, ?_⟩)
    rw [bodyWalk]
    simp only [h0, h1, Bool.and_self, Bool.not_true, Bool.false_eq_true, if_false, hw]
    rfl
  · have hw : walkBits (startWalk s) = .fault (.ibufRange a) := h
    refine .inr (.inr (.inl ⟨rfl, rfl, a, ha, hw, ?_⟩))
    rw [bodyWalk]
    simp only [h0, h1, Bool.and_self, Bool.not_true, Bool.false_eq_true, if_false, hw]

end Sys2Proof.Machine
end

