-- ==== Sys2Proof/Laws/Frames.lean ====
section
/-! SUPPORT. What every command body leaves alone, and what a completion step does with the end of a body. -/

namespace Sys2Proof.Machine

/-- What no command body changes: the host side (R106, R133), and what only a completion step writes (R83, R176). -/
structure BodySame (s t : State) : Prop where
  host : HostSideSame s t
  status : t.done = s.done ∧ t.error = s.error ∧ t.err = s.err ∧ t.errInfo = s.errInfo
  engine : t.seq = s.seq ∧ t.busycnt = s.busycnt ∧ t.work.cmdl = s.work.cmdl
  ibuf : t.ibuf = s.ibuf

theorem BodySame.refl (s : State) : BodySame s s :=
  ⟨⟨rfl, rfl, rfl, rfl, rfl, rfl, rfl, rfl, rfl, fun _ => rfl, rfl, rfl, rfl⟩, ⟨rfl, rfl, rfl, rfl⟩, ⟨rfl, rfl, rfl⟩, rfl⟩

theorem HostSideSame.trans {s t u : State} (h : HostSideSame s t) (k : HostSideSame t u) : HostSideSame s u :=
  ⟨k.die.trans h.die, k.eie.trans h.eie, k.ovr.trans h.ovr, k.lastop.trans h.lastop, k.inLen.trans h.inLen,
    k.iptr.trans h.iptr, k.optr.trans h.optr, k.inCap.trans h.inCap, k.outCap.trans h.outCap,
    fun a => (k.ibuf a).trans (h.ibuf a), k.script.trans h.script, k.resp.trans h.resp, k.draws.trans h.draws⟩

theorem BodySame.trans {s t u : State} (h : BodySame s t) (k : BodySame t u) : BodySame s u :=
  ⟨h.host.trans k.host,
    ⟨k.status.1.trans h.status.1, k.status.2.1.trans h.status.2.1, k.status.2.2.1.trans h.status.2.2.1,
      k.status.2.2.2.trans h.status.2.2.2⟩,
    ⟨k.engine.1.trans h.engine.1, k.engine.2.1.trans h.engine.2.1, k.engine.2.2.trans h.engine.2.2⟩,
    k.ibuf.trans h.ibuf⟩

/-- The input sequence is the same after a body. -/
theorem BodySame.input {s t : State} (h : BodySame s t) : t.input = s.input := by
  simp only [State.input, State.ibufBytes, h.host.inLen]
  congr 1
  funext a
  exact h.host.ibuf a

/-- The end of a body keeps a relation to the state it began in. -/
def Run.Keeps {σ : Type} (P : σ → Prop) : Run σ → Prop
  | .ok t => P t
  | .raise _ _ t => P t
  | .fault _ => True

theorem Run.Keeps.andThen {σ : Type} {P : σ → Prop} {r : Run σ} {f : σ → Run σ} (h : r.Keeps P)
    (hf : ∀ t, P t → (f t).Keeps P) : (r.andThen f).Keeps P := by
  cases r with
  | ok t => exact hf t h
  | raise e i t => exact h
  | fault x => trivial

/-- OBUF becoming havoc is nothing a body must leave alone. -/
theorem BodySame.havoc {s t : State} (h : BodySame s t) : BodySame s (havocObuf t) :=
  h.trans ⟨⟨rfl, rfl, rfl, rfl, rfl, rfl, rfl, rfl, rfl, fun _ => rfl, rfl, rfl, rfl⟩, ⟨rfl, rfl, rfl, rfl⟩, ⟨rfl, rfl, rfl⟩, rfl⟩

theorem Run.Keeps.spoil {s : State} {r : Run State} (h : r.Keeps (BodySame s)) : (spoilOnRaise r).Keeps (BodySame s) := by
  cases r with
  | ok t => exact h
  | raise e i t => exact BodySame.havoc h
  | fault x => trivial

theorem bodyFreq_same (s : State) : (bodyFreq s).Keeps (BodySame s) := by
  rcases bodyFreq_cases s with ⟨_, h⟩ | ⟨_, _, h⟩ | ⟨_, _, w, hw, h⟩ <;> rw [h] <;>
    refine ⟨⟨rfl, rfl, rfl, rfl, rfl, rfl, rfl, rfl, rfl, fun _ => rfl, rfl, rfl, rfl⟩, ⟨rfl, rfl, rfl, rfl⟩,
      ⟨rfl, rfl, ?_⟩, rfl⟩ <;> first | rfl | exact hw

theorem bodyTree_same (s : State) : (bodyTree s).Keeps (BodySame s) := by
  rcases bodyTree_cases s with ⟨_, h⟩ | ⟨_, _, h⟩ | ⟨_, _, _, h⟩ | ⟨_, _, b, w, _, hw, h⟩ <;> rw [h] <;>
    first
    | trivial
    | (refine ⟨⟨rfl, rfl, rfl, rfl, rfl, rfl, rfl, rfl, rfl, fun _ => rfl, rfl, rfl, rfl⟩, ⟨rfl, rfl, rfl, rfl⟩,
        ⟨rfl, rfl, ?_⟩, rfl⟩
       first | rfl | exact hw)

theorem bodyCodes_same (s : State) : (bodyCodes s).Keeps (BodySame s) := by
  rcases bodyCodes_cases s with ⟨_, h⟩ | ⟨_, ct, w, _, hw, h⟩ | ⟨_, j, ct, w, _, hw, h⟩ | ⟨_, j, _, h⟩ <;> rw [h] <;>
    first
    | trivial
    | (refine ⟨⟨rfl, rfl, rfl, rfl, rfl, rfl, rfl, rfl, rfl, fun _ => rfl, rfl, rfl, rfl⟩, ⟨rfl, rfl, rfl, rfl⟩,
        ⟨rfl, rfl, ?_⟩, rfl⟩
       first | rfl | exact hw)

theorem bodyPack_same (s : State) : (bodyPack s).Keeps (BodySame s) := by
  rcases bodyPack_cases s with ⟨_, h⟩ | ⟨_, _, h⟩ | ⟨_, _, _, h⟩ | ⟨_, _, _, e, i, w, _, hw, h⟩ |
    ⟨_, _, _, _, p, w, _, hw, h⟩ <;> rw [h] <;>
    first
    | trivial
    | (refine ⟨⟨rfl, rfl, rfl, rfl, rfl, rfl, rfl, rfl, rfl, fun _ => rfl, rfl, rfl, rfl⟩, ⟨rfl, rfl, rfl, rfl⟩,
        ⟨rfl, rfl, ?_⟩, rfl⟩
       first | rfl | exact hw)

theorem bodyLoad_same (s : State) : (bodyLoad s).Keeps (BodySame s) := by
  rcases bodyLoad_cases s with ⟨_, h⟩ | ⟨_, i, f, h⟩ | ⟨_, n, t, b, w, _, _, _, _, _, _, _, hw, h⟩ <;> rw [h] <;>
    refine ⟨⟨rfl, rfl, rfl, rfl, rfl, rfl, rfl, rfl, rfl, fun _ => rfl, rfl, rfl, rfl⟩, ⟨rfl, rfl, rfl, rfl⟩,
      ⟨rfl, rfl, ?_⟩, rfl⟩ <;> first | rfl | exact hw

theorem bodyWalk_same (l : Bool) (s : State) : (bodyWalk l s).Keeps (BodySame s) := by
  rcases bodyWalk_cases l s with ⟨_, h⟩ | ⟨_, _, e, i, x, w, _, _, hw, h⟩ | ⟨_, _, a, _, _, h⟩ |
    ⟨_, _, x, w, _, _, _, hw, h⟩ | ⟨_, _, x, w, _, _, hw, h⟩ <;> rw [h] <;>
    first
    | trivial
    | (refine ⟨⟨rfl, rfl, rfl, rfl, rfl, rfl, rfl, rfl, rfl, fun _ => rfl, rfl, rfl, rfl⟩, ⟨rfl, rfl, rfl, rfl⟩,
        ⟨rfl, rfl, ?_⟩, rfl⟩
       first | rfl | exact hw)

theorem bodyCompress_same (s : State) : (bodyCompress s).Keeps (BodySame s) := by
  have k : ∀ (f : State → Run State), (∀ t, (f t).Keeps (BodySame t)) → ∀ t, BodySame s t → (f t).Keeps (BodySame s) := by
    intro f hf t ht
    have := hf t
    cases hr : f t with
    | ok u => rw [hr] at this; exact ht.trans this
    | raise e i u => rw [hr] at this; exact ht.trans this
    | fault x => trivial
  exact (((bodyFreq_same s).andThen (k _ bodyTree_same)).andThen (k _ bodyCodes_same)).spoil.andThen (k _ bodyPack_same)

theorem bodyDecompress_same (l : Bool) (s : State) : (bodyDecompress l s).Keeps (BodySame s) := by
  have k : ∀ (f : State → Run State), (∀ t, (f t).Keeps (BodySame t)) → ∀ t, BodySame s t → (f t).Keeps (BodySame s) := by
    intro f hf t ht
    have := hf t
    cases hr : f t with
    | ok u => rw [hr] at this; exact ht.trans this
    | raise e i u => rw [hr] at this; exact ht.trans this
    | fault x => trivial
  exact ((bodyLoad_same s).andThen (k _ bodyTree_same)).spoil.andThen (k _ (bodyWalk_same l))

/-- The body of a command the engine completes; NOP and CLEAR have none. -/
def bodyOf : Instr → State → Run State
  | .nop => .ok
  | .clear => .ok
  | .freq => bodyFreq
  | .tree => bodyTree
  | .codes => bodyCodes
  | .pack => bodyPack
  | .load => bodyLoad
  | .walk l => bodyWalk l
  | .compress => bodyCompress
  | .decompress l => bodyDecompress l

/-- A command the engine completes is the completion step of its body (R83). -/
theorem exec_eq_settle (i : Instr) (s : State) (h0 : i ≠ .nop) (h1 : i ≠ .clear) : exec i s = settle (bodyOf i s) := by
  cases i <;> first | rfl | contradiction

theorem bodyOf_same (i : Instr) (s : State) : (bodyOf i s).Keeps (BodySame s) := by
  cases i
  · exact BodySame.refl s
  · exact BodySame.refl s
  · exact bodyFreq_same s
  · exact bodyTree_same s
  · exact bodyCodes_same s
  · exact bodyPack_same s
  · exact bodyLoad_same s
  · exact bodyWalk_same _ s
  · exact bodyCompress_same s
  · exact bodyDecompress_same _ s

/-- A completion step that answers a next state came from a body that ran to its end or raised. -/
theorem settle_next {r : Run State} {t : State} (h : settle r = .next t) :
    (∃ u, r = .ok u ∧ t = succeed u) ∨ ∃ e i u, r = .raise e i u ∧ t = errorEntry e i u := by
  cases r with
  | ok u => exact .inl ⟨u, rfl, by cases h; rfl⟩
  | raise e i u => exact .inr ⟨e, i, u, rfl, by cases h; rfl⟩
  | fault x => cases h

/-- The two ends of a command the engine completes, with what its body leaves alone. -/
theorem exec_next {i : Instr} {s t : State} (h0 : i ≠ .nop) (h1 : i ≠ .clear) (h : exec i s = .next t) :
    (∃ u, bodyOf i s = .ok u ∧ BodySame s u ∧ t = succeed u) ∨
    ∃ e info u, bodyOf i s = .raise e info u ∧ BodySame s u ∧ t = errorEntry e info u := by
  rw [exec_eq_settle i s h0 h1] at h
  have hs := bodyOf_same i s
  rcases settle_next h with ⟨u, hr, ht⟩ | ⟨e, info, u, hr, ht⟩
  · rw [hr] at hs; exact .inl ⟨u, hr, hs, ht⟩
  · rw [hr] at hs; exact .inr ⟨e, info, u, hr, hs, ht⟩

end Sys2Proof.Machine
end

