-- ==== Sys2Proof/Laws/Freq.lean ====
section
/-! SUPPORT. What FREQ computes: the scan keeps the counts and the bytes in order of first occurrence, and the insertion
of R105 is the stable sort of R101. -/

namespace Sys2Proof.Machine

/-- One more byte and the list of distinct bytes. -/
theorem eraseDups_concat (xs : List Byte) (b : Byte) :
    (xs ++ [b]).eraseDups = if b ∈ xs then xs.eraseDups else xs.eraseDups ++ [b] := by
  rw [List.eraseDups_append]
  by_cases h : b ∈ xs
  · have hr : ([b] : List Byte).removeAll xs = [] := by simp [List.removeAll, h]
    rw [if_pos h, hr]
    simp
  · have hr : ([b] : List Byte).removeAll xs = [b] := by simp [List.removeAll, h]
    rw [if_neg h, hr]
    simp [List.eraseDups_cons]

theorem nodup_eraseDups (bs : List Byte) : bs.eraseDups.Nodup := by
  induction bs using List.reverseRecOn with
  | nil => simp
  | append_singleton xs b ih =>
    rw [eraseDups_concat]
    split
    · exact ih
    · rename_i h
      rw [List.nodup_append]
      exact ⟨ih, by simp, fun a ha c hc e => h (by
        rw [List.mem_singleton] at hc
        subst hc e
        exact List.mem_eraseDups.mp ha)⟩

/-- The distinct bytes stand in order of first occurrence. -/
theorem eraseDups_idxOf (bs : List Byte) : bs.eraseDups.Pairwise fun a b => bs.idxOf a < bs.idxOf b := by
  induction bs using List.reverseRecOn with
  | nil => simp
  | append_singleton xs b ih =>
    have key : xs.eraseDups.Pairwise fun x y => (xs ++ [b]).idxOf x < (xs ++ [b]).idxOf y := by
      refine ih.imp_of_mem ?_
      intro x y hx hy h
      rw [List.idxOf_append_of_mem (List.mem_eraseDups.mp hx), List.idxOf_append_of_mem (List.mem_eraseDups.mp hy)]
      exact h
    rw [eraseDups_concat]
    split
    · exact key
    · rename_i hb
      rw [List.pairwise_append]
      refine ⟨key, by simp, ?_⟩
      intro x hx y hy
      rw [List.mem_singleton] at hy
      subst hy
      rw [List.idxOf_append_of_mem (List.mem_eraseDups.mp hx), List.idxOf_append_of_notMem hb]
      have := List.idxOf_lt_length_iff.mpr (List.mem_eraseDups.mp hx)
      omega

theorem eraseDups_length_le (bs : List Byte) : bs.eraseDups.length ≤ 256 := by
  have h : (bs.eraseDups.map BitVec.toNat).Nodup :=
    (nodup_eraseDups bs).map (fun a b e => BitVec.eq_of_toNat_eq e)
  have hs : bs.eraseDups.map BitVec.toNat ⊆ List.range 256 := by
    intro x hx
    obtain ⟨b, _, rfl⟩ := List.mem_map.mp hx
    exact List.mem_range.mpr b.isLt
  have := (List.subperm_of_subset h hs).length_le
  simpa using this

/-- Phase F_SCAN (R101): HIST holds the counts, DISC the distinct bytes in order of first occurrence. -/
theorem scanInput_eq (bs : List Byte) (h : bs.length < 2 ^ 32) :
    (∀ b, tableGet (scanInput bs).hist b = BitVec.ofNat 32 (bs.count b)) ∧ (scanInput bs).disc = bs.eraseDups := by
  induction bs using List.reverseRecOn with
  | nil => exact ⟨fun b => tableGet_replicate _ b, rfl⟩
  | append_singleton xs b ih =>
    simp only [List.length_append, List.length_singleton] at h
    obtain ⟨h1, h2⟩ := ih (by omega)
    have hs : scanInput (xs ++ [b]) = scanByte (scanInput xs) b := by simp [scanInput, List.foldl_append]
    have hc : xs.count b < 2 ^ 32 := by have := List.count_le_length (a := b) (l := xs); omega
    rw [hs]
    constructor
    · intro c
      simp only [scanByte, tableGet_put, List.count_append]
      by_cases e : b = c
      · subst e
        rw [if_pos rfl, h1, List.count_singleton_self]
        apply BitVec.eq_of_toNat_eq
        simp
      · rw [if_neg e, h1]
        have : List.count c [b] = 0 := List.count_eq_zero.mpr (by simpa using Ne.symm e)
        rw [this, Nat.add_zero]
    · simp only [scanByte, h1, h2, eraseDups_concat]
      by_cases e : b ∈ xs
      · have hp := List.count_pos_iff.mpr e
        rw [if_pos e, if_neg]
        intro hz
        have := congrArg BitVec.toNat hz
        simp only [BitVec.toNat_ofNat, Nat.mod_eq_of_lt hc] at this
        simp at this
        exact absurd e (List.count_eq_zero.mp this)
      · have hp := List.count_eq_zero.mpr e
        rw [if_neg e, hp, if_pos rfl]

/-- The discovery list with its counts. -/
theorem discovered_scan (bs : List Byte) (h : bs.length < 2 ^ 32) :
    discovered (scanInput bs) = bs.eraseDups.map fun b => FtEntry.mk b (BitVec.ofNat 32 (bs.count b)) := by
  obtain ⟨h1, h2⟩ := scanInput_eq bs h
  rw [discovered, h2]
  exact List.map_congr_left fun b _ => by rw [h1]

/-- The order of FT for a numbering of the entries: by count, equal counts by the numbering (R103). -/
def Before (idx : FtEntry → Nat) (x y : FtEntry) : Prop := x.cnt < y.cnt ∨ (x.cnt = y.cnt ∧ idx x < idx y)

theorem insertByCount_perm (e : FtEntry) (l : List FtEntry) : List.Perm (insertByCount e l) (e :: l) := by
  induction l with
  | nil => exact List.Perm.refl _
  | cons x l ih =>
    rw [insertByCount]
    split
    · exact List.Perm.refl _
    · exact (ih.cons x).trans (List.Perm.swap e x l)

theorem insertByCount_before (idx : FtEntry → Nat) (e : FtEntry) (l : List FtEntry) (h : l.Pairwise (Before idx))
    (hi : ∀ x ∈ l, idx x < idx e) : (insertByCount e l).Pairwise (Before idx) := by
  induction l with
  | nil => simp [insertByCount]
  | cons x l ih =>
    rw [List.pairwise_cons] at h
    rw [insertByCount]
    split
    · rename_i hlt
      refine List.pairwise_cons.mpr ⟨?_, List.pairwise_cons.mpr h⟩
      intro y hy
      rcases List.mem_cons.mp hy with rfl | hy
      · exact .inl hlt
      · rcases h.1 y hy with hxy | ⟨hxy, _⟩
        · exact .inl (BitVec.lt_trans hlt hxy)
        · exact .inl (hxy ▸ hlt)
    · rename_i hge
      refine List.pairwise_cons.mpr ⟨?_, ih h.2 fun y hy => hi y (by simp [hy])⟩
      intro y hy
      rcases List.mem_cons.mp ((insertByCount_perm e l).mem_iff.mp hy) with rfl | hy
      · by_cases he : x.cnt = y.cnt
        · exact .inr ⟨he, hi x (by simp)⟩
        · refine .inl ?_
          have h1 : ¬ y.cnt.toNat < x.cnt.toNat := hge
          have h2 : x.cnt.toNat ≠ y.cnt.toNat := fun c => he (BitVec.eq_of_toNat_eq c)
          show x.cnt.toNat < y.cnt.toNat
          omega
      · exact h.1 y hy

theorem foldl_insert_perm (l acc : List FtEntry) :
    List.Perm (l.foldl (fun acc e => insertByCount e acc) acc) (acc ++ l) := by
  induction l generalizing acc with
  | nil => simp
  | cons e l ih =>
    refine (ih _).trans ?_
    refine ((insertByCount_perm e acc).append_right l).trans ?_
    exact List.perm_middle.symm

theorem sortByCount_perm (l : List FtEntry) : List.Perm (sortByCount l) l := by
  exact (foldl_insert_perm l []).trans (by simp)

theorem foldl_insert_before (idx : FtEntry → Nat) (l acc : List FtEntry) (ha : acc.Pairwise (Before idx))
    (hl : l.Pairwise fun x y => idx x < idx y) (hal : ∀ x ∈ acc, ∀ y ∈ l, idx x < idx y) :
    (l.foldl (fun acc e => insertByCount e acc) acc).Pairwise (Before idx) := by
  induction l generalizing acc with
  | nil => exact ha
  | cons e l ih =>
    rw [List.pairwise_cons] at hl
    refine ih _ (insertByCount_before idx e acc ha fun x hx => hal x hx e (by simp)) hl.2 ?_
    intro x hx y hy
    rcases List.mem_cons.mp ((insertByCount_perm e acc).mem_iff.mp hx) with rfl | hx
    · exact hl.1 y hy
    · exact hal x hx y (by simp [hy])

/-- The insertion of R105 sorts by count and keeps the order of equal counts. -/
theorem sortByCount_before (idx : FtEntry → Nat) (l : List FtEntry) (hl : l.Pairwise fun x y => idx x < idx y) :
    (sortByCount l).Pairwise (Before idx) :=
  foldl_insert_before idx l [] List.Pairwise.nil hl (by simp)

/-- The library's stable sort does so too. -/
theorem mergeSort_before (idx : FtEntry → Nat) (l : List FtEntry) (hl : l.Pairwise fun x y => idx x < idx y) :
    (l.mergeSort fun x y => decide (x.cnt ≤ y.cnt)).Pairwise (Before idx) := by
  have htr : ∀ a b c : FtEntry, decide (a.cnt ≤ b.cnt) = true → decide (b.cnt ≤ c.cnt) = true →
      decide (a.cnt ≤ c.cnt) = true := by
    intro a b c h1 h2
    simp only [decide_eq_true_eq, BitVec.le_def] at *
    omega
  have hto : ∀ a b : FtEntry, (decide (a.cnt ≤ b.cnt) || decide (b.cnt ≤ a.cnt)) = true := by
    intro a b
    simp only [Bool.or_eq_true, decide_eq_true_eq, BitVec.le_def]
    omega
  have hnd : l.Nodup := hl.imp fun {a b} h e => by rw [e] at h; exact absurd h (Nat.lt_irrefl _)
  have hnd2 : (l.mergeSort fun x y => decide (x.cnt ≤ y.cnt)).Nodup := (List.mergeSort_perm l _).nodup_iff.mpr hnd
  have hord : ∀ x ∈ l, ∀ y ∈ l, x ≠ y → [x, y].Sublist l ∨ [y, x].Sublist l := by
    intro x hx y hy hxy
    clear hl hnd hnd2
    induction l with
    | nil => cases hx
    | cons z l ih =>
      rcases List.mem_cons.mp hx with rfl | hx' <;> rcases List.mem_cons.mp hy with rfl | hy'
      · exact absurd rfl hxy
      · exact .inl ((List.singleton_sublist.mpr hy').cons_cons _)
      · exact .inr ((List.singleton_sublist.mpr hx').cons_cons _)
      · rcases ih hx' hy' with h | h
        · exact .inl (h.cons _)
        · exact .inr (h.cons _)
  rw [List.pairwise_iff_forall_sublist]
  intro x y hxy
  have hle : x.cnt ≤ y.cnt := by
    have := (List.pairwise_mergeSort htr hto l).forall_of_forall_of_flip
    have h2 := List.pairwise_iff_forall_sublist.mp (List.pairwise_mergeSort htr hto l) hxy
    simpa using h2
  have hne : x ≠ y := by
    have := List.pairwise_iff_forall_sublist.mp hnd2 hxy
    exact this
  have hx : x ∈ l := (List.mergeSort_perm l _).mem_iff.mp (hxy.subset (by simp))
  have hy : y ∈ l := (List.mergeSort_perm l _).mem_iff.mp (hxy.subset (by simp))
  by_cases hc : x.cnt = y.cnt
  · refine .inr ⟨hc, ?_⟩
    rcases hord x hx y hy hne with h | h
    · exact List.pairwise_iff_forall_sublist.mp hl h
    · have hyx := List.pair_sublist_mergeSort htr hto (by simp [hc]) h
      exfalso
      have hidx : ∀ {a b : FtEntry} {m : List FtEntry}, m.Nodup → [a, b].Sublist m → [b, a].Sublist m → False := by
        intro a b m hm h1 h2
        induction m with
        | nil => cases h1
        | cons z m ih =>
          rw [List.nodup_cons] at hm
          cases h1 with
          | cons _ h1 =>
            cases h2 with
            | cons _ h2 => exact ih hm.2 h1 h2
            | cons_cons _ h2 => exact hm.1 (h1.subset (by simp))
          | cons_cons _ h1 =>
            cases h2 with
            | cons _ h2 => exact hm.1 (h2.subset (by simp))
            | cons_cons _ h2 => exact hm.1 (h2.subset (by simp))
      exact hidx hnd2 hxy hyx
  · refine .inl ?_
    have h1 : x.cnt.toNat ≤ y.cnt.toNat := hle
    have h2 : x.cnt.toNat ≠ y.cnt.toNat := fun c => hc (BitVec.eq_of_toNat_eq c)
    show x.cnt.toNat < y.cnt.toNat
    omega

/-- Two lists of the same entries in the same strict order are equal. -/
theorem before_unique (idx : FtEntry → Nat) {l m : List FtEntry} (hl : l.Pairwise (Before idx))
    (hm : m.Pairwise (Before idx)) (hp : List.Perm l m) : l = m := by
  refine List.Perm.eq_of_pairwise (le := Before idx) ?_ hl hm hp
  intro a b _ _ h1 h2
  exfalso
  have l1 : ∀ x y : Word, x < y ↔ x.toNat < y.toNat := fun _ _ => Iff.rfl
  rcases h1 with h1 | ⟨e1, h1⟩ <;> rcases h2 with h2 | ⟨e2, h2⟩
  · rw [l1] at h1 h2; omega
  · rw [e2, l1] at h1; omega
  · rw [e1, l1] at h2; omega
  · omega

/-- The entries of the discovery list, numbered by first occurrence. -/
theorem discovered_ordered (bs : List Byte) :
    (bs.eraseDups.map fun b => FtEntry.mk b (BitVec.ofNat 32 (bs.count b))).Pairwise
      fun x y => bs.idxOf x.sym < bs.idxOf y.sym := by
  rw [List.pairwise_map]
  exact eraseDups_idxOf bs

/-- FREQ's table is the stable sort of R101. -/
theorem freqTable_eq_stableTable (bs : List Byte) (h : bs.length < 2 ^ 32) : freqTable bs = stableTable bs := by
  have hd := discovered_ordered bs
  rw [freqTable, discovered_scan bs h, stableTable]
  exact before_unique (fun e => bs.idxOf e.sym) (sortByCount_before _ _ hd) (mergeSort_before _ _ hd)
    ((sortByCount_perm _).trans (List.mergeSort_perm _ _).symm)

/-- The stable table in the words of R102. -/
theorem stableTable_before (bs : List Byte) : (stableTable bs).Pairwise (Before fun e => bs.idxOf e.sym) :=
  mergeSort_before _ _ (discovered_ordered bs)

theorem stableTable_perm (bs : List Byte) :
    List.Perm (stableTable bs) (bs.eraseDups.map fun b => FtEntry.mk b (BitVec.ofNat 32 (bs.count b))) :=
  List.mergeSort_perm _ _

theorem stableTable_length (bs : List Byte) : (stableTable bs).length = bs.eraseDups.length := by
  rw [(stableTable_perm bs).length_eq, List.length_map]

theorem mem_stableTable (bs : List Byte) (e : FtEntry) :
    e ∈ stableTable bs ↔ e.sym ∈ bs ∧ e.cnt = BitVec.ofNat 32 (bs.count e.sym) := by
  rw [(stableTable_perm bs).mem_iff, List.mem_map]
  constructor
  · rintro ⟨b, hb, rfl⟩; exact ⟨List.mem_eraseDups.mp hb, rfl⟩
  · rintro ⟨hb, hc⟩; exact ⟨e.sym, List.mem_eraseDups.mpr hb, by cases e; simp_all⟩

theorem stableTable_syms_perm (bs : List Byte) : List.Perm ((stableTable bs).map FtEntry.sym) bs.eraseDups := by
  have h := (stableTable_perm bs).map FtEntry.sym
  rwa [List.map_map, show (FtEntry.sym ∘ fun b => FtEntry.mk b (BitVec.ofNat 32 (bs.count b))) = id from rfl,
    List.map_id] at h

/-- The table of a non-empty input is a valid table (R30). -/
theorem stableTable_ok (bs : List Byte) (h0 : bs ≠ []) (h : bs.length < 2 ^ 32) : TableOk (stableTable bs) where
  size := by
    rw [stableTable_length]
    refine ⟨?_, eraseDups_length_le bs⟩
    obtain ⟨b, hb⟩ := List.exists_mem_of_ne_nil bs h0
    exact List.length_pos_iff.mpr (List.ne_nil_of_mem (List.mem_eraseDups.mpr hb))
  positive := by
    intro e he
    obtain ⟨hm, hc⟩ := (mem_stableTable bs e).mp he
    intro hz
    rw [hz] at hc
    have hp := List.count_pos_iff.mpr hm
    have hl := List.count_le_length (a := e.sym) (l := bs)
    have := congrArg BitVec.toNat hc
    simp only [BitVec.toNat_ofNat, Nat.mod_eq_of_lt (by omega : bs.count e.sym < 2 ^ 32)] at this
    omega
  ascending := (stableTable_before bs).imp fun {x y} hxy => by
    rcases hxy with hxy | ⟨hxy, _⟩
    · exact BitVec.le_of_lt hxy
    · exact hxy ▸ BitVec.le_refl _
  distinct := (stableTable_syms_perm bs).nodup_iff.mpr (nodup_eraseDups bs)

end Sys2Proof.Machine
end

