-- ==== Sys2Proof/Laws/Memory.lean ====
section
/-! SUPPORT. The laws of the buffers' memory: a read after a write, and that every operation keeps the canonical form. -/

namespace Sys2Proof.Machine

theorem memRead_write (m : Mem) (k j : Nat) (v : Byte) :
    memRead (memWrite m k v) j = if j = k then some v else memRead m j := by
  induction m with
  | nil => simp [memWrite, memRead]
  | cons c m ih =>
    obtain ⟨a, b⟩ := c
    simp only [memWrite]
    split
    · simp [memRead]
    · split
      · rename_i h; subst h
        by_cases hj : j = k <;> simp [memRead, hj]
      · rename_i h1 h2
        simp only [memRead, ih]
        by_cases hj : j = a
        · have : ¬ a = k := fun e => h2 e.symm
          simp [hj, this]
        · simp [hj]

@[simp] theorem memRead_write_same (m : Mem) (k : Nat) (v : Byte) : memRead (memWrite m k v) k = some v := by
  simp [memRead_write]

theorem memRead_write_ne (m : Mem) (k j : Nat) (v : Byte) (h : j ≠ k) :
    memRead (memWrite m k v) j = memRead m j := by
  simp [memRead_write, h]

/-- A read after the write of a list of bytes. -/
theorem memRead_writeList (m : Mem) (k j : Nat) (vs : List Byte) :
    memRead (memWriteList m k vs) j = if k ≤ j ∧ j < k + vs.length then vs[j - k]? else memRead m j := by
  induction vs generalizing m k with
  | nil => simp [memWriteList]
  | cons v vs ih =>
    rw [memWriteList, ih, memRead_write]
    simp only [List.length_cons]
    by_cases h1 : k + 1 ≤ j ∧ j < k + 1 + vs.length
    · have h2 : k ≤ j ∧ j < k + (vs.length + 1) := by omega
      have h3 : j - k = j - (k + 1) + 1 := by omega
      rw [if_pos h1, if_pos h2, h3, List.getElem?_cons_succ]
    · rw [if_neg h1]
      by_cases hj : j = k
      · subst hj; simp
      · have h2 : ¬ (k ≤ j ∧ j < k + (vs.length + 1)) := by omega
        rw [if_neg h2, if_neg hj]

theorem memWf_tail (c : Host.Cell) (m : Mem) (h : Memory.wf (c :: m) = true) : Memory.wf m = true := by
  cases m with
  | nil => rfl
  | cons d m => simp [Memory.wf] at h; exact h.2

/-- The form of a memory behind one more cell. -/
theorem memWf_cons (a : Nat) (b : Byte) (m : Mem) :
    Memory.wf ((a, b) :: m) = true ↔ (∀ c, m.head? = some c → a < c.1) ∧ Memory.wf m = true := by
  cases m with
  | nil => simp [Memory.wf]
  | cons d m => simp [Memory.wf]

theorem memWrite_head (m : Mem) (k : Nat) (v : Byte) (c : Host.Cell) (h : (memWrite m k v).head? = some c) :
    c.1 = k ∨ m.head?.map Prod.fst = some c.1 := by
  cases m with
  | nil => simp [memWrite] at h; exact Or.inl (by rw [← h])
  | cons d m =>
    obtain ⟨a, b⟩ := d
    simp only [memWrite] at h
    split at h
    · simp at h; exact Or.inl (by rw [← h])
    · split at h
      · simp at h; exact Or.inl (by rw [← h])
      · simp at h; exact Or.inr (by simp [← h])

/-- A write keeps the canonical form. -/
theorem memWf_write (m : Mem) (k : Nat) (v : Byte) (h : Memory.wf m = true) : Memory.wf (memWrite m k v) = true := by
  induction m with
  | nil => rfl
  | cons d m ih =>
    obtain ⟨a, b⟩ := d
    have hc := (memWf_cons a b m).mp h
    simp only [memWrite]
    split
    · rename_i hk
      refine (memWf_cons k v _).mpr ⟨?_, h⟩
      intro c hcc
      simp at hcc
      subst hcc
      exact hk
    · split
      · rename_i hk; subst hk
        exact (memWf_cons _ v m).mpr hc
      · rename_i h1 h2
        refine (memWf_cons a b _).mpr ⟨?_, ih hc.2⟩
        intro c hcc
        rcases memWrite_head m k v c hcc with e | e
        · omega
        · cases hm : m.head? with
          | none => simp [hm] at e
          | some x =>
            simp [hm] at e
            have := hc.1 x hm
            omega

theorem memWf_writeList (m : Mem) (k : Nat) (vs : List Byte) (h : Memory.wf m = true) :
    Memory.wf (memWriteList m k vs) = true := by
  induction vs generalizing m k with
  | nil => exact h
  | cons v vs ih => exact ih _ _ (memWf_write m k v h)

/-- A write inside a buffer lists no offset outside it. -/
theorem memBelow_write (cap : Nat) (m : Mem) (k : Nat) (v : Byte) (h : memBelow cap m = true) (hk : k < cap) :
    memBelow cap (memWrite m k v) = true := by
  induction m with
  | nil => simp [memWrite, memBelow, hk]
  | cons d m ih =>
    obtain ⟨a, b⟩ := d
    simp only [memBelow, List.all_cons, Bool.and_eq_true, decide_eq_true_eq] at h ih ⊢
    simp only [memWrite]
    split
    · simp only [List.all_cons, Bool.and_eq_true, decide_eq_true_eq]; exact ⟨hk, h.1, h.2⟩
    · split
      · simp only [List.all_cons, Bool.and_eq_true, decide_eq_true_eq]; exact ⟨hk, h.2⟩
      · simp only [List.all_cons, Bool.and_eq_true, decide_eq_true_eq]; exact ⟨h.1, ih h.2⟩

theorem memBelow_writeList (cap : Nat) (m : Mem) (k : Nat) (vs : List Byte) (h : memBelow cap m = true)
    (hk : k + vs.length ≤ cap) : memBelow cap (memWriteList m k vs) = true := by
  induction vs generalizing m k with
  | nil => exact h
  | cons v vs ih =>
    simp only [List.length_cons] at hk
    exact ih _ _ (memBelow_write cap m k v h (by omega)) (by omega)

/-- The memories of the reset state are in canonical form. -/
theorem memWf_reset : Memory.wf State.reset.ibuf = true ∧ Memory.wf State.reset.obuf = true := ⟨rfl, rfl⟩

/-- Havoc leaves OBUF in canonical form. -/
theorem memWf_havocObuf (s : State) : Memory.wf (havocObuf s).obuf = true := rfl

/-- So does a reset, with the bytes it keeps. -/
theorem memWf_resetRegs (s : State) (hi : Memory.wf s.ibuf = true) (ho : Memory.wf s.obuf = true) :
    Memory.wf (resetRegs s).ibuf = true ∧ Memory.wf (resetRegs s).obuf = true := by
  unfold resetRegs
  split
  · exact ⟨hi, rfl⟩
  · exact ⟨hi, ho⟩

end Sys2Proof.Machine
end

