-- ==== Sys2Proof/Laws/PerInstr.lean ====
section
/-! SUPPORT. The family RoundTrip: every command's encoding is well-formed and decodes to the command
(30_encoding.md R84 to R86). -/

namespace Sys2Proof.Laws.RoundTrip

/-- The fields of a command's word are a legal encoding, and the word decodes to the command. -/
def Statement (i : Instr) : Prop :=
  i.wellFormed = true ∧ (fieldsOf (encode i)).wellFormed = true ∧ decode (encode i) = .ok i

theorem nop : Statement .nop := ⟨by decide, by decide, rfl⟩

theorem clear : Statement .clear := ⟨by decide, by decide, rfl⟩

theorem freq : Statement .freq := ⟨by decide, by decide, rfl⟩

theorem tree : Statement .tree := ⟨by decide, by decide, rfl⟩

theorem codes : Statement .codes := ⟨by decide, by decide, rfl⟩

theorem pack : Statement .pack := ⟨by decide, by decide, rfl⟩

theorem load : Statement .load := ⟨by decide, by decide, rfl⟩

theorem walk (lenient : Bool) : Statement (.walk lenient) := by
  cases lenient <;> exact ⟨by decide, by decide, rfl⟩

theorem compress : Statement .compress := ⟨by decide, by decide, rfl⟩

theorem decompress (lenient : Bool) : Statement (.decompress lenient) := by
  cases lenient <;> exact ⟨by decide, by decide, rfl⟩

end Sys2Proof.Laws.RoundTrip
end

