-- ==== Sys2Proof/Laws/Port.lean ====
section
/-! SUPPORT. What a transaction on the register port can do, said once. -/

namespace Sys2Proof.Machine

/-- A register is found at its own offset (R12). -/
@[simp] theorem regAt_regAddr (r : Reg) : regAt (regAddr r) = some r := by
  cases r
  case ftSym i =>
    have h := i.isLt
    simp only [regAt, regAddr, BitVec.toNat_ofNat]
    rw [Nat.mod_eq_of_lt (by omega), if_neg (by omega), if_pos (by omega), Nat.add_sub_cancel_left]
    simp
  case ftCnt i =>
    have h := i.isLt
    simp only [regAt, regAddr, BitVec.toNat_ofNat]
    rw [Nat.mod_eq_of_lt (by omega), if_neg (by omega), if_neg (by omega), if_pos (by omega), Nat.add_sub_cancel_left]
    simp
  case ctW i =>
    have h := i.isLt
    simp only [regAt, regAddr, BitVec.toNat_ofNat]
    rw [Nat.mod_eq_of_lt (by omega), if_neg (by omega), if_neg (by omega), if_neg (by omega), if_pos (by omega),
      Nat.add_sub_cancel_left]
    simp
  case nodeW k =>
    have h := k.isLt
    simp only [regAt, regAddr, BitVec.toNat_ofNat]
    rw [Nat.mod_eq_of_lt (by omega), if_neg (by omega), if_neg (by omega), if_neg (by omega), if_neg (by omega),
      if_pos (by omega), Nat.add_sub_cancel_left]
    simp
  all_goals rfl

/-- A read of a register that is not locked. -/
theorem portTxn_read (r : Reg) (s : State) (h : (s.busy && !r.classA) = false) :
    portTxn (.read (regAddr r)) s = .next (answer (readReg r s).1 (readReg r s).2) := by
  simp only [portTxn, txnAddr, regAt_regAddr, h, accessReg, Bool.false_eq_true, if_false]

/-- A write to a register other than CMD that is not locked. -/
theorem portTxn_write (r : Reg) (w : Word) (s : State) (h : (s.busy && !r.classA) = false) (hc : r ≠ .cmd) :
    portTxn (.write (regAddr r) w) s = .next (answer (writeReg r w s).1 (writeReg r w s).2) := by
  simp only [portTxn, txnAddr, regAt_regAddr, h, accessReg, hc, Bool.false_eq_true, if_false]

/-- A write to CMD in the idle block (R80, lines 2 to 5). -/
theorem portTxn_cmd (w : Word) (s : State) (h : s.busy = false) :
    portTxn (.write (regAddr .cmd) w) s = writeCmd w s := by
  simp only [portTxn, txnAddr, regAt_regAddr, h, accessReg, Bool.false_and, Bool.false_eq_true, if_false, if_true]

/-- A locked access (R60). -/
theorem portTxn_locked (t : Txn) (r : Reg) (s : State) (h : s.busy = true) (hr : regAt (txnAddr t) = some r)
    (hc : r.classA = false) : portTxn t s = .next (answer ⟨0#32, true⟩ (setOvr s)) := by
  simp only [portTxn, hr, h, hc, Bool.not_false, Bool.and_self, if_true]

/-- An access to an unmapped offset (R61). -/
theorem portTxn_unmapped (t : Txn) (s : State) (hr : regAt (txnAddr t) = none) :
    portTxn t s = .next (answer ⟨0#32, true⟩ s) := by
  simp only [portTxn, hr]

/-- Everything a transaction can come to: unmapped, locked, a read, a write, a command. -/
theorem portTxn_cases (t : Txn) (s : State) :
    (regAt (txnAddr t) = none ∧ portTxn t s = .next (answer ⟨0#32, true⟩ s)) ∨
    (∃ r, regAt (txnAddr t) = some r ∧ s.busy = true ∧ r.classA = false ∧
      portTxn t s = .next (answer ⟨0#32, true⟩ (setOvr s))) ∨
    (∃ r a, t = .read a ∧ regAt a = some r ∧ (s.busy && !r.classA) = false ∧
      portTxn t s = .next (answer (readReg r s).1 (readReg r s).2)) ∨
    (∃ r a w, t = .write a w ∧ regAt a = some r ∧ (s.busy && !r.classA) = false ∧ r ≠ .cmd ∧
      portTxn t s = .next (answer (writeReg r w s).1 (writeReg r w s).2)) ∨
    (∃ a w, t = .write a w ∧ regAt a = some .cmd ∧ s.busy = false ∧ portTxn t s = writeCmd w s) := by
  cases hr : regAt (txnAddr t) with
  | none => exact .inl ⟨rfl, portTxn_unmapped t s hr⟩
  | some r =>
    by_cases hl : (s.busy && !r.classA) = true
    · refine .inr (.inl ⟨r, rfl, ?_, ?_, ?_⟩)
      · simp at hl; exact hl.1
      · simp at hl; exact hl.2
      · simp only [portTxn, hr, hl, if_true]
    · have hf : (s.busy && !r.classA) = false := by simpa using hl
      cases t with
      | read a =>
        refine .inr (.inr (.inl ⟨r, a, rfl, hr, hf, ?_⟩))
        simp only [txnAddr] at hr
        simp only [portTxn, txnAddr, hr, hf, accessReg, Bool.false_eq_true, if_false]
      | write a w =>
        simp only [txnAddr] at hr
        by_cases hc : r = .cmd
        · subst hc
          refine .inr (.inr (.inr (.inr ⟨a, w, rfl, hr, ?_, ?_⟩)))
          · simpa [Reg.classA] using hf
          · simp only [portTxn, txnAddr, hr, hf, accessReg, Bool.false_eq_true, if_false, if_true]
        · refine .inr (.inr (.inr (.inl ⟨r, a, w, rfl, hr, hf, hc, ?_⟩)))
          simp only [portTxn, txnAddr, hr, hf, accessReg, hc, Bool.false_eq_true, if_false]

/-- What a write to CMD in the idle block comes to (R80). -/
theorem writeCmd_cases (w : Word) (s : State) :
    (w = 0#32 ∧ writeCmd w s = answered ⟨0#32, false⟩ (exec .nop s)) ∨
    (w = 1#32 ∧ writeCmd w s = answered ⟨0#32, false⟩ (exec .clear s)) ∨
    (w ≠ 0#32 ∧ w ≠ 1#32 ∧ s.error = true ∧ writeCmd w s = .next (answer ⟨0#32, true⟩ (setOvr s))) ∨
    (w ≠ 0#32 ∧ w ≠ 1#32 ∧ s.error = false ∧ writeCmd w s = .next (answer ⟨0#32, false⟩ (accept w s))) := by
  by_cases h0 : w = 0#32
  · subst h0; exact .inl ⟨rfl, by simp only [writeCmd, if_true]⟩
  · by_cases h1 : w = 1#32
    · subst h1; exact .inr (.inl ⟨rfl, by simp only [writeCmd, h0, if_false, if_true]⟩)
    · cases he : s.error
      · exact .inr (.inr (.inr ⟨h0, h1, rfl, by simp only [writeCmd, h0, h1, he, Bool.false_eq_true, if_false]⟩))
      · exact .inr (.inr (.inl ⟨h0, h1, rfl, by simp only [writeCmd, h0, h1, he, if_false, if_true]⟩))

theorem writeCmd_accept (w : Word) (s : State) (h0 : w ≠ 0#32) (h1 : w ≠ 1#32) (he : s.error = false) :
    writeCmd w s = .next (answer ⟨0#32, false⟩ (accept w s)) := by
  rw [writeCmd, if_neg h0, if_neg h1, if_neg (by simp [he])]

theorem writeCmd_refuse (w : Word) (s : State) (h0 : w ≠ 0#32) (h1 : w ≠ 1#32) (he : s.error = true) :
    writeCmd w s = .next (answer ⟨0#32, true⟩ (setOvr s)) := by
  rw [writeCmd, if_neg h0, if_neg h1, if_pos he]

/-- A transaction always has an answer and a next state (R219). -/
theorem portTxn_next (t : Txn) (s : State) : ∃ u, portTxn t s = .next u := by
  rcases portTxn_cases t s with ⟨_, h⟩ | ⟨_, _, _, _, h⟩ | ⟨_, _, _, _, _, h⟩ | ⟨_, _, _, _, _, _, _, h⟩ |
    ⟨_, w, _, _, hb, h⟩
  · exact ⟨_, h⟩
  · exact ⟨_, h⟩
  · exact ⟨_, h⟩
  · exact ⟨_, h⟩
  · rcases writeCmd_cases w s with ⟨_, e⟩ | ⟨_, e⟩ | ⟨_, _, _, e⟩ | ⟨_, _, _, e⟩
    · exact ⟨answer ⟨0#32, false⟩ s, by rw [h, e]; simp [exec, execNop, hb, answered]⟩
    · exact ⟨answer ⟨0#32, false⟩ (clearState s), by rw [h, e]; simp [exec, execClear, hb, answered]⟩
    · exact ⟨_, h.trans e⟩
    · exact ⟨_, h.trans e⟩

end Sys2Proof.Machine
end

