-- ==== Sys2Proof/Tests/Slice0.lean ====
section
/-! SUPPORT. The model's own tests: ill-formed words, decoding of words written out from spec/30_encoding.md, one step
against the vectors of spec/95_test_vectors.md (named by their ids), and for every statement with hypotheses a concrete
input that meets them. -/

namespace Sys2Proof.Tests

open Sys2Proof Sys2Proof.Machine

/-! ### Well-formedness -/

theorem test_wf_legal_word : (⟨0x15#8, true, 0#23⟩ : CmdFields).wellFormed = true := by decide

theorem test_wf_refuses_opcode :
    (⟨0x22#8, false, 0#23⟩ : CmdFields).opAssigned = false ∧ (⟨0x22#8, false, 0#23⟩ : CmdFields).wellFormed = false := by
  decide

theorem test_wf_refuses_lenient :
    (⟨0x10#8, true, 0#23⟩ : CmdFields).lenientAllowed = false ∧
    (⟨0x10#8, true, 0#23⟩ : CmdFields).wellFormed = false := by decide

theorem test_wf_refuses_zero_field :
    (⟨0x10#8, false, 1#23⟩ : CmdFields).zeroClear = false ∧ (⟨0x10#8, false, 1#23⟩ : CmdFields).wellFormed = false := by
  decide

/-! ### Decoding: words written out bit by bit from R84 and R85 (OP in 7:0, L in 8, ZERO in 31:9) -/

theorem test_decode_nop : decode 0b00000000000000000000000_0_00000000#32 = .ok .nop := rfl
theorem test_decode_clear : decode 0b00000000000000000000000_0_00000001#32 = .ok .clear := rfl
theorem test_decode_freq : decode 0b00000000000000000000000_0_00010000#32 = .ok .freq := rfl
theorem test_decode_tree : decode 0b00000000000000000000000_0_00010001#32 = .ok .tree := rfl
theorem test_decode_codes : decode 0b00000000000000000000000_0_00010010#32 = .ok .codes := rfl
theorem test_decode_pack : decode 0b00000000000000000000000_0_00010011#32 = .ok .pack := rfl
theorem test_decode_load : decode 0b00000000000000000000000_0_00010100#32 = .ok .load := rfl
theorem test_decode_walk : decode 0b00000000000000000000000_0_00010101#32 = .ok (.walk false) := rfl
theorem test_decode_walk_l : decode 0b00000000000000000000000_1_00010101#32 = .ok (.walk true) := rfl
theorem test_decode_compress : decode 0b00000000000000000000000_0_00100000#32 = .ok .compress := rfl
theorem test_decode_decompress : decode 0b00000000000000000000000_0_00100001#32 = .ok (.decompress false) := rfl
theorem test_decode_decompress_l : decode 0b00000000000000000000000_1_00100001#32 = .ok (.decompress true) := rfl

/-- VX6, VX5, VX9 and VX13: illegal words. -/
theorem test_decode_rejects :
    decode 0x00000002#32 = .error .opcodeUnassigned ∧ decode 0x00000101#32 = .error .lenientNotAllowed ∧
    decode 0x80000010#32 = .error .zeroFieldNotZero ∧ decode 0x00000215#32 = .error .zeroFieldNotZero :=
  ⟨rfl, rfl, rfl, rfl⟩

theorem test_table_word : decodeTableWord 32 0x115 = some (.walk true) ∧ decodeTableWord 32 0x110 = none := by decide

/-! ### Small states -/

/-- The next state of an outcome, or the state given. -/
def after (o : Host.Outcome State Fault Refusal) (d : State) : State :=
  match o with
  | .next t => t
  | .fault _ => d
  | .refused _ => d

/-- The outcome is a next state. -/
def isNext (o : Host.Outcome State Fault Refusal) : Bool :=
  match o with
  | .next _ => true
  | .fault _ => false
  | .refused _ => false

theorem isNext_eq {o : Host.Outcome State Fault Refusal} (d : State) (h : isNext o = true) : o = .next (after o d) := by
  cases o <;> first | rfl | cases h

theorem isNext_of {o : Host.Outcome State Fault Refusal} (h : isNext o = true) : ∃ t, o = .next t :=
  ⟨_, isNext_eq State.reset h⟩

/-- A buffer's memory holding the bytes from offset 0. -/
def bytesFrom (bs : List Byte) : Mem := bs.zipIdx.map fun p => (p.2, p.1)

/-- The reset state with capacities of `ic` and `oc` bytes and an input in IBUF. -/
def withInput (ic oc : Nat) (bs : List Byte) : State :=
  { State.reset with inCap := ic, outCap := oc, ibuf := bytesFrom bs, inLen := BitVec.ofNat 32 bs.length }

/-- The word accepted in `s` (R81), its completion due in the next cycle. -/
def pending (w : Word) (s : State) : State := { accept w s with busycnt := 1 }

/-- A command accepted and completed. -/
def did (i : Instr) (s : State) : State := after (exec i (pending (encode i) s)) s

/-- The inputs of the vectors. -/
def scen : List Byte := List.replicate 10 0x00#8 ++ List.replicate 5 0x01#8
def abra : List Byte := [0x61#8, 0x62#8, 0x72#8, 0x61#8, 0x63#8, 0x61#8, 0x64#8, 0x61#8, 0x62#8, 0x72#8, 0x61#8]
def envScen : List Byte :=
  [0x02#8, 0x00#8, 0x01#8, 0x05#8, 0x00#8, 0x00#8, 0x00#8, 0x00#8, 0x0A#8, 0x00#8, 0x00#8, 0x00#8, 0x0F#8, 0x00#8,
   0x00#8, 0x00#8, 0xFF#8, 0x03#8]
/-- ENV_ABRA up to B, then B and a payload (VW1 to VW10). -/
def envAbra (b : Nat) (payload : List Byte) : List Byte :=
  [0x05#8, 0x00#8, 0x63#8, 0x01#8, 0x00#8, 0x00#8, 0x00#8, 0x64#8, 0x01#8, 0x00#8, 0x00#8, 0x00#8, 0x62#8, 0x02#8,
   0x00#8, 0x00#8, 0x00#8, 0x72#8, 0x02#8, 0x00#8, 0x00#8, 0x00#8, 0x61#8, 0x05#8, 0x00#8, 0x00#8, 0x00#8] ++
  bytes32 b ++ payload
/-- The envelope of AAA with a payload byte (VW11 has 0x02). -/
def envA (payload : Byte) : List Byte :=
  [0x01#8, 0x00#8, 0x41#8, 0x03#8, 0x00#8, 0x00#8, 0x00#8, 0x03#8, 0x00#8, 0x00#8, 0x00#8, payload]

/-- The states of the vector V1 on the way. -/
def idle0 : State := withInput 64 64 scen
def scenFt : State := did .freq idle0
def scenTree : State := did .tree scenFt
def scenCt : State := did .codes scenTree
def scenPack : State := did .pack scenCt
def envIn : State := withInput 64 64 envScen
def envLd : State := did .load envIn
def envTree : State := did .tree envLd
/-- VF6: FREQ on the reset state. -/
def emptyErr : State := did .freq (withInput 64 64 [])

/-! ### Port and issue -/

/-- VX1, VX2: NOP changes nothing. -/
theorem test_nop : statusWord (after (exec .nop scenPack) idle0) = 0x13000072#32 := by decide

/-- VX3: CLEAR. -/
theorem test_clear :
    statusWord (after (exec .clear scenPack) idle0) = 0#32 ∧ (after (exec .clear scenPack) idle0).inLen = 15#32 ∧
    (after (exec .clear scenPack) idle0).outLen = 0#32 := by decide

/-- VX4: 0x00000100 is accepted and completes with ERR_ILLCMD. -/
theorem test_illcmd :
    statusWord (after (step (pending 0x100#32 idle0)) idle0) = 0x00080004#32 ∧
    (after (step (pending 0x100#32 idle0)) idle0).errInfo = 0x100#32 := by decide

/-- VX14: a command in the ERROR state is refused. -/
theorem test_refused :
    statusWord emptyErr = 0x10010004#32 ∧
    statusWord (after (portTxn (.write (regAddr .cmd) 0x20#32) emptyErr) idle0) = 0x1001000C#32 := by decide

/-- VR3: a locked read while BUSY answers err 1 and sets OVR. -/
theorem test_busy_lock :
    (after (step { pending 0x20#32 idle0 with busycnt := 9, script := [.txn (.read (regAddr .inLen))] }) idle0).resp =
      some ⟨0#32, true⟩ ∧
    statusWord (after (step { pending 0x20#32 idle0 with
      busycnt := 9, script := [.txn (.read (regAddr .inLen))] }) idle0) = 0x20000009#32 := by decide

/-- VR4: a reset in the middle of COMPRESS. -/
theorem test_reset_cycle :
    statusWord (after (step { pending 0x20#32 idle0 with busycnt := 9, script := [.rst none] }) idle0) = 0#32 ∧
    (after (step { pending 0x20#32 idle0 with busycnt := 9, script := [.rst none] }) idle0).ibufByte 14 = 0x01#8 := by
  decide

/-- The word placed by `withFetchWord` runs in the very next step from reset (VF6, VX1). -/
theorem test_fetch_word :
    statusWord (after (step (State.reset.withFetchWord 32 0x10)) idle0) = 0x10010004#32 ∧
    statusWord (after (step (State.reset.withFetchWord 32 0x00)) idle0) = 0#32 := by decide

/-! ### The units -/

/-- VF1. -/
theorem test_freq : statusWord scenFt = 0x10000012#32 ∧ scenFt.ftList = [⟨0x01#8, 5#32⟩, ⟨0x00#8, 10#32⟩] := by decide

/-- VF2: equal counts stay in order of first occurrence. -/
theorem test_freq_ties :
    (did .freq (withInput 64 64 [0x03#8, 0x02#8, 0x01#8])).ftList =
      [⟨0x03#8, 1#32⟩, ⟨0x02#8, 1#32⟩, ⟨0x01#8, 1#32⟩] := by decide

/-- V1: the tree. -/
theorem test_tree :
    statusWord scenTree = 0x11000032#32 ∧ treeInfoWord scenTree = 0x00030002#32 ∧
    nodeWinWord scenTree 0#9 = 0x019FF1FF#32 ∧ nodeWinWord scenTree 2#9 = 0x00001000#32 := by decide

/-- VT7: the carried node goes behind the merged ones. -/
theorem test_tree_carry :
    ((buildTree ((List.range 7).map (BitVec.ofNat 8))).map fun b => b.arena.drop 7) =
      some [innerNode 0#9 1#9, innerNode 2#9 3#9, innerNode 4#9 5#9, innerNode 7#9 8#9, innerNode 9#9 6#9,
        innerNode 10#9 11#9] := by decide

/-- V1: the codes. -/
theorem test_codes :
    statusWord scenCt = 0x12000072#32 ∧ ctWinWord scenCt 0x01#8 = 0x8100#32 ∧ ctWinWord scenCt 0x00#8 = 0x8101#32 ∧
    ctWinWord scenCt 0x02#8 = 0#32 := by decide

/-- V2: the codes of ABRA, a 1 bit appended at its own position. -/
theorem test_codes_abra :
    let s := did .codes (did .tree (did .freq (withInput 64 64 abra)))
    ctWinWord s 0x64#8 = 0x8304#32 ∧ ctWinWord s 0x72#8 = 0x8306#32 := by decide

/-- V1: the envelope. -/
theorem test_pack :
    statusWord scenPack = 0x13000072#32 ∧ scenPack.encBits = 15#32 ∧ scenPack.obufBytes 18 = envScen := by decide

/-- P6: the payload byte completed by input byte 7 does not fit 16 bytes. -/
theorem test_pack_overflow :
    let s := did .pack { scenCt with outCap := 16 }
    s.err = .overflow ∧ s.errInfo = 7#32 ∧ s.outLen = 0#32 := by decide

/-- V1, decode side. -/
theorem test_load :
    statusWord envLd = 0x14000092#32 ∧ envLd.decBits = 15#32 ∧ envLd.payBase = 16#32 ∧ envLd.ftN = 2#9 := by decide

/-- A padding bit of the last payload byte is 1 (R91 (h)). -/
theorem test_load_padding :
    let s := did .load (withInput 64 64 (envA 0x08#8))
    s.err = .envelope ∧ s.errInfo = 11#32 := by decide

/-- V1, decode side: WALK. -/
theorem test_walk :
    statusWord (did (.walk false) envTree) = 0x150000B2#32 ∧ (did (.walk false) envTree).obufBytes 15 = scen := by decide

/-- VW3: the bits end inside the tree, strict and lenient. -/
theorem test_walk_midtree :
    let s := did .tree (did .load (withInput 64 64 (envAbra 21 [0xE5#8, 0xC8#8, 0x12#8])))
    statusWord (did (.walk false) s) = 0x150500B4#32 ∧ statusWord (did (.walk true) s) = 0x150001B2#32 := by decide

/-- V1 with COMPRESS. -/
theorem test_compress :
    statusWord (did .compress idle0) = 0x20000072#32 ∧ (did .compress idle0).obufBytes 18 = envScen := by decide

/-- R42: an error of COMPRESS that FREQ raises leaves OBUF havoc, VP9: ERR_SEQ of PACK does not. -/
theorem test_compress_spoils :
    (let s := { withInput 64 64 [] with obuf := [(0, 7#8)] }; (did .compress s).obuf = [] ∧ (did .compress s).obufGen = 1) ∧
    (let s := { envTree with obuf := [(0, 7#8)] }; statusWord (did .pack s) = 0x130700B4#32 ∧ (did .pack s).obufByte 0 = 7#8) := by
  decide

/-- VF7 with COMPRESS's LASTOP: IN_LEN beyond IN_CAP. -/
theorem test_compress_inlen :
    statusWord (did .compress { withInput 16 64 [] with inLen := 17#32 }) = 0x20020004#32 := by decide

/-- V2: DECOMPRESS of ENV_ABRA. -/
theorem test_decompress :
    let s := did (.decompress false) (withInput 64 64 (envAbra 23 [0xE5#8, 0xC8#8, 0x72#8]))
    statusWord s = 0x210000B2#32 ∧ s.obufBytes 11 = abra := by decide

/-- VW11: a bit selects the absent child, lenient mode. -/
theorem test_decompress_badpath :
    let s := did (.decompress true) (withInput 64 64 (envA 0x02#8))
    statusWord s = 0x210600B4#32 ∧ s.errInfo = 1#32 := by decide

/-! ### Witnesses: for each statement of the obligations, inputs that meet its hypotheses, clause by clause -/

/-- The state is in the invariant, as a computation. -/
def invCheck (s : State) : Bool :=
  decide (1 ≤ s.inCap ∧ s.inCap ≤ 2 ^ 28 ∧ 1 ≤ s.outCap ∧ s.outCap ≤ 2 ^ 28) &&
  (Memory.wf s.ibuf && memBelow s.inCap s.ibuf && (Memory.wf s.obuf && memBelow s.outCap s.obuf)) &&
  ((!s.ctV || s.treeV) && (!s.treeV || s.ftV) && (!s.payV || s.ftV)) &&
  decide (s.ftN.toNat ≤ 256) && (s.ftV || s.ftN == 0#9) &&
  (!s.ftV || (decide (1 ≤ s.ftList.length ∧ s.ftList.length ≤ 256) && decide (∀ e ∈ s.ftList, e.cnt ≠ 0#32) &&
    decide (s.ftList.Pairwise fun x y => x.cnt ≤ y.cnt) && decide (s.ftList.map FtEntry.sym).Nodup)) &&
  (!s.treeV || (buildTree s.symbols).any fun b =>
    decide (tableTake s.node s.nodeN.toNat = b.arena) && decide (s.nodeN.toNat = b.arena.length) && decide (s.root = b.root)) &&
  (!s.ctV || decide (buildCodes s.node s.root = .ok s.ct)) &&
  (!s.payV || decide (s.payBase.toNat + ceil8 s.decBits.toNat ≤ s.inCap)) &&
  decide (s.outLen.toNat ≤ s.outCap) &&
  (!s.busy || (!s.done && !s.error && !s.mid)) && (!s.done || !s.error) && (s.error == decide (s.err ≠ .none)) &&
  s.seq.all (fun w => decide (w ≠ 0#32 ∧ w ≠ 1#32 ∧ s.lastop = w.extractLsb' 0 8 ∧ s.work.cmdl = w.getLsbD 8 ∧
    1 ≤ s.busycnt)) &&
  (s.busy || decide (s.busycnt = 0))

theorem inv_of_check {s : State} (h : invCheck s = true) : s.Inv := by
  simp only [invCheck, Bool.and_eq_true] at h
  obtain ⟨⟨⟨⟨⟨⟨⟨⟨⟨⟨⟨⟨⟨⟨hc, hb⟩, hf⟩, hn⟩, hz⟩, ht⟩, htr⟩, hco⟩, hp⟩, ho⟩, hq⟩, hd⟩, he⟩, hr⟩, hi⟩ := h
  simp only [decide_eq_true_eq] at hc hn ho
  obtain ⟨⟨hb1, hb2⟩, hb3, hb4⟩ := hb
  obtain ⟨⟨hf1, hf2⟩, hf3⟩ := hf
  constructor
  · exact ⟨hc.1, hc.2.1⟩
  · exact ⟨hc.2.2.1, hc.2.2.2⟩
  · exact ⟨hb1, hb2⟩
  · exact ⟨hb3, hb4⟩
  · intro h; simpa [h] using hf1
  · intro h; simpa [h] using hf2
  · intro h; simpa [h] using hf3
  · exact ⟨hn, fun h => by simpa [h] using hz⟩
  · intro h
    simp only [h, Bool.not_true, Bool.false_or, Bool.and_eq_true, decide_eq_true_eq] at ht
    exact ⟨ht.1.1.1, ht.1.1.2, ht.1.2, ht.2⟩
  · intro h
    simp only [h, Bool.not_true, Bool.false_or] at htr
    cases hb : buildTree s.symbols with
    | none => simp [hb] at htr
    | some b =>
      simp only [hb, Option.any_some, Bool.and_eq_true, decide_eq_true_eq] at htr
      exact ⟨b, hb, htr.1.1, htr.1.2, htr.2⟩
  · intro h; simpa [h] using hco
  · intro h; simpa [h] using hp
  · exact ho
  · intro h; simpa [h, and_assoc] using hq
  · intro h; simpa [h] using hd
  · have := he
    cases hx : s.error <;> simp_all
  · intro w hw
    simpa [hw, and_assoc] using hr
  · intro h; simpa [State.busy, h] using hi

theorem inv_idle0 : idle0.Inv := inv_of_check (by decide)
theorem inv_scenFt : scenFt.Inv := inv_of_check (by decide)
theorem inv_scenTree : scenTree.Inv := inv_of_check (by decide)
set_option maxRecDepth 8000 in
theorem inv_scenCt : scenCt.Inv := inv_of_check (by decide)
theorem inv_envLd : envLd.Inv := inv_of_check (by decide)
theorem inv_envTree : envTree.Inv := inv_of_check (by decide)
theorem inv_emptyErr : emptyErr.Inv := inv_of_check (by decide)
theorem inv_pendingFreq : (pending 0x10#32 idle0).Inv := inv_of_check (by decide)

/-- The command word `w` in execution with `n` cycles left and the host's actions `h` to come. -/
def running (w : Word) (n : Nat) (h : List HostAct) : State := { pending w idle0 with busycnt := n, script := h }

/-- A leaf path of a concrete tree, step by step. -/
theorem scenTree_path_left : LeafPath scenTree.node scenTree.root [false] 0#9 := by
  refine .left _ _ _ (by decide) ?_
  have h : (tableGet scenTree.node scenTree.root).left = 0#9 := by decide
  rw [h]
  exact .leaf _ (by decide)

theorem envScen_ok : EnvelopeOk envScen where
  holdsCount := by decide
  countRange := by decide
  holdsTable := by decide
  positive := by decide
  ascending := by
    have : ∀ i, i < envN envScen → 1 ≤ i → envCnt envScen (i - 1) ≤ envCnt envScen i := by decide
    exact fun i h1 h2 => this i h2 h1
  distinct := by
    have : ∀ i, i < envN envScen → ∀ j, j < envN envScen → i ≠ j → envSym envScen i ≠ envSym envScen j := by decide
    exact fun i j hi hj => this i hi j hj
  exactSize := by decide
  padding := by
    intro _
    have : ∀ t, t < 8 → envB envScen % 8 ≤ t → (byteAt envScen (envScen.length - 1)).getLsbD t = false := by decide
    exact fun t h1 h2 => this t h2 h1

theorem witness_IllegalWordsCompleteInError :
    (decode 0x2#32 = .error .opcodeUnassigned ∧ idle0.busy = false ∧ idle0.error = false) ∧
    ((running 0x2#32 1 []).seq = some 0x2#32 ∧ (running 0x2#32 1 []).busycnt = 1) := ⟨⟨rfl, by decide⟩, by decide⟩

theorem witness_NopChangesNothing : idle0.busy = false ∧ (running 0x10#32 2 []).busy = true := by decide

theorem witness_ClearForgetsDerivedState :
    (idle0.busy = false ∧ (running 0x10#32 2 []).busy = true) ∧ (emptyErr.busy = false ∧ emptyErr.error = true) ∧
    (let s := { emptyErr with script := [.txn (.write (regAddr .cmd) 1#32)] }
     s.busy = false ∧ s.error = true ∧ isNext (step s) = true ∧ (after (step s) s).error = false) := by decide

theorem witness_ErrorStateRefusesCommands :
    emptyErr.busy = false ∧ emptyErr.error = true ∧ 0x10#32 ≠ 0x00000000#32 ∧ 0x10#32 ≠ 0x00000001#32 := by decide

theorem witness_ErrorStateLasts :
    emptyErr.busy = false ∧ emptyErr.error = true ∧ isNext (step { emptyErr with script := [.rst none] }) = true ∧
    isNext (step { emptyErr with script := [.txn (.write (regAddr .cmd) 0x20#32)] }) = true := by decide

theorem witness_AcceptanceLatchesCommand :
    idle0.busy = false ∧ idle0.error = false ∧ 0x10#32 ≠ 0x00000000#32 ∧ 0x10#32 ≠ 0x00000001#32 := by decide

theorem witness_CompletionWhenCountReachesZero :
    2 ≤ (running 0x10#32 2 []).busycnt ∧
    ((running 0x10#32 1 []).busycnt = 1 ∧ (running 0x10#32 1 []).seq = some 0x10#32 ∧ decode 0x10#32 = .ok .freq) ∧
    ((running 0x2#32 1 []).busycnt = 1 ∧ (running 0x2#32 1 []).seq = some 0x2#32 ∧
      decode 0x2#32 = .error .opcodeUnassigned) := ⟨by decide, ⟨by decide, by decide, rfl⟩, ⟨by decide, by decide, rfl⟩⟩

theorem witness_StepRunsDecodedCommand :
    ((running 0x10#32 1 [.idle]).seq = some 0x10#32 ∧ decode 0x10#32 = .ok .freq ∧
      (running 0x10#32 1 [.idle]).busycnt = 1 ∧ (running 0x10#32 1 [.idle]).script = [.idle]) ∧
    ((running 0x10#32 1 []).busycnt = 1 ∧ (running 0x10#32 1 []).script = []) ∧
    (idle0.seq = none ∧ decode 0x0#32 = .ok .nop ∧ decode 0x1#32 = .ok .clear) ∧
    (Instr.freq ≠ .nop ∧ Instr.freq ≠ .clear) ∧
    (idle0.seq = none ∧ idle0.script = [] ∧ { idle0 with script := [.idle] }.script = [.idle] ∧
      { idle0 with script := [.wait] }.script = [.wait] ∧
      { idle0 with script := [.txn (.read (regAddr .idata))] }.script = [.txn (.read (regAddr .idata))]) :=
  ⟨⟨by decide, rfl, by decide, by decide⟩, by decide, ⟨by decide, rfl, rfl⟩, by decide, by decide⟩

/-- An idle block, and each kind of read-only register at the ends of its range. -/
theorem witness_ResultRegisters :
    idle0.busy = false ∧ regAddr (.ftSym 0#8) = 0x100#14 ∧ regAddr (.ctW 255#8) = 0x3FF#14 ∧
    regAddr (.nodeW 511#9) = 0x5FF#14 := by decide

theorem witness_BusyLock :
    (running 0x10#32 2 []).busy = true ∧ regAt (txnAddr (.read (regAddr .inLen))) = some .inLen ∧
    regAt (txnAddr (.write (regAddr .cmd) 1#32)) = some .cmd ∧ Reg.inLen.classA = false ∧ Reg.cmd.classA = false := by
  decide

/-- The edges of the unmapped offsets: 0x0048, 0x03FC, 0x1800, 0xFFFC. -/
theorem witness_UnmappedOffsets :
    17 < (txnAddr (.read 18#14)).toNat ∧ (txnAddr (.read 255#14)).toNat < 0x100 ∧
    0x600 ≤ (txnAddr (.read 0x600#14)).toNat ∧ 0x600 ≤ (txnAddr (.read 0x3FFF#14)).toNat := by decide

/-- IPTR at 0, at the last byte and at the capacity, which no two clauses share. -/
theorem witness_InputDataPort :
    (idle0.busy = false ∧ idle0.iptr.toNat < idle0.inCap) ∧
    ((63#32 : Word).toNat < idle0.inCap ∧ idle0.inCap ≤ (64#32 : Word).toNat ∧ idle0.inCap ≤ 2 ^ 28) ∧
    ((running 0x10#32 2 []).busy = true ∧ txnAddr (.read (regAddr .idata)) = regAddr .idata ∧
      txnAddr (.write (regAddr .iptr) 0#32) = regAddr .iptr) := by decide

theorem witness_OutputDataPort :
    (idle0.busy = false ∧ idle0.optr.toNat < idle0.outCap) ∧
    ((63#32 : Word).toNat < idle0.outCap ∧ idle0.outCap ≤ (64#32 : Word).toNat) ∧
    ((running 0x10#32 2 []).busy = true ∧ txnAddr (.read (regAddr .odata)) = regAddr .odata) ∧
    isNext (exec .freq idle0) = true ∧ isNext (step { idle0 with script := [.rst none] }) = true := by decide

theorem witness_ControlRegister : isNext (exec .compress idle0) = true ∧ isNext (exec .clear idle0) = true := by decide

/-- The windows of a valid table at the last valid index and at the first beyond, and of an invalid one. -/
theorem witness_TableWindows :
    scenCt.busy = false ∧ scenCt.ftV = true ∧ (1#8 : Byte).toNat < scenCt.ftN.toNat ∧
    ¬ (2#8 : Byte).toNat < scenCt.ftN.toNat ∧ scenCt.treeV = true ∧ (2#9 : NodeIdx).toNat < scenCt.nodeN.toNat ∧
    ¬ (3#9 : NodeIdx).toNat < scenCt.nodeN.toNat ∧ scenCt.ctV = true ∧ idle0.ftV = false := by decide

/-- FREQ changes FT, TREE changes NODE, CODES changes CT. -/
theorem witness_TablesChangeOnlyByCommands :
    isNext (portTxn (.write (regAddr .idata) 7#32) idle0) = true ∧
    (isNext (exec .freq idle0) = true ∧ tableGet scenFt.ft 0#8 ≠ tableGet idle0.ft 0#8) ∧
    (isNext (exec .tree scenFt) = true ∧ tableGet scenTree.node 0#9 ≠ tableGet scenFt.node 0#9) ∧
    (isNext (exec .codes scenTree) = true ∧ tableGet scenCt.ct 0#8 ≠ tableGet scenTree.ct 0#8) ∧
    (idle0.busy = false ∧ isNext (step idle0) = true ∧ idle0.script = []) := by decide

/-- An access that writes IBUF; one that reads ODATA, which writes nothing but OPTR; one at the capacity. -/
theorem witness_HostAccessFrame :
    (txnAddr (.write (regAddr .idata) 7#32) ≠ regAddr .cmd ∧
      isNext (portTxn (.write (regAddr .idata) 7#32) idle0) = true) ∧
    (txnAddr (.read (regAddr .odata)) ≠ regAddr .cmd ∧ isNext (portTxn (.read (regAddr .odata)) idle0) = true ∧
      (∀ v, Txn.read (regAddr .odata) ≠ .write (regAddr .idata) v ∧ Txn.read (regAddr .odata) ≠ .write (regAddr .ctrl) v)) ∧
    ¬ { idle0 with iptr := 64#32 }.iptr.toNat < idle0.inCap := by
  refine ⟨by decide, ⟨by decide, by decide, fun v => ⟨?_, ?_⟩⟩, by decide⟩ <;> intro e <;> cases e

theorem witness_ResetRegistersReadZero : Reg.status ≠ .id ∧ Reg.status ≠ .inCap ∧ Reg.status ≠ .outCap ∧
    Reg.status ≠ .idata ∧ Reg.status ≠ .odata := by decide

theorem witness_ResetCycle :
    (running 0x20#32 5 [.rst (some (.read 0#14))]).script = .rst (some (.read 0#14)) :: [] := by decide

/-- A FREQ abandoned, which leaves OBUF as it is, and the idle block. -/
theorem witness_ResetKeepsBuffers :
    (running 0x10#32 5 [.rst none]).script = .rst none :: [] ∧ (running 0x10#32 5 [.rst none]).seq = some 0x10#32 ∧
    decode 0x10#32 = .ok .freq ∧ Instr.freq ≠ .pack ∧ (∀ l, Instr.freq ≠ .walk l) ∧ Instr.freq ≠ .compress ∧
    ∀ l, Instr.freq ≠ .decompress l := ⟨by decide, by decide, rfl, by decide⟩

theorem witness_MissingRequirement :
    idle0.ftV = false ∧ idle0.treeV = false ∧ idle0.ctV = false ∧ (scenTree.treeV = true ∧ scenTree.payV = false) ∧
    (envLd.treeV = false ∧ envLd.payV = true) := by decide

theorem witness_EngineLeavesHostSide : Instr.freq ≠ .nop ∧ Instr.freq ≠ .clear ∧ isNext (exec .freq idle0) = true := by
  decide

/-- A success of each of the four commands that write OBUF. -/
theorem witness_OutputBufferFrame :
    isNext (exec .load envIn) = true ∧ scenCt.outCap ≤ 2 ^ 28 ∧
    (isNext (exec .pack scenCt) = true ∧ (after (exec .pack scenCt) scenCt).error = false) ∧
    (isNext (exec (.walk false) envTree) = true ∧ (after (exec (.walk false) envTree) idle0).error = false) ∧
    (isNext (exec .compress idle0) = true ∧ (after (exec .compress idle0) idle0).error = false) ∧
    (isNext (exec (.decompress true) envIn) = true ∧ (after (exec (.decompress true) envIn) idle0).error = false) := by
  decide

theorem witness_UnitCommandFrames :
    isNext (exec .freq idle0) = true ∧ isNext (exec .load envIn) = true ∧ isNext (exec .tree scenFt) = true ∧
    isNext (exec .codes scenTree) = true ∧ isNext (exec .pack scenCt) = true ∧
    isNext (exec (.walk true) envTree) = true := by decide

theorem witness_EveryCommandCompletes :
    (pending 0x10#32 idle0).Inv ∧ (pending 0x10#32 idle0).error = false ∧ Instr.freq ≠ .nop ∧ Instr.freq ≠ .clear :=
  ⟨inv_pendingFreq, by decide⟩

/-- An error of each kind of clause: before and after the start effects of a command that writes OBUF. -/
theorem witness_ErrorEntry :
    (let s := withInput 64 64 []
     s.error = false ∧ isNext (exec .compress s) = true ∧ (after (exec .compress s) s).error = true ∧
     (after (exec .compress s) s).err = .empty) ∧
    (isNext (exec .pack idle0) = true ∧ (after (exec .pack idle0) idle0).error = true ∧
      (after (exec .pack idle0) idle0).err = .seq) ∧
    (let s := { scenCt with outCap := 17 }
     s.error = false ∧ isNext (exec .pack s) = true ∧ (after (exec .pack s) s).err = .overflow) := by decide

/-- Empty, beyond the capacity, and the two ends of the range that fits. -/
theorem witness_FreqBuildsStableTable :
    (withInput 64 64 []).inLen = 0#32 ∧ { idle0 with inLen := 65#32 }.inCap < (65#32 : Word).toNat ∧
    (1#32 ≠ 0#32 ∧ (1#32 : Word).toNat ≤ idle0.inCap) ∧ (64#32 ≠ 0#32 ∧ (64#32 : Word).toNat ≤ idle0.inCap) := by decide

theorem witness_FreqTableIsOrdered : idle0.inLen ≠ 0#32 ∧ idle0.inLen.toNat ≤ idle0.inCap := by decide

/-- No table, and tables of 1 and of 256 entries. -/
theorem witness_TreeBuildsFromTable :
    idle0.ftV = false ∧ scenFt.ftV = true ∧ (1 ≤ (1#9 : BitVec 9).toNat ∧ (256#9 : BitVec 9).toNat ≤ 256) := by decide

theorem witness_MergeSchedulerComputesTree : 1 ≤ scenFt.symbols.length ∧ scenFt.symbols.length ≤ 256 := by decide

theorem witness_TreeArenaLayout : 1 ≤ scenFt.symbols.length ∧ scenFt.symbols.length ≤ 256 := by decide

theorem witness_TreeDepthBound :
    ∃ b, 1 ≤ scenTree.symbols.length ∧ scenTree.symbols.length ≤ 256 ∧ buildTree scenTree.symbols = some b ∧
      tableTake scenTree.node b.arena.length = b.arena ∧ LeafPath scenTree.node b.root [false] 0#9 := by
  refine ⟨⟨[leafNode 0x01#8, leafNode 0x00#8, innerNode 0#9 1#9], 2#9⟩, by decide, by decide, by decide, by decide, ?_⟩
  have h : scenTree.root = 2#9 := by decide
  exact h ▸ scenTree_path_left

theorem witness_TreeDependsOnSymbolsOnly :
    scenFt.ftV = true ∧ envLd.ftV = true ∧ 1 ≤ scenFt.ftN.toNat ∧ scenFt.ftN.toNat ≤ 256 ∧ envLd.ftN = scenFt.ftN ∧
    envLd.symbols = scenFt.symbols := by decide

theorem witness_CodesRecordsPaths :
    scenTree.Inv ∧ scenTree.treeV = true ∧ LeafPath scenTree.node scenTree.root [false] 0#9 ∧
    0x01#8 ∈ scenTree.symbols ∧ 0x02#8 ∉ scenTree.symbols :=
  ⟨inv_scenTree, by decide, scenTree_path_left, by decide, by decide⟩

theorem witness_CodesArePrefixFree :
    scenCt.Inv ∧ scenCt.ctV = true ∧ 0x00#8 ∈ scenCt.symbols ∧ 0x01#8 ∈ scenCt.symbols ∧ 0x00#8 ≠ 0x01#8 :=
  ⟨inv_scenCt, by decide⟩

theorem witness_SingleSymbolCode :
    let s := did .freq (withInput 64 64 [0x41#8, 0x41#8, 0x41#8])
    s.ftV = true ∧ s.ftN = 1#9 := by decide

/-- The envelope of 18 bytes in a buffer of 64 and in one it fills. -/
theorem witness_PackWritesEnvelope :
    scenCt.ctV = true ∧ scenCt.inLen.toNat ≤ scenCt.inCap ∧ scenCt.ftN.toNat ≤ 256 ∧
    (∀ b, b ∈ scenCt.input → (tableGet scenCt.ct b).valid = true) ∧
    envSize scenCt.ftN.toNat (encodeBits scenCt.ct scenCt.input).length = 18 ∧ 18 ≤ scenCt.outCap := by decide

/-- One input per clause: IN_LEN beyond IN_CAP; 15 bytes of OBUF; a byte without a code at index 0; 16 bytes, where the
payload byte completed by input byte 7 does not fit; 17 bytes, where the last partial byte does not. -/
theorem witness_PackErrors :
    scenCt.ctV = true ∧ { scenCt with inLen := 65#32 }.inCap < (65#32 : Word).toNat ∧
    (scenCt.inLen.toNat ≤ scenCt.inCap ∧ scenCt.ftN.toNat ≤ 256 ∧ 15 < 6 + 5 * scenCt.ftN.toNat) ∧
    (let s := { scenCt with ibuf := bytesFrom [0x07#8], inLen := 1#32 }
     6 + 5 * s.ftN.toNat ≤ s.outCap ∧ 0 < s.inLen.toNat ∧ ∀ b, s.input[0]? = some b → (tableGet s.ct b).valid = false) ∧
    (7 < scenCt.inLen.toNat ∧ (∀ b, b ∈ scenCt.input.take 8 → (tableGet scenCt.ct b).valid = true) ∧
      16 + (encodeBits scenCt.ct (scenCt.input.take 7)).length / 8 ≤ 16 ∧
      16 < 16 + (encodeBits scenCt.ct (scenCt.input.take 8)).length / 8) ∧
    ((∀ b, b ∈ scenCt.input.take 15 → (tableGet scenCt.ct b).valid = true) ∧
      16 + (encodeBits scenCt.ct (scenCt.input.take 15)).length / 8 ≤ 17 ∧
      17 < 16 + ceil8 (encodeBits scenCt.ct (scenCt.input.take 15)).length) := by decide

theorem witness_PackedEnvelopeWellFormed :
    scenCt.Inv ∧ scenCt.ctV = true ∧ scenCt.inLen.toNat ≤ scenCt.inCap ∧
    (∀ b, b ∈ scenCt.input → (tableGet scenCt.ct b).valid = true) ∧
    envSize scenCt.ftN.toNat (encodeBits scenCt.ct scenCt.input).length ≤ scenCt.outCap := ⟨inv_scenCt, by decide⟩

theorem envIn_input : envIn.input = envScen := by decide

/-- A well-formed envelope, and two inputs that are none: too long, and an empty one. -/
theorem witness_LoadAcceptsExactlyEnvelopes :
    (envIn.inLen.toNat ≤ envIn.inCap ∧ EnvelopeOk envIn.input) ∧
    (¬ ({ envIn with inLen := 65#32 }.inLen.toNat ≤ 64 ∧ EnvelopeOk { envIn with inLen := 65#32 }.input)) ∧
    ¬ ((withInput 64 64 []).inLen.toNat ≤ 64 ∧ EnvelopeOk (withInput 64 64 []).input) := by
  refine ⟨⟨by decide, envIn_input ▸ envScen_ok⟩, fun h => absurd h.1 (by decide), fun h => absurd h.2.holdsCount (by decide)⟩

/-- One input per condition of R141, at the edge of the condition where it has one. -/
theorem witness_LoadReportsFirstFault :
    { envIn with inLen := 65#32 }.inCap < (65#32 : Word).toNat ∧
    ([0x02#8].length < 2 ∧ envN [0x00#8, 0x00#8] = 0 ∧ 256 < envN [0x01#8, 0x01#8] ∧
      envN [0x00#8, 0x01#8] = 256) ∧
    (let e := envScen.take 15; 2 ≤ e.length ∧ 1 ≤ envN e ∧ envN e ≤ 256 ∧ e.length < 6 + 5 * envN e) ∧
    (let e := [0x01#8, 0x00#8, 0x41#8, 0x00#8, 0x00#8, 0x00#8, 0x00#8, 0x00#8, 0x00#8, 0x00#8, 0x00#8]
     6 + 5 * envN e ≤ e.length ∧ 0 < envN e ∧ envCnt e 0 = 0) ∧
    (let e := envScen.take 17
     6 + 5 * envN e ≤ e.length ∧ e.length ≠ envSize (envN e) (envB e) ∧ envCnt e 0 ≠ 0 ∧ envCnt e 0 ≤ envCnt e 1 ∧
     envSym e 0 ≠ envSym e 1) ∧
    (let e := envA 0x08#8
     e.length = envSize (envN e) (envB e) ∧ envB e % 8 ≠ 0 ∧ byteAt e (e.length - 1) >>> (envB e % 8) ≠ 0#8) := by decide

/-- A state of the invariant with tree and payload, its code table, and one bit sequence per ending. -/
theorem witness_WalkDecodesByCode :
    envTree.Inv ∧ envTree.treeV = true ∧ envTree.payV = true ∧
    (∃ ct, buildCodes envTree.node envTree.root = .ok ct) ∧
    (decodeCode [([false], 0x01#8), ([true], 0x00#8)] [] [true, false] = ([0x00#8, 0x01#8], .complete)) ∧
    (decodeCode [([false, false], 0x01#8), ([true], 0x00#8)] [] [true, false] = ([0x00#8], .incomplete)) ∧
    (decodeCode [([false], 0x41#8)] [] [false, true] = ([0x41#8], .badPath)) := by
  refine ⟨inv_envTree, by decide, by decide, ?_, by decide, by decide, by decide⟩
  have : (buildCodes envTree.node envTree.root).andThen (fun ct => .ok ct) = buildCodes envTree.node envTree.root := by
    cases buildCodes envTree.node envTree.root <;> rfl
  have h : (match buildCodes envTree.node envTree.root with | .ok _ => true | .raise _ _ _ => false | .fault _ => false) =
    true := by decide
  cases hb : buildCodes envTree.node envTree.root with
  | ok ct => exact ⟨ct, rfl⟩
  | raise e i ct => rw [hb] at h; cases h
  | fault f => rw [hb] at h; cases h

theorem witness_DecoderMachineComputesWalk :
    envTree.treeV = true ∧ envTree.payV = true ∧
    envTree.payBase.toNat + ceil8 envTree.decBits.toNat ≤ envTree.inCap ∧ envTree.Inv :=
  ⟨by decide, by decide, by decide, inv_envTree⟩

theorem witness_StrictAndLenientWalk :
    envTree.Inv ∧ envTree.treeV = true ∧ envTree.payV = true ∧ envTree.mid = false ∧ envTree.error = false :=
  ⟨inv_envTree, by decide⟩

/-- Empty, beyond the capacity, an envelope that fits and one that does not. -/
theorem witness_CompressWritesEnvelope :
    (withInput 64 64 []).inLen = 0#32 ∧ { idle0 with inLen := 65#32 }.inCap < (65#32 : Word).toNat ∧
    (idle0.inLen ≠ 0#32 ∧ idle0.inLen.toNat ≤ idle0.inCap) ∧ (envSize 2 15 ≤ 18 ∧ 17 < envSize 2 15) := by decide

theorem witness_DecompressDecodesEnvelope :
    (envIn.inLen.toNat ≤ envIn.inCap ∧ EnvelopeOk envIn.input) ∧
    ¬ ((withInput 64 64 []).inLen.toNat ≤ 64 ∧ EnvelopeOk (withInput 64 64 []).input) :=
  ⟨⟨by decide, envIn_input ▸ envScen_ok⟩, fun h => absurd h.2.holdsCount (by decide)⟩

theorem witness_CompositeEqualsUnitSequence : idle0.busy = false ∧ idle0.error = false ∧ idle0.inCap ≤ 2 ^ 28 := by decide

/-- SCEN compressed, and its envelope in the input buffer of another block. -/
theorem witness_RoundTripRestoresInput :
    let s := idle0
    let t := did .compress idle0
    (s.inLen ≠ 0#32 ∧ s.inLen.toNat ≤ s.inCap ∧ s.inCap ≤ 2 ^ 28 ∧ s.outCap ≤ 2 ^ 28 ∧ s.error = false) ∧
    isNext (issue .compress s) = true ∧ t.error = false ∧ t.outLen = 18#32 ∧ t.obufBytes 18 = envScen ∧
    (envIn.error = false ∧ envIn.inLen = t.outLen ∧ envIn.inLen.toNat ≤ envIn.inCap ∧ envIn.inCap ≤ 2 ^ 28 ∧
      s.inLen.toNat ≤ envIn.outCap) := by decide

theorem witness_NothingVisibleBeforeCompletion :
    (running 0x20#32 2 [.txn (.read (regAddr .inLen))]).busy = true ∧
    2 ≤ (running 0x20#32 2 [.txn (.read (regAddr .inLen))]).busycnt ∧
    (∀ x h, (running 0x20#32 2 [.txn (.read (regAddr .inLen))]).script ≠ .rst x :: h) ∧
    (running 0x20#32 2 []).done = false ∧ (∀ x h, (running 0x20#32 2 [.wait]).script ≠ .txn x :: h) ∧
    (∀ v h, (running 0x20#32 2 [.txn (.read (regAddr .inLen))]).script ≠ .txn (.write (regAddr .ctrl) v) :: h) ∧
    (∀ v h, (running 0x20#32 2 [.txn (.read (regAddr .inLen))]).script ≠ .txn (.write (regAddr .status) v) :: h) := by
  refine ⟨by decide, by decide, fun x h e => ?_, by decide, fun x h e => ?_, fun v h e => ?_, fun v h e => ?_⟩ <;> cases e

theorem witness_TransactionBeforeCompletion :
    ((running 0x20#32 1 [.txn (.read (regAddr .inLen))]).busy = true ∧
      (running 0x20#32 1 [.txn (.read (regAddr .inLen))]).script = .txn (.read (regAddr .inLen)) :: []) ∧
    (let s := running 0x20#32 1 [.txn (.write (regAddr .status) 2#32)]
     s.seq = some 0x20#32 ∧ Instr.compress ≠ .nop ∧ Instr.compress ≠ .clear ∧ s.busycnt = 1 ∧
     isNext (step s) = true ∧ (after (step s) s).error = false) ∧
    decode 0x20#32 = .ok .compress := ⟨by decide, by decide, rfl⟩

theorem witness_InterruptFollowsCompletion :
    (pending 0x10#32 idle0).Inv ∧ (pending 0x10#32 idle0).error = false ∧ Instr.freq ≠ .nop ∧ Instr.freq ≠ .clear ∧
    isNext (exec .freq (pending 0x10#32 idle0)) = true ∧ idle0.busy = false ∧ isNext (exec .clear idle0) = true :=
  ⟨inv_pendingFreq, by decide⟩

theorem witness_ScriptFillsInputBuffer :
    let s := { idle0 with script := scriptOf [.wr .iptr 0#32, .put [1#8, 2#8], .wr .inLen 2#32] }
    s.busy = false ∧ [1#8, 2#8].length ≤ s.inCap ∧ s.inCap ≤ 2 ^ 28 ∧
    s.script = scriptOf [.wr .iptr 0#32, .put [1#8, 2#8], .wr .inLen (BitVec.ofNat 32 [1#8, 2#8].length)] := by decide

/-- A step that completes a command, from a state of the invariant. -/
theorem witness_StepKeepsInvariant :
    (pending 0x10#32 idle0).Inv ∧ ∃ t, step (pending 0x10#32 idle0) = .next t :=
  ⟨inv_pendingFreq, isNext_of (by decide)⟩

theorem witness_NoStateIsStuck : (pending 0x10#32 idle0).Inv := inv_pendingFreq

theorem witness_AcceptedCommandCompletes :
    (pending 0x10#32 idle0).Inv ∧ (pending 0x10#32 idle0).busy = true ∧
    ∀ a, a ∈ (pending 0x10#32 idle0).script → ∀ x, a ≠ .rst x := ⟨inv_pendingFreq, by decide, fun a h => by cases h⟩

end Sys2Proof.Tests
end

section
/-! SUPPORT. Reads without an effect, the cycle of the idle block, and the state a command ends in, for the statements on
10_state.md. -/

namespace Sys2Proof.Machine

/-- The read of a register that answers `v` and changes nothing (R56). -/
theorem portTxn_read_of_readReg {r : Reg} {s : State} {v : Word} (hl : (s.busy && !r.classA) = false)
    (hr : readReg r s = (⟨v, false⟩, s)) :
    portTxn (.read (regAddr r)) s = .next { s with resp := some ⟨v, false⟩ } := by
  rw [portTxn_read r s hl, hr]
  rfl

/-- A cycle of the idle block is the port's part alone (R83). -/
theorem runCycle_of_idle (req : Option Txn) {s : State} (h : s.busy = false) : runCycle req s = portCycle req s := by
  rw [runCycle, h]
  cases portCycle req s <;> rfl

/-- Only the script's `rst` asserts the reset input (R200). -/
theorem nextInput_rst_eq_false {s : State} (h : ∀ x k, s.script ≠ .rst x :: k) : (nextInput s).1.rst = false := by
  rw [nextInput]
  split
  case h_4 x k hs => exact absurd hs (h x k)
  all_goals rfl

/-- A step of the idle block without a reset is the port's part of the cycle (R57, R83). -/
theorem step_of_idle {s : State} (hb : s.busy = false) (hr : ∀ x k, s.script ≠ .rst x :: k) :
    step s = portCycle (nextInput s).1.req { s with script := (nextInput s).2 } := by
  simp only [step, cycle, nextInput_rst_eq_false hr, Bool.false_eq_true, if_false]
  exact runCycle_of_idle _ hb

/-- The end of a body, by completion (R83) or by error entry (R176), writes neither CTRL nor a table. -/
structure CompletionSame (u t : State) : Prop where
  die : t.die = u.die
  eie : t.eie = u.eie
  ft : t.ft = u.ft
  node : t.node = u.node
  ct : t.ct = u.ct

/-- Whatever a command's body keeps holds of the state before the command's last effect, and this effect, the write of
NOP or CLEAR included (R160, R161), writes neither CTRL nor a table. -/
theorem exec_next_bodyEnd {i : Instr} {s t : State} (h : exec i s = .next t) :
    ∃ u, (∀ P, (bodyOf i s).Keeps P → P u) ∧ CompletionSame u t := by
  by_cases h0 : i = .nop
  · subst h0
    refine ⟨s, fun P hP => hP, ?_⟩
    simp only [exec, execNop] at h
    split at h <;> cases h <;> exact ⟨rfl, rfl, rfl, rfl, rfl⟩
  by_cases h1 : i = .clear
  · subst h1
    refine ⟨s, fun P hP => hP, ?_⟩
    simp only [exec, execClear] at h
    split at h <;> cases h <;> exact ⟨rfl, rfl, rfl, rfl, rfl⟩
  rcases exec_next h0 h1 h with ⟨u, hu, _, rfl⟩ | ⟨e, info, u, hu, _, rfl⟩
  · exact ⟨u, fun P hP => by rwa [hu] at hP, ⟨rfl, rfl, rfl, rfl, rfl⟩⟩
  · exact ⟨u, fun P hP => by rwa [hu] at hP, ⟨rfl, rfl, rfl, rfl, rfl⟩⟩

end Sys2Proof.Machine
end

section
/-! PROOFS. CTRL (10_state.md R15). -/

namespace Sys2Proof.Machine

/-- The bits of CTRL (R15). -/
theorem ctrlWord_bits (s : State) :
    (ctrlWord s).getLsbD 0 = s.die ∧ (ctrlWord s).getLsbD 1 = s.eie ∧ (ctrlWord s).extractLsb' 2 30 = 0#30 := by
  rw [ctrlWord]
  cases s.die <;> cases s.eie <;> decide

/-- No command writes CTRL (R15). -/
theorem exec_ctrl_same {i : Instr} {s t : State} (h : exec i s = .next t) : t.die = s.die ∧ t.eie = s.eie := by
  obtain ⟨u, hu, hut⟩ := exec_next_bodyEnd h
  have hs : HostSideSame s u := (hu _ (bodyOf_same i s)).host
  exact ⟨hut.die.trans hs.die, hut.eie.trans hs.eie⟩

theorem irq_iff (s : State) : s.irq = true ↔ (s.die = true ∧ s.done = true) ∨ (s.eie = true ∧ s.error = true) := by
  simp [State.irq]

/-- Settles O18: CTRL is never locked, and no command's body or completion writes it. -/
theorem controlRegister : Obligations.ControlRegister := by
  have unlocked : ∀ s : State, (s.busy && !Reg.ctrl.classA) = false := fun s => by simp [Reg.classA]
  exact ⟨ctrlWord_bits, fun s v => portTxn_write .ctrl v s (unlocked s) (by decide),
    fun s => portTxn_read_of_readReg (unlocked s) rfl, fun _ _ _ => exec_ctrl_same, irq_iff, by decide⟩

end Sys2Proof.Machine
end

section
/-! PROOFS. The read windows on FT, NODE and CT (10_state.md R35 to R37). -/

namespace Sys2Proof.Machine

/-- The fields of a NODE_W word (R36). -/
theorem nodeWord_fields (e : NodeEntry) :
    (nodeWord e).extractLsb' 0 9 = e.left ∧ (nodeWord e).extractLsb' 9 3 = 0#3 ∧
    (nodeWord e).extractLsb' 12 9 = e.right ∧ (nodeWord e).extractLsb' 21 2 = 0#2 ∧
    (nodeWord e).getLsbD 23 = e.leaf ∧ (nodeWord e).extractLsb' 24 8 = e.sym := by
  simp (disch := decide) only [nodeWord, BitVec.extractLsb'_append_eq_of_le, BitVec.extractLsb'_append_eq_of_add_le,
    BitVec.extractLsb'_eq_self, BitVec.getLsbD_append, Nat.reduceSub]
  simp [bit1]

/-- The fields of a CT_W word (R37). -/
theorem ctWord_fields (e : CtEntry) :
    (ctWord e).extractLsb' 0 8 = e.code ∧ (ctWord e).extractLsb' 8 4 = e.len ∧
    (ctWord e).extractLsb' 12 3 = 0#3 ∧ (ctWord e).getLsbD 15 = e.valid ∧ (ctWord e).extractLsb' 16 16 = 0#16 := by
  simp (disch := decide) only [ctWord, BitVec.extractLsb'_append_eq_of_le, BitVec.extractLsb'_append_eq_of_add_le,
    BitVec.extractLsb'_eq_self, BitVec.getLsbD_append, Nat.reduceSub]
  simp [bit1]

theorem ftSymWord_eq (s : State) (i : BitVec 8) : ftSymWord s i =
    if s.ftV = true ∧ i.toNat < s.ftN.toNat then (tableGet s.ft i).sym.setWidth 32 else 0#32 := by
  simp [ftSymWord]

theorem ftCntWord_eq (s : State) (i : BitVec 8) : ftCntWord s i =
    if s.ftV = true ∧ i.toNat < s.ftN.toNat then (tableGet s.ft i).cnt else 0#32 := by
  simp [ftCntWord]

theorem nodeWinWord_eq (s : State) (k : NodeIdx) : nodeWinWord s k =
    if s.treeV = true ∧ k.toNat < s.nodeN.toNat then nodeWord (tableGet s.node k) else 0#32 := by
  simp [nodeWinWord]

/-- Settles O19: an offset of a window is its register's, whose read changes nothing and answers the gated entry. -/
theorem tableWindows : Obligations.TableWindows := by
  have unlocked : ∀ (s : State) (r : Reg), s.busy = false → (s.busy && !r.classA) = false := fun s r h => by simp [h]
  refine ⟨fun s i hb => ⟨?_, ?_, ?_⟩, fun s k hb => ?_, nodeWord_fields, by decide, by decide, by decide,
    ctWord_fields, by decide⟩
  · rw [← ftSymWord_eq]
    exact portTxn_read_of_readReg (r := .ftSym i) (unlocked s _ hb) rfl
  · rw [← ftCntWord_eq]
    exact portTxn_read_of_readReg (r := .ftCnt i) (unlocked s _ hb) rfl
  · exact portTxn_read_of_readReg (r := .ctW i) (unlocked s _ hb) rfl
  · rw [← nodeWinWord_eq]
    exact portTxn_read_of_readReg (r := .nodeW k) (unlocked s _ hb) rfl

end Sys2Proof.Machine
end

section
/-! PROOFS. What changes FT, NODE and CT (10_state.md R38). -/

namespace Sys2Proof.Machine

/-! ### The host -/

/-- The three table memories hold what they held (R30 to R32). -/
def TablesSame (s t : State) : Prop := t.ft = s.ft ∧ t.node = s.node ∧ t.ct = s.ct

theorem TablesSame.refl (s : State) : TablesSame s s := ⟨rfl, rfl, rfl⟩

/-- A read changes nothing but a data port's pointer (R56). -/
theorem readReg_tables_same (r : Reg) (s : State) : TablesSame s (readReg r s).2 := by
  cases r
  case idata => simp only [readReg, readIdata]; split <;> exact .refl s
  case odata => simp only [readReg, readOdata]; split <;> exact .refl s
  all_goals exact .refl s

/-- The windows ignore a write, and no other register is a table (R38). -/
theorem writeReg_tables_same (r : Reg) (w : Word) (s : State) : TablesSame s (writeReg r w s).2 := by
  cases r
  case idata => simp only [writeReg, writeIdata]; split <;> exact .refl s
  all_goals exact .refl s

/-- The write of a command: NOP, CLEAR, a refusal or an acceptance (R80). -/
theorem writeCmd_tables_same {w : Word} {s t : State} (hb : s.busy = false) (h : writeCmd w s = .next t) :
    TablesSame s t := by
  rcases writeCmd_cases w s with ⟨_, e⟩ | ⟨_, e⟩ | ⟨_, _, _, e⟩ | ⟨_, _, _, e⟩ <;> rw [e] at h
  · simp only [exec, execNop, hb, answered] at h; cases h; exact .refl s
  · simp only [exec, execClear, hb, answered] at h; cases h; exact .refl s
  · cases h; exact .refl s
  · cases h; exact .refl s

/-- No transaction writes a table (R38). -/
theorem portTxn_tables_same {x : Txn} {s t : State} (h : portTxn x s = .next t) : TablesSame s t := by
  rcases portTxn_cases x s with ⟨_, e⟩ | ⟨_, _, _, _, e⟩ | ⟨r, _, _, _, _, e⟩ | ⟨r, _, w, _, _, _, _, e⟩ |
    ⟨_, w, _, _, hb, e⟩ <;> rw [e] at h
  · cases h; exact .refl s
  · cases h; exact .refl s
  · cases h; exact readReg_tables_same r s
  · cases h; exact writeReg_tables_same r w s
  · exact writeCmd_tables_same hb h

/-- The port's part of a cycle writes no table (R57, R38). -/
theorem portCycle_tables_same {req : Option Txn} {s t : State} (h : portCycle req s = .next t) : TablesSame s t := by
  cases req with
  | none => cases h; exact .refl s
  | some x => exact portTxn_tables_same h

theorem step_idle_tables_same {s t : State} (hb : s.busy = false) (hr : ∀ x k, s.script ≠ .rst x :: k)
    (h : step s = .next t) : TablesSame s t := by
  rw [step_of_idle hb hr] at h
  exact (portCycle_tables_same h :)

/-! ### The units: each keeps the tables it does not own -/

theorem bodyFreq_node_ct (s : State) : (bodyFreq s).Keeps fun t => t.node = s.node ∧ t.ct = s.ct := by
  rcases bodyFreq_cases s with ⟨_, h⟩ | ⟨_, _, h⟩ | ⟨_, _, _, _, h⟩ <;> rw [h] <;> exact ⟨rfl, rfl⟩

theorem bodyLoad_node_ct (s : State) : (bodyLoad s).Keeps fun t => t.node = s.node ∧ t.ct = s.ct := by
  rcases bodyLoad_cases s with ⟨_, h⟩ | ⟨_, _, _, h⟩ | ⟨_, _, _, _, _, _, _, _, _, _, _, _, _, h⟩ <;> rw [h] <;>
    exact ⟨rfl, rfl⟩

theorem bodyTree_ft_ct (s : State) : (bodyTree s).Keeps fun t => t.ft = s.ft ∧ t.ct = s.ct := by
  rcases bodyTree_cases s with ⟨_, h⟩ | ⟨_, _, h⟩ | ⟨_, _, _, h⟩ | ⟨_, _, _, _, _, _, h⟩ <;> rw [h]
  · exact ⟨rfl, rfl⟩
  · trivial
  · trivial
  · exact ⟨rfl, rfl⟩

theorem bodyCodes_ft_node (s : State) : (bodyCodes s).Keeps fun t => t.ft = s.ft ∧ t.node = s.node := by
  rcases bodyCodes_cases s with ⟨_, h⟩ | ⟨_, _, _, _, _, h⟩ | ⟨_, _, _, _, _, _, h⟩ | ⟨_, _, _, h⟩ <;> rw [h]
  · exact ⟨rfl, rfl⟩
  · exact ⟨rfl, rfl⟩
  · exact ⟨rfl, rfl⟩
  · trivial

theorem bodyPack_tables_same (s : State) : (bodyPack s).Keeps (TablesSame s) := by
  rcases bodyPack_cases s with ⟨_, h⟩ | ⟨_, _, h⟩ | ⟨_, _, _, h⟩ | ⟨_, _, _, _, _, _, _, _, h⟩ |
    ⟨_, _, _, _, _, _, _, _, h⟩ <;> rw [h]
  · exact .refl s
  · exact .refl s
  · trivial
  · exact .refl s
  · exact .refl s

theorem bodyWalk_tables_same (l : Bool) (s : State) : (bodyWalk l s).Keeps (TablesSame s) := by
  rcases bodyWalk_cases l s with ⟨_, h⟩ | ⟨_, _, _, _, _, _, _, _, _, h⟩ | ⟨_, _, _, _, _, h⟩ |
    ⟨_, _, _, _, _, _, _, _, h⟩ | ⟨_, _, _, _, _, _, _, h⟩ <;> rw [h]
  · exact .refl s
  · exact .refl s
  · trivial
  · exact .refl s
  · exact .refl s

/-- A weaker relation is kept where a stronger one is. -/
theorem Run.Keeps.imp {σ : Type} {P Q : σ → Prop} {r : Run σ} (h : r.Keeps P) (hPQ : ∀ t, P t → Q t) : r.Keeps Q := by
  cases r with
  | ok t => exact hPQ t h
  | raise e i t => exact hPQ t h
  | fault x => trivial

/-- What does not speak of OBUF is kept where a `raise` spoils OBUF (R42). -/
theorem Run.Keeps.spoilOnRaise {P : State → Prop} {r : Run State} (h : r.Keeps P) (hP : ∀ t, P t → P (havocObuf t)) :
    (spoilOnRaise r).Keeps P := by
  cases r with
  | ok t => exact h
  | raise e i t => exact hP t h
  | fault x => trivial

/-- DECOMPRESS runs LOAD, TREE and WALK, and none of them writes CT (R163). -/
theorem bodyDecompress_ct (l : Bool) (s : State) : (bodyDecompress l s).Keeps fun t => t.ct = s.ct := by
  have parse : ((bodyLoad s).andThen bodyTree).Keeps fun t => t.ct = s.ct :=
    ((bodyLoad_node_ct s).imp fun _ ht => ht.2).andThen fun t ht => (bodyTree_ft_ct t).imp fun _ hu => hu.2.trans ht
  exact (parse.spoilOnRaise fun _ ht => ht).andThen fun t ht => (bodyWalk_tables_same l t).imp fun _ hu => hu.2.2.trans ht

/-! ### The commands -/

theorem bodyOf_ft_same (i : Instr) (s : State)
    (h : ¬ (i = .freq ∨ i = .load ∨ i = .compress ∨ ∃ l, i = .decompress l)) :
    (bodyOf i s).Keeps fun t => t.ft = s.ft := by
  cases i with
  | nop => exact rfl
  | clear => exact rfl
  | tree => exact (bodyTree_ft_ct s).imp fun _ ht => ht.1
  | codes => exact (bodyCodes_ft_node s).imp fun _ ht => ht.1
  | pack => exact (bodyPack_tables_same s).imp fun _ ht => ht.1
  | walk l => exact (bodyWalk_tables_same l s).imp fun _ ht => ht.1
  | freq => simp at h
  | load => simp at h
  | compress => simp at h
  | decompress l => simp at h

theorem bodyOf_node_same (i : Instr) (s : State) (h : ¬ (i = .tree ∨ i = .compress ∨ ∃ l, i = .decompress l)) :
    (bodyOf i s).Keeps fun t => t.node = s.node := by
  cases i with
  | nop => exact rfl
  | clear => exact rfl
  | freq => exact (bodyFreq_node_ct s).imp fun _ ht => ht.1
  | load => exact (bodyLoad_node_ct s).imp fun _ ht => ht.1
  | codes => exact (bodyCodes_ft_node s).imp fun _ ht => ht.2
  | pack => exact (bodyPack_tables_same s).imp fun _ ht => ht.2.1
  | walk l => exact (bodyWalk_tables_same l s).imp fun _ ht => ht.2.1
  | tree => simp at h
  | compress => simp at h
  | decompress l => simp at h

theorem bodyOf_ct_same (i : Instr) (s : State) (h : ¬ (i = .codes ∨ i = .compress)) :
    (bodyOf i s).Keeps fun t => t.ct = s.ct := by
  cases i with
  | nop => exact rfl
  | clear => exact rfl
  | freq => exact (bodyFreq_node_ct s).imp fun _ ht => ht.2
  | load => exact (bodyLoad_node_ct s).imp fun _ ht => ht.2
  | tree => exact (bodyTree_ft_ct s).imp fun _ ht => ht.2
  | pack => exact (bodyPack_tables_same s).imp fun _ ht => ht.2.2
  | walk l => exact (bodyWalk_tables_same l s).imp fun _ ht => ht.2.2
  | decompress l => exact bodyDecompress_ct l s
  | codes => simp at h
  | compress => simp at h

/-- Settles O20: each command but those named has a body that keeps the table, and its completion writes none. -/
theorem tablesChangeOnlyByCommands : Obligations.TablesChangeOnlyByCommands := by
  refine ⟨fun _ _ _ => portTxn_tables_same, fun i s t h => ?_, fun _ _ => step_idle_tables_same⟩
  obtain ⟨u, hu, hut⟩ := exec_next_bodyEnd h
  refine ⟨fun hft => ?_, fun hnode => ?_, fun hct => ?_⟩ <;> by_contra hi
  · exact hft (hut.ft.trans (hu _ (bodyOf_ft_same i s hi)))
  · exact hnode (hut.node.trans (hu _ (bodyOf_node_same i s hi)))
  · exact hct (hut.ct.trans (hu _ (bodyOf_ct_same i s hi)))

end Sys2Proof.Machine
end

section
/-! SUPPORT. Locked and unlocked accesses, unmapped offsets, the two branches of each data port, the pointers and the
reset cycle, for the statements on 20_memory.md. -/

namespace Sys2Proof.Machine

/-! ### The lock -/

/-- Class A of R12, register by register. -/
theorem Reg.classA_iff (r : Reg) :
    r.classA = true ↔ r = .id ∨ r = .status ∨ r = .ctrl ∨ r = .inCap ∨ r = .outCap := by
  cases r <;> simp [Reg.classA]

/-- A register of class A is never locked (R60). -/
theorem not_locked_of_classA (s : State) {r : Reg} (h : r.classA = true) : (s.busy && !r.classA) = false := by
  simp [h]

/-- The idle block locks no register (R60). -/
theorem not_locked_of_idle {s : State} (r : Reg) (h : s.busy = false) : (s.busy && !r.classA) = false := by
  simp [h]

/-- A locked access at a register's own offset (R60). -/
theorem portTxn_locked_at {t : Txn} {r : Reg} {s : State} (hb : s.busy = true) (ha : txnAddr t = regAddr r)
    (hc : r.classA = false) : portTxn t s = .next (answer ⟨0#32, true⟩ (setOvr s)) :=
  portTxn_locked t r s hb (by rw [ha, regAt_regAddr]) hc

/-- The port's answer to a read is the register's. -/
theorem portTxn_read_eq {r : Reg} {s t : State} {p : Resp} (hl : (s.busy && !r.classA) = false)
    (hr : readReg r s = (p, t)) : portTxn (.read (regAddr r)) s = .next (answer p t) := by
  rw [portTxn_read r s hl, hr]

/-- The port's answer to a write is the register's. -/
theorem portTxn_write_eq {r : Reg} {w : Word} {s t : State} {p : Resp} (hl : (s.busy && !r.classA) = false)
    (hc : r ≠ .cmd) (hw : writeReg r w s = (p, t)) : portTxn (.write (regAddr r) w) s = .next (answer p t) := by
  rw [portTxn_write r w s hl hc, hw]

/-! ### The gaps of the register map -/

/-- No register stands between ODATA and FT_SYM, and none above NODE_W (R12). -/
theorem regAt_eq_none {a : BitVec 14} (h : (17 < a.toNat ∧ a.toNat < 0x100) ∨ 0x600 ≤ a.toNat) : regAt a = none := by
  rcases h with ⟨h17, h100⟩ | h600
  · rw [regAt, if_pos h100]
    exact List.getElem?_eq_none h17
  · rw [regAt, if_neg (by omega), if_neg (by omega), if_neg (by omega), if_neg (by omega), if_neg (by omega)]

/-! ### The data ports -/

theorem readIdata_of_lt {s : State} (h : s.iptr.toNat < s.inCap) :
    readIdata s = (⟨(s.ibufByte s.iptr.toNat).setWidth 32, false⟩, { s with iptr := s.iptr + 1#32 }) := if_pos h

theorem readIdata_of_le {s : State} (h : s.inCap ≤ s.iptr.toNat) : readIdata s = (⟨0#32, true⟩, s) :=
  if_neg (Nat.not_lt.mpr h)

theorem writeIdata_of_lt (w : Word) {s : State} (h : s.iptr.toNat < s.inCap) :
    writeIdata w s = (⟨0#32, false⟩,
      { s with ibuf := memWrite s.ibuf s.iptr.toNat (w.setWidth 8), iptr := s.iptr + 1#32 }) := if_pos h

theorem writeIdata_of_le (w : Word) {s : State} (h : s.inCap ≤ s.iptr.toNat) :
    writeIdata w s = (⟨0#32, true⟩, s) := if_neg (Nat.not_lt.mpr h)

theorem readOdata_of_lt {s : State} (h : s.optr.toNat < s.outCap) :
    readOdata s = (⟨(s.obufByte s.optr.toNat).setWidth 32, false⟩, { s with optr := s.optr + 1#32 }) := if_pos h

theorem readOdata_of_le {s : State} (h : s.outCap ≤ s.optr.toNat) : readOdata s = (⟨0#32, true⟩, s) :=
  if_neg (Nat.not_lt.mpr h)

/-- A byte of IBUF after the write of one byte (R41). -/
theorem ibufByte_memWrite (s : State) (k : Nat) (v : Byte) (a : Nat) :
    State.ibufByte { s with ibuf := memWrite s.ibuf k v } a = if a = k then v else s.ibufByte a := by
  simp only [State.ibufByte, memRead_write]
  split <;> rfl

/-- A pointer below a capacity advances without wrapping (R58). -/
theorem toNat_succ_of_lt_cap {p : Word} {cap : Nat} (hc : cap ≤ 2 ^ 28) (hp : p.toNat < cap) :
    (p + 1#32).toNat = p.toNat + 1 :=
  BitVec.toNat_add_of_lt (by simp only [BitVec.toNat_ofNat]; omega)

/-! ### The pointers -/

/-- No command writes IPTR or OPTR (R59): NOP and CLEAR do not, and neither does a body or its completion step. -/
theorem exec_pointers_same {i : Instr} {s t : State} (h : exec i s = .next t) :
    t.iptr = s.iptr ∧ t.optr = s.optr := by
  by_cases h0 : i = .nop
  · subst h0
    simp only [exec, execNop] at h
    split at h <;> cases h <;> exact ⟨rfl, rfl⟩
  by_cases h1 : i = .clear
  · subst h1
    simp only [exec, execClear] at h
    split at h <;> cases h <;> exact ⟨rfl, rfl⟩
  rcases exec_next h0 h1 h with ⟨u, _, hu, rfl⟩ | ⟨_, _, u, _, hu, rfl⟩
  · exact ⟨hu.host.iptr, hu.host.optr⟩
  · exact ⟨hu.host.iptr, hu.host.optr⟩

/-- A step whose script asserts the reset input is a reset cycle, with a transaction or without (R200). -/
theorem step_of_rst {s : State} {x : Option Txn} {h : List HostAct} (hs : s.script = .rst x :: h) :
    step s = .next (resetCycle x { s with script := h }) := by
  simp only [step, cycle, nextInput, hs, if_true]

end Sys2Proof.Machine
end

section
/-! PROOFS. The busy lock and the unmapped offsets (20_memory.md R60, R61). -/

namespace Sys2Proof.Machine

/-- Settles O12: no register stands at such an offset. -/
theorem unmappedOffsets : Obligations.UnmappedOffsets :=
  fun s t h => portTxn_unmapped t s (regAt_eq_none h)

/-- Settles O11: an access outside class A is locked, and one of class A never is. -/
theorem busyLock : Obligations.BusyLock := by
  refine ⟨fun s t r hb hr hid hstatus hctrl hinCap houtCap => ?_, fun s => ⟨?_, ?_, ?_, ?_, ?_⟩,
    fun s v => ⟨?_, ?_, fun r hr => ?_⟩⟩
  · have hc : r.classA = false := by simp [← Bool.not_eq_true, Reg.classA_iff, hid, hstatus, hctrl, hinCap, houtCap]
    exact portTxn_locked t r s hb hr hc
  · exact portTxn_read_of_readReg (r := .id) (not_locked_of_classA s rfl) rfl
  · exact portTxn_read_of_readReg (r := .status) (not_locked_of_classA s rfl) rfl
  · exact portTxn_read_of_readReg (r := .ctrl) (not_locked_of_classA s rfl) rfl
  · exact portTxn_read_of_readReg (r := .inCap) (not_locked_of_classA s rfl) rfl
  · exact portTxn_read_of_readReg (r := .outCap) (not_locked_of_classA s rfl) rfl
  · exact portTxn_write .status v s (not_locked_of_classA s rfl) (by decide)
  · exact portTxn_write .ctrl v s (not_locked_of_classA s rfl) (by decide)
  · rcases hr with rfl | rfl | rfl
    · exact portTxn_write .id v s (not_locked_of_classA s rfl) (by decide)
    · exact portTxn_write .inCap v s (not_locked_of_classA s rfl) (by decide)
    · exact portTxn_write .outCap v s (not_locked_of_classA s rfl) (by decide)

end Sys2Proof.Machine
end

section
/-! PROOFS. The data ports (20_memory.md R58, R59). -/

namespace Sys2Proof.Machine

/-- A write to IDATA below the capacity stores the word's low byte at IPTR and no other (R58). -/
theorem portTxn_writeIdata_of_lt (w : Word) {s : State} (hb : s.busy = false) (hi : s.iptr.toNat < s.inCap) :
    ∃ m, portTxn (.write (regAddr .idata) w) s =
        .next { s with ibuf := m, iptr := s.iptr + 1#32, resp := some ⟨0#32, false⟩ } ∧
      ∀ a, State.ibufByte { s with ibuf := m } a = if a = s.iptr.toNat then w.extractLsb' 0 8 else s.ibufByte a := by
  rw [← BitVec.setWidth_eq_extractLsb' (by decide)]
  exact ⟨_, portTxn_write_eq (not_locked_of_idle .idata hb) (by decide) (writeIdata_of_lt w hi),
    ibufByte_memWrite s _ _⟩

/-- Settles O15: IDATA by its two branches, IPTR as a plain register, and both locked while BUSY. -/
theorem inputDataPort : Obligations.InputDataPort := by
  refine ⟨fun _ w => portTxn_writeIdata_of_lt w, fun s w hb hi => ?_, fun s hb hi => ?_, fun s hb hi => ?_,
    fun s w hb => ⟨?_, ?_⟩, fun s => toNat_succ_of_lt_cap, fun s t hb ha => ?_⟩
  · exact portTxn_write_eq (not_locked_of_idle .idata hb) (by decide) (writeIdata_of_le w hi)
  · exact portTxn_read_eq (not_locked_of_idle .idata hb) (readIdata_of_lt hi)
  · exact portTxn_read_eq (not_locked_of_idle .idata hb) (readIdata_of_le hi)
  · exact portTxn_write .iptr w s (not_locked_of_idle _ hb) (by decide)
  · exact portTxn_read_of_readReg (r := .iptr) (not_locked_of_idle _ hb) rfl
  · rcases ha with ha | ha <;> exact portTxn_locked_at hb ha rfl

/-- Settles O16: ODATA by its two branches, OPTR as a plain register, both locked while BUSY; no command's body or
completion writes a pointer, and a reset cycle gives each its reset value. -/
theorem outputDataPort : Obligations.OutputDataPort := by
  refine ⟨fun s hb ho => ?_, fun s hb ho => ?_, fun s w hb => ⟨?_, ?_, ?_⟩, fun s t hb ha => ?_,
    fun _ _ _ => exec_pointers_same, fun s t x h hs ht => ?_⟩
  · exact portTxn_read_eq (not_locked_of_idle .odata hb) (readOdata_of_lt ho)
  · exact portTxn_read_eq (not_locked_of_idle .odata hb) (readOdata_of_le ho)
  · exact portTxn_write .odata w s (not_locked_of_idle _ hb) (by decide)
  · exact portTxn_write .optr w s (not_locked_of_idle _ hb) (by decide)
  · exact portTxn_read_of_readReg (r := .optr) (not_locked_of_idle _ hb) rfl
  · rcases ha with ha | ha <;> exact portTxn_locked_at hb ha rfl
  · rw [step_of_rst hs] at ht
    cases ht
    exact ⟨rfl, rfl⟩

end Sys2Proof.Machine
end

section
/-! SUPPORT. The decoder and the encoder as inverses (30_encoding.md R84 to R86), and a command's acceptance, refusal and
completion (R81 to R83), for the statements on 30_encoding.md. -/

namespace Sys2Proof.Machine

/-! ### The decoder -/

/-- The three fields cover the word (R84). -/
theorem wordOfFields_fieldsOf (w : Word) : wordOfFields (fieldsOf w) = w := by
  apply BitVec.eq_of_getLsbD_eq
  intro k hk
  simp only [wordOfFields, fieldsOf, BitVec.getLsbD_append, BitVec.getLsbD_extractLsb', BitVec.getLsbD_ofBool]
  by_cases hop : k < 8
  · simp [hop]
  · by_cases hl : k = 8
    · simp [hl]
    · simp [hop, show ¬ k - 8 < 1 by omega, show k - 8 - 1 < 23 by omega, show 9 + (k - 8 - 1) = k by omega]

theorem fieldsOfInstr_of_opStrict {op : BitVec 8} {i : Instr} (h : opStrict op = some i) :
    fieldsOfInstr i = ⟨op, false, 0#23⟩ := by
  unfold opStrict at h
  split_ifs at h <;> cases h <;> subst op <;> rfl

theorem fieldsOfInstr_of_opLenient {op : BitVec 8} {i : Instr} (h : opLenient op = some i) :
    fieldsOfInstr i = ⟨op, true, 0#23⟩ := by
  unfold opLenient at h
  split_ifs at h <;> cases h <;> subst op <;> rfl

/-- What the decoder asks of a word it accepts (R86): the zero field is 0, and L picks the column of the opcode map. -/
theorem decode_eq_ok {w : Word} {i : Instr} (h : decode w = .ok i) :
    (fieldsOf w).zero = 0#23 ∧ ((fieldsOf w).l = false ∧ opStrict (fieldsOf w).op = some i ∨
      (fieldsOf w).l = true ∧ opLenient (fieldsOf w).op = some i) := by
  simp only [decode] at h
  split at h
  · cases h
  · next j hstrict =>
    split_ifs at h with hz hl
    · split at h
      · next k hlenient =>
        cases h
        exact ⟨not_not.mp hz, .inr ⟨hl, hlenient⟩⟩
      · cases h
    · cases h
      exact ⟨not_not.mp hz, .inl ⟨Bool.eq_false_of_not_eq_true hl, hstrict⟩⟩

theorem fieldsOfInstr_of_decode {w : Word} {i : Instr} (h : decode w = .ok i) : fieldsOfInstr i = fieldsOf w := by
  obtain ⟨hz, ⟨hl, hi⟩ | ⟨hl, hi⟩⟩ := decode_eq_ok h
  · rw [fieldsOfInstr_of_opStrict hi, ← hl, ← hz]
  · rw [fieldsOfInstr_of_opLenient hi, ← hl, ← hz]

/-- The family RoundTrip, over all commands at once. -/
theorem roundTrip (i : Instr) : Laws.RoundTrip.Statement i := by
  cases i with
  | nop => exact Laws.RoundTrip.nop
  | clear => exact Laws.RoundTrip.clear
  | freq => exact Laws.RoundTrip.freq
  | tree => exact Laws.RoundTrip.tree
  | codes => exact Laws.RoundTrip.codes
  | pack => exact Laws.RoundTrip.pack
  | load => exact Laws.RoundTrip.load
  | walk l => exact Laws.RoundTrip.walk l
  | compress => exact Laws.RoundTrip.compress
  | decompress l => exact Laws.RoundTrip.decompress l

theorem decode_encode (i : Instr) : decode (encode i) = .ok i := by
  obtain ⟨-, -, h⟩ := roundTrip i
  exact h

theorem encode_of_decode {w : Word} {i : Instr} (h : decode w = .ok i) : encode i = w := by
  rw [encode, fieldsOfInstr_of_decode h, wordOfFields_fieldsOf]

/-- R84 to R86: a word decodes to a command exactly if it is the command's encoding. -/
theorem decode_eq_ok_iff {w : Word} {i : Instr} : decode w = .ok i ↔ encode i = w :=
  ⟨encode_of_decode, fun h => h ▸ decode_encode i⟩

/-- The encoding of a command fixes its row of the opcode map in both directions. -/
theorem decode_and_encode {w : Word} {i : Instr} (h : encode i = w) : decode w = .ok i ∧ encode i = w :=
  ⟨decode_eq_ok_iff.mpr h, h⟩

/-- The commands in the order of R85, WALK and DECOMPRESS with both values of L. -/
def commands : List Instr :=
  [.nop, .clear, .freq, .tree, .codes, .pack, .load, .walk false, .walk true, .compress, .decompress false,
    .decompress true]

theorem mem_commands (i : Instr) : i ∈ commands := by
  cases i with
  | walk l => cases l <;> decide
  | decompress l => cases l <;> decide
  | _ => decide

/-- The column "legal words" of R85 holds the commands' encodings. -/
theorem map_encode_commands : commands.map encode =
    [0x00000000#32, 0x00000001#32, 0x00000010#32, 0x00000011#32, 0x00000012#32, 0x00000013#32, 0x00000014#32,
      0x00000015#32, 0x00000115#32, 0x00000020#32, 0x00000021#32, 0x00000121#32] := by decide

/-- R86: the legal words are exactly the commands' encodings. -/
theorem exists_decode_iff (w : Word) : (∃ i, decode w = .ok i) ↔ w ∈ commands.map encode := by
  simp only [decode_eq_ok_iff, List.mem_map, mem_commands, true_and]

/-- An illegal word is no command's encoding. -/
theorem ne_encode_of_illegal {w : Word} {x : DecodeError} (h : decode w = .error x) (i : Instr) : w ≠ encode i := by
  rintro rfl
  cases h.symm.trans (decode_encode i)

/-! ### Acceptance, refusal, completion -/

/-- Acceptance (R81) at the port. -/
theorem portTxn_accept {s : State} {w : Word} (hb : s.busy = false) (he : s.error = false) (h0 : w ≠ 0x00000000#32)
    (h1 : w ≠ 0x00000001#32) : portTxn (.write (regAddr .cmd) w) s = .next (answer ⟨0#32, false⟩ (accept w s)) :=
  (portTxn_cmd w s hb).trans (writeCmd_accept w s h0 h1 he)

/-- Refusal in the ERROR state (R82) at the port. -/
theorem portTxn_refuse {s : State} {w : Word} (hb : s.busy = false) (he : s.error = true) (h0 : w ≠ 0x00000000#32)
    (h1 : w ≠ 0x00000001#32) : portTxn (.write (regAddr .cmd) w) s = .next (answer ⟨0#32, true⟩ (setOvr s)) :=
  (portTxn_cmd w s hb).trans (writeCmd_refuse w s h0 h1 he)

/-- The cycle in which BUSYCNT reaches 0 is the completion step (R83). -/
theorem engineTick_completes {s : State} (h : s.busycnt ≤ 1) : engineTick s = completeCmd s := if_pos h

/-- The completion step of an illegal word is the error entry with ERR_ILLCMD and the whole word (R86, R176). -/
theorem completeCmd_illegal {s : State} {w : Word} {x : DecodeError} (hs : s.seq = some w) (hd : decode w = .error x) :
    completeCmd s = .next (errorEntry .illcmd w s) := by
  simp only [completeCmd, hs, hd]

end Sys2Proof.Machine
end

section
/-! PROOFS. The opcode map, and the acceptance, the refusal and the illegal words of commands (30_encoding.md R81, R82,
R85, R86). -/

namespace Sys2Proof.Machine

/-- Settles O1: each row holds because the row's word is the command's encoding. -/
theorem opcodeMapWords : Obligations.OpcodeMapWords := by
  refine ⟨?_, ?_, ?_, ?_, ?_, ?_, ?_, ?_, ?_, ?_, ?_, ?_⟩ <;> exact decode_and_encode (by decide)

/-- Settles O8: D_busy is the draw of `accept`, one more than a natural number. -/
theorem acceptanceLatchesCommand : Obligations.AcceptanceLatchesCommand :=
  fun s _ hb he h0 h1 => ⟨Config.busyDraw s.draws + 1, Nat.le_add_left 1 _, portTxn_accept hb he h0 h1, rfl⟩

/-- Settles O6: the write comes to line 4 of R80. -/
theorem errorStateRefusesCommands : Obligations.ErrorStateRefusesCommands :=
  fun _ _ => portTxn_refuse

/-- Settles O3: the legal words by the two inverses, the acceptance of an illegal word as one of O8's words, its
completion by the error branch of the completion step. -/
theorem illegalWordsCompleteInError : Obligations.IllegalWordsCompleteInError := by
  refine ⟨map_encode_commands ▸ exists_decode_iff, fun s w x hd hb he => ?_, fun s w x hd hs hc => ?_⟩
  · obtain ⟨d, hpos, hnext, -⟩ :=
      acceptanceLatchesCommand s w hb he (ne_encode_of_illegal hd .nop) (ne_encode_of_illegal hd .clear)
    exact ⟨d, hpos, hnext⟩
  · exact (engineTick_completes hc.le).trans (completeCmd_illegal hs hd)

end Sys2Proof.Machine
end

section
/-! SUPPORT. The merge scheduler of R112 run against the passes of R111, and the completion of TREE, for the statements
on 41_tree.md. -/

namespace Sys2Proof.Machine

/-! ### An overlay that grows by one entry -/

/-- The entry behind the overlaid ones joins them. -/
theorem tablePut_overlay {α : Type} {w : Nat} (t : Table α w) (l : List α) (v : α) (h : l.length < 2 ^ w) :
    tablePut (tableOverlay t l) (BitVec.ofNat w l.length) v = tableOverlay t (l ++ [v]) := by
  apply Vector.toList_inj.mp
  have hlen : l.length < t.toList.length := by simpa using h
  have hput : (tablePut (tableOverlay t l) (BitVec.ofNat w l.length) v).toList =
      (tableOverlay t l).toList.set l.length v := by
    simp [tablePut, Nat.mod_eq_of_lt h, Vector.toList_set]
  rw [hput, tableOverlay_toList, tableOverlay_toList, ← List.take_set, List.set_append_right _ _ (Nat.le_refl _),
    Nat.sub_self, List.drop_eq_getElem_cons hlen, List.set_cons_zero]
  simp

@[simp] theorem tableOverlay_nil {α : Type} {w : Nat} (t : Table α w) : tableOverlay t [] = t := by
  apply Vector.toList_inj.mp
  simp [tableOverlay_toList]

/-! ### Runs of the merge scheduler -/

/-- Some number of steps leads from one state of the scheduler to the other. -/
def TreeFsm.Reaches (syms : List Byte) (t u : TreeFsm) : Prop := ∃ n, treeFsmRun syms n t = u

theorem TreeFsm.Reaches.refl {syms : List Byte} (t : TreeFsm) : t.Reaches syms t := ⟨0, rfl⟩

/-- A step before a run. -/
theorem TreeFsm.Reaches.head {syms : List Byte} {t u : TreeFsm} (h : (treeFsmStep syms t).Reaches syms u) :
    t.Reaches syms u := by
  obtain ⟨n, hn⟩ := h
  exact ⟨n + 1, hn⟩

theorem TreeFsm.Reaches.trans {syms : List Byte} {t u v : TreeFsm} (h : t.Reaches syms u) (h' : u.Reaches syms v) :
    t.Reaches syms v := by
  obtain ⟨n, hn⟩ := h
  induction n generalizing t with
  | zero => exact (show t = u from hn) ▸ h'
  | succ n ih => exact (ih hn).head

/-- A run of one step. -/
theorem TreeFsm.reaches_step (syms : List Byte) (t : TreeFsm) : t.Reaches syms (treeFsmStep syms t) :=
  (TreeFsm.Reaches.refl _).head

/-- The scheduler after phase M_SEED: the arena stands in front of the old content of NODE, ROOT and TREE_V are not
written yet. -/
def TreeFsm.working (phase : TreePhase) (i : Nat) (node : Table NodeEntry 9) (qa qb : List NodeIdx)
    (arena : List NodeEntry) : TreeFsm :=
  ⟨phase, i, qa, qb, tableOverlay node arena, arena.length, 0#9, false⟩

/-- The scheduler in phase M_SEED after `k` leaves, NODE_N still 0. -/
def TreeFsm.seeding (syms : List Byte) (node : Table NodeEntry 9) (k : Nat) : TreeFsm :=
  ⟨.seed, k, (List.range k).map (BitVec.ofNat 9), [], tableOverlay node ((syms.take k).map leafNode), 0, 0#9, false⟩

section
variable {syms : List Byte} {node : Table NodeEntry 9}

/-! ### Phase M_SEED -/

/-- The row i < N writes the next leaf. -/
theorem treeFsmStep_seeding {k : Nat} (hk : k < syms.length) (hn : syms.length ≤ 256) :
    treeFsmStep syms (.seeding syms node k) = .seeding syms node (k + 1) := by
  have hput := tablePut_overlay node ((syms.take k).map leafNode) (leafNode syms[k]) (by simp; omega)
  rw [List.length_map, List.length_take_of_le hk.le] at hput
  simp only [treeFsmStep, TreeFsm.seeding, seedStep, List.getElem?_eq_getElem hk, hput, List.range_succ,
    List.map_append, List.map_cons, List.map_nil, ← List.take_append_getElem hk]

/-- The row i = N ends phase M_SEED. -/
theorem treeFsmStep_seeded : treeFsmStep syms (.seeding syms node syms.length) =
    .working (afterQueue ((List.range syms.length).map (BitVec.ofNat 9))) syms.length node
      ((List.range syms.length).map (BitVec.ofNat 9)) [] (syms.map leafNode) := by
  simp [treeFsmStep, TreeFsm.seeding, seedStep, TreeFsm.working]

theorem reaches_seeding {k : Nat} (hk : k ≤ syms.length) (hn : syms.length ≤ 256) :
    (treeFsmStart node).Reaches syms (.seeding syms node k) := by
  induction k with
  | zero =>
    have h0 : TreeFsm.seeding syms node 0 = treeFsmStart node := by simp [TreeFsm.seeding, treeFsmStart]
    exact h0 ▸ .refl _
  | succ k ih => exact (ih (by omega)).trans (treeFsmStep_seeding hk hn ▸ TreeFsm.reaches_step _ _)

/-! ### The passes -/

/-- What joins the arena in a pass leaves the queue. -/
theorem mergePass_length (qa : List NodeIdx) (arena : List NodeEntry) :
    (mergePass qa arena).2.length + (mergePass qa arena).1.length = arena.length + qa.length := by
  induction qa using List.twoStepInduction generalizing arena with
  | nil => rfl
  | singleton c => rfl
  | cons_cons a b qa ih _ =>
    have := ih (arena ++ [innerNode a b])
    simp only [mergePass, List.length_append, List.length_cons, List.length_nil] at this ⊢
    omega

/-- Phase M_PAIR runs through the queue QA as one pass of R111 does, the carried node last. -/
theorem reaches_swap (i : Nat) (qa qb : List NodeIdx) (arena : List NodeEntry) (hl : arena.length + qa.length ≤ 512) :
    (TreeFsm.working .pair i node qa qb arena).Reaches syms
      (.working .swap i node [] (qb ++ (mergePass qa arena).1) (mergePass qa arena).2) := by
  induction qa using List.twoStepInduction generalizing qb arena with
  | nil =>
    rw [mergePass, List.append_nil]
    exact TreeFsm.reaches_step syms (.working .pair i node [] qb arena)
  | singleton c => exact TreeFsm.reaches_step syms (.working .pair i node [c] qb arena)
  | cons_cons a b qa ih _ =>
    simp only [List.length_cons] at hl
    have hstep : treeFsmStep syms (.working .pair i node (a :: b :: qa) qb arena) =
        .working .pair i node qa (qb ++ [nextIdx arena]) (arena ++ [innerNode a b]) := by
      simp [treeFsmStep, TreeFsm.working, pairStep, tablePut_overlay node arena _ (by omega : arena.length < 2 ^ 9),
        nextIdx]
    have hrest := ih (qb ++ [nextIdx arena]) (arena ++ [innerNode a b]) (by simp; omega)
    rw [← hstep, List.append_assoc] at hrest
    exact hrest.head

/-- The phases M_PAIR and M_SWAP repeat as the passes of R111 do. -/
theorem reaches_passes (i fuel : Nat) (qa : List NodeIdx) (arena : List NodeEntry) (hl : arena.length + qa.length ≤ 512) :
    (TreeFsm.working (afterQueue qa) i node qa [] arena).Reaches syms
      (.working (afterQueue (mergePasses fuel qa arena).1) i node (mergePasses fuel qa arena).1 []
        (mergePasses fuel qa arena).2) := by
  induction fuel generalizing qa arena with
  | zero => exact .refl _
  | succ fuel ih =>
    rw [mergePasses]
    split
    · next h1 =>
      have hpair : afterQueue qa = .pair := if_pos h1
      rw [hpair]
      exact (reaches_swap i qa [] arena hl).trans (ih _ _ ((mergePass_length qa arena).trans_le hl)).head
    · exact .refl _

/-! ### Phases M_WRAP and M_DONE -/

/-- Phase M_WRAP does what R111 does with the one remaining node. -/
theorem treeFsmStep_wrap (i : Nat) {q : NodeIdx} {arena : List NodeEntry} (hq : q.toNat < arena.length)
    (hl : arena.length < 512) :
    treeFsmStep syms (.working .wrap i node [q] [] arena) =
      ⟨.done, i, [q], [], tableOverlay node (wrapRoot arena q).arena, (wrapRoot arena q).arena.length,
        (wrapRoot arena q).root, false⟩ := by
  have hleaf : (arena[q.toNat]?.map NodeEntry.leaf).getD false = (tableGet (tableOverlay node arena) q).leaf := by
    rw [tableGet_overlay_lt _ _ _ hq, List.getElem?_eq_getElem hq, Option.map_some, Option.getD_some]
  simp only [treeFsmStep, TreeFsm.working, wrapStep, wrapRoot, hleaf]
  by_cases h : (tableGet (tableOverlay node arena) q).leaf = true
  · simp [h, tablePut_overlay node arena _ (by omega : arena.length < 2 ^ 9), nextIdx]
  · simp [h]

end

/-- A shape's root is an index of the arena it stands in. -/
theorem Shape.InArena.root_lt {arena : List NodeEntry} {t : Shape} (h : t.InArena arena) :
    t.root.toNat < arena.length := by
  cases t with
  | leaf i b => exact (List.getElem?_eq_some_iff.mp h).1
  | node i l r => exact (List.getElem?_eq_some_iff.mp h.1).1
  | wrap i l => exact (List.getElem?_eq_some_iff.mp h.1).1

/-- The passes of R111 leave one node of an arena with room for one more, and the tree is what M_WRAP makes of it. -/
theorem mergePasses_one_left (syms : List Byte) (h1 : 1 ≤ syms.length) (h2 : syms.length ≤ 256) :
    ∃ q arena,
      mergePasses syms.length ((List.range syms.length).map (BitVec.ofNat 9)) (syms.map leafNode) = ([q], arena) ∧
      q.toNat < arena.length ∧ arena.length < 512 ∧ buildTree syms = some (wrapRoot arena q) := by
  have hlen := seeds_length syms
  have hin := seeds_inArena syms h2
  obtain ⟨t, more, he, hroot, -, -, -, hmore, -⟩ := mergePasses_shapes syms.length (seeds syms) (syms.map leafNode) 0
    (fun t ht => (hin t ht).1) (fun t ht => (hin t ht).2.1) (fun t ht => (hin t ht).2.2)
    (by rw [List.length_map]; omega) (by omega) (by omega)
  rw [seeds_root] at he
  exact ⟨t.root, _, he, hroot.root_lt, by rw [List.length_append, List.length_map]; omega, by rw [buildTree, he]⟩

/-- The whole run of the merge scheduler (R112), from any old content of NODE. -/
theorem reaches_built (syms : List Byte) (node : Table NodeEntry 9) (h1 : 1 ≤ syms.length) (h2 : syms.length ≤ 256) :
    ∃ b qa, buildTree syms = some b ∧ (treeFsmStart node).Reaches syms
      ⟨.done, syms.length, qa, [], tableOverlay node b.arena, b.arena.length, b.root, true⟩ := by
  obtain ⟨q, arena, he, hq, hl, hb⟩ := mergePasses_one_left syms h1 h2
  refine ⟨_, [q], hb, ?_⟩
  have hseed := reaches_seeding (node := node) (Nat.le_refl syms.length) h2
  have hseeded := TreeFsm.reaches_step syms (.seeding syms node syms.length)
  rw [treeFsmStep_seeded] at hseeded
  have hpasses := reaches_passes (syms := syms) (node := node) syms.length syms.length
    ((List.range syms.length).map (BitVec.ofNat 9)) (syms.map leafNode)
    (by simp only [List.length_map, List.length_range]; omega)
  rw [he] at hpasses
  have hwrap := TreeFsm.reaches_step syms (.working .wrap syms.length node [q] [] arena)
  rw [treeFsmStep_wrap syms.length hq hl] at hwrap
  exact ((hseed.trans hseeded).trans (hpasses.trans hwrap)).trans (TreeFsm.reaches_step syms _)

/-! ### The completion of TREE -/

/-- The symbols that TREE reads are as many as FT_N says (R110). -/
theorem symbols_length {s : State} (hn : s.ftN.toNat ≤ 256) : s.symbols.length = s.ftN.toNat := by
  rw [State.symbols, List.length_map, State.ftList, tableTake_length _ _ hn]

/-- TREE over a table whose tree exists completes with this tree (R111). -/
theorem exec_tree_of_buildTree {s : State} {b : Built} (hv : s.ftV = true) (hn : s.ftN.toNat ≤ 256)
    (hb : buildTree s.symbols = some b) :
    ∃ w, exec .tree s = .next (succeed { startTree s with
      node := tableOverlay s.node b.arena, nodeN := BitVec.ofNat 10 b.arena.length, root := b.root, treeV := true,
      work := w }) := by
  rw [exec_eq_settle .tree s (by decide) (by decide), bodyOf]
  rcases bodyTree_cases s with ⟨hf, -⟩ | ⟨-, hgt, -⟩ | ⟨-, -, hnone, -⟩ | ⟨-, -, b', w, hb', -, hbody⟩
  · cases hv.symm.trans hf
  · omega
  · cases hb.symm.trans hnone
  · cases hb.symm.trans hb'
    exact ⟨w, by rw [hbody, settle_ok]⟩

end Sys2Proof.Machine
end

section
/-! PROOFS. The merge scheduler as a state machine, and the determinism of TREE (41_tree.md R112, R113). -/

namespace Sys2Proof.Machine

/-- Settles O34: seeding, the passes, M_WRAP and M_DONE as one run. -/
theorem mergeSchedulerComputesTree : Obligations.MergeSchedulerComputesTree := by
  intro syms node h1 h2
  obtain ⟨b, qa, hb, n, hn⟩ := reaches_built syms node h1 h2
  refine ⟨n, b, hb, ?_⟩
  simp only [hn, and_self]

/-- Settles O37: both states complete with the tree of the one symbol sequence. -/
theorem treeDependsOnSymbolsOnly : Obligations.TreeDependsOnSymbolsOnly := by
  intro s s' hv hv' h1 h2 hn hsym
  have hlen := symbols_length h2
  obtain ⟨b, -, hb, -, -, -, -, -, -, -, harena, -⟩ := buildTree_shape s.symbols (by omega) (by omega)
  have hsize : b.arena.length ≤ 511 := by split at harena <;> omega
  obtain ⟨w, ht⟩ := exec_tree_of_buildTree hv h2 hb
  obtain ⟨w', ht'⟩ := exec_tree_of_buildTree hv' (hn ▸ h2) (hsym ▸ hb)
  have htake : ∀ node : Table NodeEntry 9,
      tableTake (tableOverlay node b.arena) (BitVec.ofNat 10 b.arena.length).toNat = b.arena := fun node => by
    rw [BitVec.toNat_ofNat, Nat.mod_eq_of_lt (by omega), tableTake_overlay node b.arena (by omega)]
  exact ⟨_, _, ht, ht', rfl, rfl, (htake s'.node).trans (htake s.node).symm⟩

end Sys2Proof.Machine
end

section
/-! SUPPORT. NOP and CLEAR in the idle block and while BUSY (45_control.md R160, R161), and what a cycle of the idle block
does to the registers of an error (60_exceptions.md R177), for the statements on 45_control.md. -/

namespace Sys2Proof.Machine

/-! ### NOP and CLEAR -/

theorem exec_nop_idle {s : State} (h : s.busy = false) : exec .nop s = .next s := if_neg (by simp [h])

theorem exec_clear_idle {s : State} (h : s.busy = false) : exec .clear s = .next (clearState s) :=
  if_neg (by simp [h])

theorem exec_nop_busy {s : State} (h : s.busy = true) : exec .nop s = .next (setOvr s) := if_pos h

theorem exec_clear_busy {s : State} (h : s.busy = true) : exec .clear s = .next (setOvr s) := if_pos h

/-- Every word written to CMD while BUSY is a locked access (R60, R80). -/
theorem portTxn_cmd_locked (w : Word) {s : State} (h : s.busy = true) :
    portTxn (.write (regAddr .cmd) w) s = .next (answer ⟨0#32, true⟩ (setOvr s)) :=
  portTxn_locked _ .cmd s h (regAt_regAddr .cmd) rfl

theorem writeCmd_nop {s : State} (h : s.busy = false) :
    writeCmd 0x00000000#32 s = .next (answer ⟨0#32, false⟩ s) := by
  rw [writeCmd, if_pos rfl, exec_nop_idle h]
  rfl

theorem writeCmd_clear {s : State} (h : s.busy = false) :
    writeCmd 0x00000001#32 s = .next (answer ⟨0#32, false⟩ (clearState s)) := by
  rw [writeCmd, if_neg (by decide), if_pos rfl, exec_clear_idle h]
  rfl

/-- After CLEAR only BUSY could still show in STATUS (R14, R161). -/
theorem statusWord_clearState {s : State} (h : s.busy = false) : statusWord (clearState s) = 0#32 := by
  simp [statusWord, errNumber, bit1, h]

/-! ### The registers of an error -/

/-- CMD stands at one offset only (R12). -/
theorem eq_regAddr_cmd {a : BitVec 14} (h : regAt a = some .cmd) : a = regAddr .cmd := by
  have hplain : plainRegs[a.toNat]? = some .cmd := by
    rw [regAt] at h
    split_ifs at h
    · exact h
    all_goals cases h
  obtain ⟨hlen, -⟩ := List.getElem?_eq_some_iff.mp hplain
  have hcmd : plainRegs[1]? = some .cmd := rfl
  exact BitVec.eq_of_toNat_eq ((List.getElem?_inj hlen (by decide)).mp (hplain.trans hcmd.symm))

/-- ERROR, ERR and ERRINFO hold what they held (R177). -/
def ErrorSame (s t : State) : Prop := t.error = s.error ∧ t.err = s.err ∧ t.errInfo = s.errInfo

theorem ErrorSame.refl (s : State) : ErrorSame s s := ⟨rfl, rfl, rfl⟩

/-- A read changes nothing but a data port's pointer (R56). -/
theorem readReg_error_same (r : Reg) (s : State) : ErrorSame s (readReg r s).2 := by
  cases r
  case idata => simp only [readReg, readIdata]; split <;> exact .refl s
  case odata => simp only [readReg, readOdata]; split <;> exact .refl s
  all_goals exact .refl s

/-- ERRINFO ignores a write, and a write to STATUS does not reach ERROR or ERR (R12, R14). -/
theorem writeReg_error_same (r : Reg) (w : Word) (s : State) : ErrorSame s (writeReg r w s).2 := by
  cases r
  case idata => simp only [writeReg, writeIdata]; split <;> exact .refl s
  all_goals exact .refl s

/-- Of all words only CLEAR's changes the registers of an error: NOP changes nothing, and a refusal (R82) and an
acceptance (R81) leave them. -/
theorem writeCmd_error_same {w : Word} {s t : State} (hb : s.busy = false) (hw : w ≠ 0x00000001#32)
    (h : writeCmd w s = .next t) : ErrorSame s t := by
  rcases writeCmd_cases w s with ⟨rfl, -⟩ | ⟨rfl, -⟩ | ⟨_, _, _, e⟩ | ⟨_, _, _, e⟩
  · rw [writeCmd_nop hb] at h; cases h; exact .refl s
  · exact absurd rfl hw
  · rw [e] at h; cases h; exact .refl s
  · rw [e] at h; cases h; exact .refl s

/-- Of all transactions only the write of CLEAR changes the registers of an error. -/
theorem portTxn_error_same {x : Txn} {s t : State} (hx : x ≠ .write (regAddr .cmd) 0x00000001#32)
    (h : portTxn x s = .next t) : ErrorSame s t := by
  rcases portTxn_cases x s with ⟨_, e⟩ | ⟨_, _, _, _, e⟩ | ⟨r, _, _, _, _, e⟩ | ⟨r, _, w, _, _, _, _, e⟩ |
    ⟨a, w, rfl, ha, hb, e⟩ <;> rw [e] at h
  · cases h; exact .refl s
  · cases h; exact .refl s
  · cases h; exact readReg_error_same r s
  · cases h; exact writeReg_error_same r w s
  · exact writeCmd_error_same hb (fun hw => hx (by rw [hw, eq_regAddr_cmd ha])) h

/-- The port's part of a cycle changes the registers of an error only by the write of CLEAR (R57). -/
theorem portCycle_error_same {req : Option Txn} {s t : State}
    (hreq : req ≠ some (.write (regAddr .cmd) 0x00000001#32)) (h : portCycle req s = .next t) : ErrorSame s t := by
  cases req with
  | none => cases h; exact .refl s
  | some x => exact portTxn_error_same (fun hx => hreq (congrArg some hx)) h

/-- A write stands at the port only if it is the script's next action (R95). -/
theorem nextInput_req_write {s : State} {a : BitVec 14} {w : Word} (hr : ∀ x k, s.script ≠ .rst x :: k)
    (h : (nextInput s).1.req = some (.write a w)) : ∃ k, s.script = .txn (.write a w) :: k := by
  rw [nextInput] at h
  split at h
  case h_3 y k hs => cases h; exact ⟨k, hs⟩
  case h_4 y k hs => exact absurd hs (hr y k)
  all_goals cases h

/-- A cycle of the idle block is a reset, a CLEAR, or leaves the registers of an error (R177, R178). -/
theorem step_idle_error_cases {s t : State} (hb : s.busy = false) (h : step s = .next t) :
    (∃ x k, s.script = .rst x :: k) ∨ (∃ k, s.script = .txn (.write (regAddr .cmd) 0x00000001#32) :: k) ∨
      ErrorSame s t := by
  by_cases hr : ∃ x k, s.script = .rst x :: k
  · exact .inl hr
  by_cases hc : ∃ k, s.script = .txn (.write (regAddr .cmd) 0x00000001#32) :: k
  · exact .inr (.inl hc)
  have hrst : ∀ x k, s.script ≠ .rst x :: k := fun x k e => hr ⟨x, k, e⟩
  rw [step_of_idle hb hrst] at h
  have hreq := fun hq => hc (nextInput_req_write hrst hq)
  exact .inr (.inr (portCycle_error_same hreq h :))

end Sys2Proof.Machine
end

section
/-! PROOFS. NOP and CLEAR (45_control.md R160, R161). -/

namespace Sys2Proof.Machine

/-- Settles O4: the idle block runs NOP at the port, and the busy one locks CMD. -/
theorem nopChangesNothing : Obligations.NopChangesNothing := by
  refine ⟨fun s hb => ⟨exec_nop_idle hb, ?_⟩, fun s hb => ⟨exec_nop_busy hb, ?_⟩, rfl, rfl⟩
  · exact (portTxn_cmd _ s hb).trans (writeCmd_nop hb)
  · exact portTxn_cmd_locked _ hb

/-- Settles O5: the idle block runs CLEAR at the port, the busy one locks CMD, and every cycle of the idle block but a
reset and a CLEAR leaves ERROR. -/
theorem clearForgetsDerivedState : Obligations.ClearForgetsDerivedState := by
  refine ⟨fun s hb => ⟨exec_clear_idle hb, statusWord_clearState hb, ?_⟩, fun s hb => ⟨exec_clear_busy hb, ?_⟩, rfl,
    fun s hb he => ?_, fun s t hb he hstep ht => ?_⟩
  · exact (portTxn_cmd _ s hb).trans (writeCmd_clear hb)
  · exact portTxn_cmd_locked _ hb
  · exact portTxn_refuse hb he (by decide) (by decide)
  · rcases step_idle_error_cases hb hstep with hr | hc | ⟨herr, -, -⟩
    · exact .inl hr
    · exact .inr hc
    · cases ht.symm.trans (herr.trans he)

end Sys2Proof.Machine
end

section
/-! PROOFS. The ERROR state (60_exceptions.md R177). -/

namespace Sys2Proof.Machine

/-- Settles O7: at the port NOP and CLEAR run, every other word is refused (O6), and no register is locked; and every
cycle of the idle block but a reset and a CLEAR leaves the registers of an error. -/
theorem errorStateLasts : Obligations.ErrorStateLasts := by
  intro s hb he
  refine ⟨?nop, ⟨answer ⟨0#32, false⟩ (clearState s), ?clear, exec_clear_idle hb, rfl, rfl, rfl⟩,
    fun w => errorStateRefusesCommands s w hb he, fun r => portTxn_read r s (not_locked_of_idle r hb),
    fun r v => portTxn_write r v s (not_locked_of_idle r hb), fun t hstep => ?lasts⟩
  case nop => exact (portTxn_cmd _ s hb).trans (writeCmd_nop hb)
  case clear => exact (portTxn_cmd _ s hb).trans (writeCmd_clear hb)
  case lasts =>
    rcases step_idle_error_cases hb hstep with hr | hc | ⟨herror, herr, hinfo⟩
    · exact .inl hr
    · exact .inr (.inl hc)
    · exact .inr (.inr ⟨herror.trans he, herr, hinfo⟩)

end Sys2Proof.Machine
end

section
/-! SUPPORT. The reset state and the reset cycle (10_state.md R45, 70_reset_and_hazards.md R200), the cycle of a busy
block with a transaction, and the completion of a legal command (R216, 30_encoding.md R83), for the statements on
70_reset_and_hazards.md. -/

namespace Sys2Proof.Machine

/-! ### Reset -/

theorem statusWord_reset : statusWord State.reset = 0#32 := by decide

theorem ctrlWord_reset : ctrlWord State.reset = 0#32 := by decide

/-- A register with storage, a window or CMD reads 0 after reset (R201). -/
theorem readReg_reset {r : Reg} (hid : r ≠ .id) (hinCap : r ≠ .inCap) (houtCap : r ≠ .outCap) (hidata : r ≠ .idata)
    (hodata : r ≠ .odata) : (readReg r State.reset).1 = ⟨0#32, false⟩ := by
  cases r
  case id => exact absurd rfl hid
  case inCap => exact absurd rfl hinCap
  case outCap => exact absurd rfl houtCap
  case idata => exact absurd rfl hidata
  case odata => exact absurd rfl hodata
  case status => rw [readReg, statusWord_reset]
  case ctrl => rw [readReg, ctrlWord_reset]
  all_goals rfl

/-- A reset keeps the capacities (R12), the bytes of IBUF, whatever becomes of OBUF (R202), and the model's script. -/
theorem resetRegs_kept (s : State) :
    (resetRegs s).inCap = s.inCap ∧ (resetRegs s).outCap = s.outCap ∧ (resetRegs s).ibuf = s.ibuf ∧
      (resetRegs s).script = s.script := by
  rw [resetRegs]
  cases s.obufAtRisk <;> exact ⟨rfl, rfl, rfl, rfl⟩

/-- IBUF reads as before where its memory is as before (R202, log 6). -/
theorem ibufByte_congr {s t : State} (h : t.ibuf = s.ibuf) (a : Nat) : t.ibufByte a = s.ibufByte a := by
  rw [State.ibufByte, h]; rfl

/-! ### A transaction while BUSY -/

/-- SEQ and BUSYCNT, and with SEQ BUSY, hold what they held (R40). -/
def EngineSame (s t : State) : Prop := t.seq = s.seq ∧ t.busycnt = s.busycnt

theorem EngineSame.refl (s : State) : EngineSame s s := ⟨rfl, rfl⟩

theorem EngineSame.busy {s t : State} (h : EngineSame s t) : t.busy = s.busy := congrArg Option.isSome h.1

/-- A read changes nothing but a data port's pointer (R56). -/
theorem readReg_engine_same (r : Reg) (s : State) : EngineSame s (readReg r s).2 := by
  cases r
  case idata => simp only [readReg, readIdata]; split <;> exact .refl s
  case odata => simp only [readReg, readOdata]; split <;> exact .refl s
  all_goals exact .refl s

/-- Only a write to CMD reaches the engine (R80). -/
theorem writeReg_engine_same (r : Reg) (w : Word) (s : State) : EngineSame s (writeReg r w s).2 := by
  cases r
  case idata => simp only [writeReg, writeIdata]; split <;> exact .refl s
  all_goals exact .refl s

/-- A transaction while BUSY does not reach the engine: CMD is locked (R60). -/
theorem portTxn_engine_same {x : Txn} {s t : State} (hb : s.busy = true) (h : portTxn x s = .next t) :
    EngineSame s t := by
  rcases portTxn_cases x s with ⟨_, e⟩ | ⟨_, _, _, _, e⟩ | ⟨r, _, _, _, _, e⟩ | ⟨r, _, w, _, _, _, _, e⟩ |
    ⟨_, _, _, _, hidle, _⟩
  · rw [e] at h; cases h; exact .refl s
  · rw [e] at h; cases h; exact .refl s
  · rw [e] at h; cases h; exact readReg_engine_same r s
  · rw [e] at h; cases h; exact writeReg_engine_same r w s
  · cases hb.symm.trans hidle

/-- A step whose script stands at a transaction is a cycle with it on the port (R57). -/
theorem step_of_txn {s : State} {x : Txn} {h : List HostAct} (hs : s.script = .txn x :: h) :
    step s = runCycle (some x) { s with script := h } := by
  simp only [step, cycle, nextInput, hs, Bool.false_eq_true, if_false]

/-- A cycle of the busy block is the transaction and then the engine's step (R216). -/
theorem runCycle_of_busy {x : Txn} {s s1 : State} (hb : s.busy = true) (h : portTxn x s = .next s1) :
    runCycle (some x) s = engineTick s1 := by
  simp only [runCycle, portCycle, h, hb, if_true]

/-- A step of the busy block with a transaction: first the transaction, which does not reach the engine, then the engine's
step (R216). -/
theorem step_of_busy_txn {s : State} {x : Txn} {h : List HostAct} (hb : s.busy = true) (hs : s.script = .txn x :: h) :
    ∃ s1, portTxn x { s with script := h } = .next s1 ∧ EngineSame s s1 ∧ step s = engineTick s1 := by
  obtain ⟨s1, htxn⟩ := portTxn_next x { s with script := h }
  exact ⟨s1, htxn, portTxn_engine_same (s := { s with script := h }) hb htxn,
    (step_of_txn hs).trans (runCycle_of_busy hb htxn)⟩

/-! ### Completion -/

/-- The completion step of a legal word is its command's (R83). -/
theorem completeCmd_legal {s : State} {w : Word} {i : Instr} (hs : s.seq = some w) (hd : decode w = .ok i) :
    completeCmd s = exec i s := by
  simp only [completeCmd, hs, hd]

/-- A command the engine completes without error sets DONE, whatever it was before (R83). -/
theorem exec_done_of_no_error {i : Instr} {s t : State} (h0 : i ≠ .nop) (h1 : i ≠ .clear) (h : exec i s = .next t)
    (he : t.error = false) : t.done = true := by
  rcases exec_next h0 h1 h with ⟨u, _, _, rfl⟩ | ⟨_, _, u, _, _, rfl⟩
  · exact succeed_done u
  · cases he

end Sys2Proof.Machine
end

section
/-! PROOFS. Reset (70_reset_and_hazards.md R200, R201). -/

namespace Sys2Proof.Machine

/-- Settles O22: the fields of the reset state are constants. -/
theorem resetRegistersReadZero : Obligations.ResetRegistersReadZero :=
  ⟨fun _ => readReg_reset, rfl, rfl, rfl, by decide⟩

/-- Settles O23: the registers of the reset cycle are those of the reset state, but for the capacities, which stay as IBUF
does. (`resetCycle` itself names the model's function.) -/
theorem resetCycle_resets_registers : Obligations.ResetCycle := by
  intro s x h hs
  obtain ⟨hinCap, houtCap, hibuf, hscript⟩ := resetRegs_kept { s with script := h }
  exact ⟨resetCycle x { s with script := h }, step_of_rst hs, statusWord_reset, ctrlWord_reset,
    rfl, rfl, rfl, rfl, rfl, rfl, rfl, rfl, rfl, rfl, rfl, rfl, rfl, rfl,
    hinCap, houtCap, hscript, ibufByte_congr hibuf, rfl⟩

end Sys2Proof.Machine
end

section
/-! PROOFS. The order of events in a cycle with BUSY = 1 (70_reset_and_hazards.md R216). -/

namespace Sys2Proof.Machine

/-- Settles O54: the transaction does not reach the engine, and the engine's completion step, which follows it, writes
DONE last. -/
theorem transactionBeforeCompletion : Obligations.TransactionBeforeCompletion := by
  refine ⟨fun s x h hb hs => ?order, fun s t w v i h hseq hd h0 h1 hcnt hs hstep he => ?doneWins⟩
  case order =>
    obtain ⟨s1, htxn, hsame, hstep⟩ := step_of_busy_txn hb hs
    have hb1 : s1.busy = true := hsame.busy.trans hb
    obtain ⟨hseq, hcnt⟩ := hsame
    exact ⟨s1, htxn, hb1, hcnt, hseq, hstep⟩
  case doneWins =>
    have hb : s.busy = true := congrArg Option.isSome hseq
    obtain ⟨s1, -, ⟨hseq1, hcnt1⟩, hstep1⟩ := step_of_busy_txn hb hs
    have hexec : exec i s1 = .next t :=
      calc exec i s1 = completeCmd s1 := (completeCmd_legal (hseq1.trans hseq) hd).symm
        _ = engineTick s1 := (engineTick_completes (hcnt1.trans hcnt).le).symm
        _ = step s := hstep1.symm
        _ = .next t := hstep
    exact exec_done_of_no_error h0 h1 hexec he

end Sys2Proof.Machine
end

section
/-! SUPPORT. The register map as a bijection, the accesses of the idle block by what they write, and the cycle of the
busy block (10_state.md R12, 20_memory.md R57 to R62), for the statements on the port. -/

namespace Sys2Proof.Machine

/-! ### The register map -/

/-- A register stands at no offset but its own (R12). -/
theorem regAddr_of_regAt {a : BitVec 14} {r : Reg} (h : regAt a = some r) : regAddr r = a := by
  have plain : ∀ n (hn : n < plainRegs.length), regAddr plainRegs[n] = BitVec.ofNat 14 n := by decide
  have ha := a.isLt
  rw [regAt] at h
  split_ifs at h
  case pos =>
    obtain ⟨hlt, rfl⟩ := List.getElem?_eq_some_iff.mp h
    rw [plain _ hlt, BitVec.ofNat_toNat, BitVec.setWidth_eq]
  all_goals
    cases h
    apply BitVec.eq_of_toNat_eq
    simp only [regAddr, BitVec.toNat_ofNat]
    omega

theorem regAt_eq_some_iff {a : BitVec 14} {r : Reg} : regAt a = some r ↔ regAddr r = a :=
  ⟨regAddr_of_regAt, fun h => h ▸ regAt_regAddr r⟩

/-! ### What an access to the idle block leaves alone -/

/-- What no access to a register but CMD writes: the results, the tables, OBUF, the error, and the engine (R57, R62). -/
structure AccessSame (s t : State) : Prop where
  results : ResultsSame s t
  obuf : t.obuf = s.obuf ∧ t.obufGen = s.obufGen
  error : t.error = s.error ∧ t.err = s.err
  command : t.mid = s.mid ∧ t.lastop = s.lastop
  engine : t.seq = s.seq ∧ t.busycnt = s.busycnt ∧ t.work = s.work
  caps : t.inCap = s.inCap ∧ t.outCap = s.outCap
  script : t.script = s.script
  draws : t.draws = s.draws

theorem ResultsSame.refl (s : State) : ResultsSame s s :=
  ⟨rfl, rfl, rfl, rfl, rfl, rfl, rfl, rfl, rfl, rfl, rfl, rfl, rfl, rfl, rfl⟩

theorem ResultsSame.trans {s t u : State} (h : ResultsSame s t) (k : ResultsSame t u) : ResultsSame s u :=
  ⟨k.outLen.trans h.outLen, k.errInfo.trans h.errInfo, k.ftN.trans h.ftN, k.root.trans h.root, k.nodeN.trans h.nodeN,
    k.encBits.trans h.encBits, k.decBits.trans h.decBits, k.payBase.trans h.payBase, k.ftV.trans h.ftV,
    k.treeV.trans h.treeV, k.ctV.trans h.ctV, k.payV.trans h.payV, k.tables.1.trans h.tables.1,
    k.tables.2.1.trans h.tables.2.1, k.tables.2.2.trans h.tables.2.2⟩

theorem AccessSame.refl (s : State) : AccessSame s s :=
  ⟨.refl s, ⟨rfl, rfl⟩, ⟨rfl, rfl⟩, ⟨rfl, rfl⟩, ⟨rfl, rfl, rfl⟩, ⟨rfl, rfl⟩, rfl, rfl⟩

theorem AccessSame.sameObuf {s t : State} (h : AccessSame s t) : SameObuf s t := fun a => by
  rw [State.obufByte, State.obufByte, h.obuf.1, h.obuf.2]

/-- A state that differs in the host's own registers, IBUF and the answer alone. -/
theorem AccessSame.ofHost (s : State) (ibuf : Mem) (inLen iptr optr : Word) (die eie done ovr : Bool)
    (resp : Option Resp) : AccessSame s { s with
      ibuf := ibuf, inLen := inLen, iptr := iptr, optr := optr, die := die, eie := eie, done := done, ovr := ovr,
      resp := resp } :=
  ⟨⟨rfl, rfl, rfl, rfl, rfl, rfl, rfl, rfl, rfl, rfl, rfl, rfl, rfl, rfl, rfl⟩, ⟨rfl, rfl⟩, ⟨rfl, rfl⟩, ⟨rfl, rfl⟩,
    ⟨rfl, rfl, rfl⟩, ⟨rfl, rfl⟩, rfl, rfl⟩

/-- What an access does to IBUF and the host's own registers, each of which it changes only under a condition. -/
structure HostFrame (idata inLen iptr optr ctrl done ovr : Prop) (s t : State) : Prop where
  same : AccessSame s t
  ibuf : ¬ idata → t.ibuf = s.ibuf
  ibufElsewhere : ∀ a, a ≠ s.iptr.toNat → t.ibufByte a = s.ibufByte a
  inLen : ¬ inLen → t.inLen = s.inLen
  iptr : ¬ iptr → t.iptr = s.iptr
  optr : ¬ optr → t.optr = s.optr
  ctrl : ¬ ctrl → t.die = s.die ∧ t.eie = s.eie
  done : ¬ done → t.done = s.done
  ovr : ¬ ovr → t.ovr = s.ovr

theorem HostFrame.refl {idata inLen iptr optr ctrl done ovr : Prop} (s : State) :
    HostFrame idata inLen iptr optr ctrl done ovr s s :=
  ⟨.refl s, fun _ => rfl, fun _ _ => rfl, fun _ => rfl, fun _ => rfl, fun _ => rfl, fun _ => ⟨rfl, rfl⟩, fun _ => rfl,
    fun _ => rfl⟩

/-- The frame under weaker conditions, with any answer on the port. -/
theorem HostFrame.mono {idata inLen iptr optr ctrl done ovr idata' inLen' iptr' optr' ctrl' done' ovr' : Prop}
    {s t : State} (r : Resp) (h : HostFrame idata inLen iptr optr ctrl done ovr s t) (h1 : idata → idata')
    (h2 : inLen → inLen') (h3 : iptr → iptr') (h4 : optr → optr') (h5 : ctrl → ctrl') (h6 : done → done')
    (h7 : ovr → ovr') : HostFrame idata' inLen' iptr' optr' ctrl' done' ovr' s (answer r t) where
  same := { h.same with results := { h.same.results with } }
  ibuf hn := h.ibuf (mt h1 hn)
  ibufElsewhere := h.ibufElsewhere
  inLen hn := h.inLen (mt h2 hn)
  iptr hn := h.iptr (mt h3 hn)
  optr hn := h.optr (mt h4 hn)
  ctrl hn := h.ctrl (mt h5 hn)
  done hn := h.done (mt h6 hn)
  ovr hn := h.ovr (mt h7 hn)

/-- A read changes nothing but a data port's pointer (R56). -/
theorem readReg_frame (r : Reg) (s : State) :
    HostFrame False False (r = .idata) (r = .odata) False False False s (readReg r s).2 := by
  cases r
  case idata =>
    rcases Nat.lt_or_ge s.iptr.toNat s.inCap with h | h
    · rw [readReg, readIdata_of_lt h]
      exact { HostFrame.refl (iptr := True) s with same := .ofHost .., iptr := fun hn => absurd rfl hn }
    · rw [readReg, readIdata_of_le h]
      exact .refl s
  case odata =>
    rcases Nat.lt_or_ge s.optr.toNat s.outCap with h | h
    · rw [readReg, readOdata_of_lt h]
      exact { HostFrame.refl (optr := True) s with same := .ofHost .., optr := fun hn => absurd rfl hn }
    · rw [readReg, readOdata_of_le h]
      exact .refl s
  all_goals exact .refl s

/-- A write changes nothing but its own register, and a write to IDATA the byte at IPTR and IPTR (R12, R58). -/
theorem writeReg_frame (r : Reg) (w : Word) (s : State) :
    HostFrame (r = .idata ∧ s.iptr.toNat < s.inCap) (r = .inLen) (r = .iptr ∨ r = .idata) (r = .optr) (r = .ctrl)
      (r = .status) (r = .status) s (writeReg r w s).2 := by
  cases r
  case idata =>
    rcases Nat.lt_or_ge s.iptr.toNat s.inCap with h | h
    · rw [writeReg, writeIdata_of_lt w h]
      exact { HostFrame.refl (idata := True) (iptr := True) s with
        same := .ofHost ..
        ibuf := fun hn => absurd ⟨rfl, h⟩ hn
        ibufElsewhere := fun a ha => (ibufByte_memWrite s s.iptr.toNat (w.setWidth 8) a).trans (if_neg ha)
        iptr := fun hn => absurd (.inr rfl) hn }
    · rw [writeReg, writeIdata_of_le w h]
      exact .refl s
  case status =>
    exact { HostFrame.refl (done := True) (ovr := True) s with
      same := .ofHost .., done := fun hn => absurd rfl hn, ovr := fun hn => absurd rfl hn }
  case ctrl => exact { HostFrame.refl (ctrl := True) s with same := .ofHost .., ctrl := fun hn => absurd rfl hn }
  case inLen => exact { HostFrame.refl (inLen := True) s with same := .ofHost .., inLen := fun hn => absurd rfl hn }
  case iptr => exact { HostFrame.refl (iptr := True) s with same := .ofHost .., iptr := fun hn => absurd (.inl rfl) hn }
  case optr => exact { HostFrame.refl (optr := True) s with same := .ofHost .., optr := fun hn => absurd rfl hn }
  all_goals exact .refl s

/-- An access to a register but CMD writes its own register, a data port its pointer, and a locked one OVR (R57 to
R60). -/
theorem portTxn_frame {x : Txn} {s t : State} (hx : txnAddr x ≠ regAddr .cmd) (h : portTxn x s = .next t) :
    HostFrame (∃ v, x = .write (regAddr .idata) v ∧ s.busy = false ∧ s.iptr.toNat < s.inCap)
      (∃ v, x = .write (regAddr .inLen) v) ((∃ v, x = .write (regAddr .iptr) v) ∨ txnAddr x = regAddr .idata)
      ((∃ v, x = .write (regAddr .optr) v) ∨ x = .read (regAddr .odata)) (∃ v, x = .write (regAddr .ctrl) v)
      (∃ v, x = .write (regAddr .status) v) ((∃ v, x = .write (regAddr .status) v) ∨ s.busy = true) s t := by
  rcases portTxn_cases x s with ⟨-, e⟩ | ⟨-, -, hb, -, e⟩ | ⟨r, a, rfl, ha, -, e⟩ | ⟨r, a, w, rfl, ha, hl, -, e⟩ |
    ⟨a, w, rfl, ha, -, -⟩
  · rw [e] at h
    cases h
    exact (HostFrame.refl s).mono _ id id id id id id id
  · rw [e] at h
    cases h
    have hs : HostFrame False False False False False False True s (setOvr s) :=
      { HostFrame.refl (ovr := True) s with same := .ofHost .., ovr := fun hn => absurd trivial hn }
    exact hs.mono _ False.elim False.elim False.elim False.elim False.elim False.elim fun _ => .inr hb
  · rw [e] at h
    cases h
    rw [← regAddr_of_regAt ha]
    exact (readReg_frame r s).mono _ False.elim False.elim (fun hr => .inr (by rw [hr]; rfl))
      (fun hr => .inr (by rw [hr])) False.elim False.elim False.elim
  · rw [e] at h
    cases h
    rw [← regAddr_of_regAt ha]
    refine (writeReg_frame r w s).mono _ ?_ ?_ ?_ ?_ ?_ ?_ ?_
    · rintro ⟨rfl, hlt⟩
      exact ⟨w, rfl, by simpa [Reg.classA] using hl, hlt⟩
    · rintro rfl; exact ⟨w, rfl⟩
    · rintro (rfl | rfl)
      · exact .inl ⟨w, rfl⟩
      · exact .inr rfl
    · rintro rfl; exact .inl ⟨w, rfl⟩
    · rintro rfl; exact ⟨w, rfl⟩
    · rintro rfl; exact ⟨w, rfl⟩
    · rintro rfl; exact .inl ⟨w, rfl⟩
  · exact absurd (eq_regAddr_cmd ha) hx

/-! ### The cycle of the busy block -/

/-- Everything a transaction can do while BUSY: an answer, and at most OVR or a write to STATUS or CTRL (R60). -/
theorem portTxn_busy_cases {x : Txn} {s t : State} (hb : s.busy = true) (h : portTxn x s = .next t) :
    ∃ r u, t = answer r u ∧ (u = s ∨ u = setOvr s ∨ (∃ v, x = .write (regAddr .status) v ∧ u = writeStatus v s) ∨
      ∃ v, x = .write (regAddr .ctrl) v ∧ u = writeCtrl v s) := by
  rcases portTxn_cases x s with ⟨-, e⟩ | ⟨r, -, -, -, e⟩ | ⟨r, a, -, -, hl, e⟩ | ⟨r, a, w, rfl, ha, hl, -, e⟩ |
    ⟨-, -, -, -, hidle, -⟩
  · rw [e] at h; cases h; exact ⟨_, s, rfl, .inl rfl⟩
  · rw [e] at h; cases h; exact ⟨_, _, rfl, .inr (.inl rfl)⟩
  · rw [e] at h
    cases h
    have hA : r.classA = true := by simpa [hb] using hl
    rcases (Reg.classA_iff r).mp hA with rfl | rfl | rfl | rfl | rfl <;> exact ⟨_, s, rfl, .inl rfl⟩
  · rw [e] at h
    cases h
    have hA : r.classA = true := by simpa [hb] using hl
    rw [← regAddr_of_regAt ha]
    rcases (Reg.classA_iff r).mp hA with rfl | rfl | rfl | rfl | rfl
    · exact ⟨_, s, rfl, .inl rfl⟩
    · exact ⟨_, _, rfl, .inr (.inr (.inl ⟨w, rfl, rfl⟩))⟩
    · exact ⟨_, _, rfl, .inr (.inr (.inr ⟨w, rfl, rfl⟩))⟩
    · exact ⟨_, s, rfl, .inl rfl⟩
    · exact ⟨_, s, rfl, .inl rfl⟩
  · cases hb.symm.trans hidle

theorem portCycle_next (req : Option Txn) (s : State) : ∃ t, portCycle req s = .next t := by
  cases req with
  | none => exact ⟨_, rfl⟩
  | some x => exact portTxn_next x s

/-- The host's part of a cycle of the busy block: an answer or none, and at most OVR or a write to STATUS or CTRL. -/
theorem portCycle_busy_cases {req : Option Txn} {s t : State} (hb : s.busy = true) (h : portCycle req s = .next t) :
    ∃ r u, t = { u with resp := r } ∧ (u = s ∨ (req ≠ none ∧ u = setOvr s) ∨
      (∃ v, req = some (.write (regAddr .status) v) ∧ u = writeStatus v s) ∨
      ∃ v, req = some (.write (regAddr .ctrl) v) ∧ u = writeCtrl v s) := by
  cases req with
  | none => cases h; exact ⟨none, s, rfl, .inl rfl⟩
  | some x =>
    obtain ⟨r, u, rfl, hu⟩ := portTxn_busy_cases hb h
    refine ⟨some r, u, rfl, ?_⟩
    rcases hu with hu | hu | ⟨v, rfl, hu⟩ | ⟨v, rfl, hu⟩
    · exact .inl hu
    · exact .inr (.inl ⟨by simp, hu⟩)
    · exact .inr (.inr (.inl ⟨v, rfl, hu⟩))
    · exact .inr (.inr (.inr ⟨v, rfl, hu⟩))

/-- A step without a reset is the host's part of the cycle, and the engine's after it while BUSY (R216). -/
theorem step_of_busy {s : State} (hb : s.busy = true) (hr : ∀ x k, s.script ≠ .rst x :: k) :
    ∃ s1, portCycle (nextInput s).1.req { s with script := (nextInput s).2 } = .next s1 ∧ step s = engineTick s1 := by
  obtain ⟨s1, h1⟩ := portCycle_next (nextInput s).1.req { s with script := (nextInput s).2 }
  refine ⟨s1, h1, ?_⟩
  have hb' : State.busy { s with script := (nextInput s).2 } = true := hb
  simp only [step, cycle, nextInput_rst_eq_false hr, Bool.false_eq_true, if_false, runCycle, h1, hb', if_true]

/-- While BUSY the line `wait` reads STATUS, which changes nothing (R95). -/
theorem portCycle_busy_of_no_txn {s t : State} (hr : ∀ x k, s.script ≠ .rst x :: k)
    (hx : ∀ x k, s.script ≠ .txn x :: k)
    (h : portCycle (nextInput s).1.req { s with script := (nextInput s).2 } = .next t) :
    ∃ r, t = { s with script := (nextInput s).2, resp := r } := by
  rw [nextInput] at h ⊢
  split at h
  · cases h; exact ⟨_, rfl⟩
  · cases h; exact ⟨_, rfl⟩
  · next x k hs => exact absurd hs (hx x k)
  · next x k hs => exact absurd hs (hr x k)
  · rw [portCycle, portTxn_read .status _ (not_locked_of_classA _ rfl)] at h
    cases h
    exact ⟨_, rfl⟩

/-- BUSYCNT falls by one while it is above 1 (R83). -/
theorem engineTick_counts {s : State} (h : 2 ≤ s.busycnt) :
    engineTick s = .next { s with busycnt := s.busycnt - 1 } := if_neg (by omega)

/-! ### The words of the registers -/

/-- The flags of STATUS (R14). -/
theorem statusWord_flags (s : State) :
    (statusWord s).getLsbD 0 = s.busy ∧ (statusWord s).getLsbD 1 = s.done ∧ (statusWord s).getLsbD 2 = s.error ∧
    (statusWord s).getLsbD 3 = s.ovr ∧ (statusWord s).getLsbD 4 = s.ftV ∧ (statusWord s).getLsbD 5 = s.treeV ∧
    (statusWord s).getLsbD 6 = s.ctV ∧ (statusWord s).getLsbD 7 = s.payV ∧ (statusWord s).getLsbD 8 = s.mid := by
  simp only [statusWord, BitVec.getLsbD_append, Nat.reduceLT, Nat.reduceSub, if_true, if_false, bit1,
    BitVec.getLsbD_ofBool, decide_true, Bool.true_and, Nat.lt_irrefl, Nat.lt_one_iff, Nat.sub_self,
    OfNat.ofNat_ne_zero, Nat.one_ne_zero]
  simp

/-- The reserved fields of STATUS (R14). -/
theorem statusWord_reserved (s : State) :
    (statusWord s).extractLsb' 9 7 = 0#7 ∧ (statusWord s).extractLsb' 20 4 = 0#4 := by
  simp (disch := decide) only [statusWord, BitVec.extractLsb'_append_eq_of_le,
    BitVec.extractLsb'_append_eq_of_add_le, BitVec.extractLsb'_eq_self, Nat.reduceSub]
  simp

/-- LASTOP and ERR in STATUS (R14). -/
theorem statusWord_codes (s : State) :
    (statusWord s).extractLsb' 24 8 = s.lastop ∧ (statusWord s).extractLsb' 16 4 = errNumber s.err := by
  simp (disch := decide) only [statusWord, BitVec.extractLsb'_append_eq_of_le,
    BitVec.extractLsb'_append_eq_of_add_le, BitVec.extractLsb'_eq_self, Nat.reduceSub]
  simp

/-- The fields of TREEINFO (R12). -/
theorem treeInfoWord_fields (s : State) :
    (treeInfoWord s).extractLsb' 0 9 = s.root ∧ (treeInfoWord s).extractLsb' 9 7 = 0#7 ∧
    (treeInfoWord s).extractLsb' 16 10 = s.nodeN ∧ (treeInfoWord s).extractLsb' 26 6 = 0#6 := by
  simp (disch := decide) only [treeInfoWord, BitVec.extractLsb'_append_eq_of_le,
    BitVec.extractLsb'_append_eq_of_add_le, BitVec.extractLsb'_eq_self, Nat.reduceSub]
  simp

/-- A register whose write is ignored (R12, R13). -/
theorem portTxn_write_ignored {r : Reg} {s : State} (v : Word) (hb : s.busy = false) (hc : r ≠ .cmd)
    (hw : writeReg r v s = (⟨0#32, false⟩, s)) :
    portTxn (.write (regAddr r) v) s = .next { s with resp := some ⟨0#32, false⟩ } :=
  portTxn_write_eq (not_locked_of_idle r hb) hc hw

end Sys2Proof.Machine
end

section
/-! PROOFS. The decoder, the register map, the registers' words, and the frames of the port and of the reset
(30_encoding.md R84 to R86, 10_state.md R12 to R14, 20_memory.md R57 to R62, 70_reset_and_hazards.md R202). -/

namespace Sys2Proof.Machine

/-- Settles O2: the decoder and the encoder are inverses. -/
theorem decodeInvertsEncode : Obligations.DecodeInvertsEncode := fun _ _ => decode_eq_ok_iff

/-- Settles O13: an offset has the register whose offset it is. -/
theorem registerMapOneToOne : Obligations.RegisterMapOneToOne := by
  refine ⟨fun _ _ => regAt_eq_some_iff, rfl, rfl, rfl, rfl, rfl, rfl, rfl, rfl, rfl, rfl, rfl, rfl, rfl, rfl, rfl, rfl,
    rfl, rfl, fun i => ?_, fun k => ?_⟩
  · have hi := i.isLt
    simp only [regAddr, BitVec.toNat_ofNat]
    omega
  · have hk := k.isLt
    simp only [regAddr, BitVec.toNat_ofNat]
    omega

/-- Settles O14: each read answers the register's word and changes nothing, and every write but IN_LEN's is ignored. -/
theorem resultRegisters : Obligations.ResultRegisters := by
  refine ⟨fun s hb => ⟨?_, ?_, ?_, ?_, ?_, ?_, ?_, ?_, ?_⟩, treeInfoWord_fields, fun s v hb => ?_, fun s v r hb hr => ?_⟩
  · exact portTxn_read_of_readReg (r := .cmd) (not_locked_of_idle _ hb) rfl
  · exact portTxn_read_of_readReg (r := .inLen) (not_locked_of_idle _ hb) rfl
  · exact portTxn_read_of_readReg (r := .outLen) (not_locked_of_idle _ hb) rfl
  · exact portTxn_read_of_readReg (r := .errInfo) (not_locked_of_idle _ hb) rfl
  · exact portTxn_read_of_readReg (r := .ftN) (not_locked_of_idle _ hb) rfl
  · exact portTxn_read_of_readReg (r := .treeInfo) (not_locked_of_idle _ hb) rfl
  · exact portTxn_read_of_readReg (r := .encBits) (not_locked_of_idle _ hb) rfl
  · exact portTxn_read_of_readReg (r := .decBits) (not_locked_of_idle _ hb) rfl
  · exact portTxn_read_of_readReg (r := .payBase) (not_locked_of_idle _ hb) rfl
  · exact portTxn_write .inLen v s (not_locked_of_idle _ hb) (by decide)
  · rcases hr with rfl | rfl | rfl | rfl | rfl | rfl | rfl | rfl | rfl | rfl | rfl | ⟨i, rfl | rfl | rfl⟩ | ⟨k, rfl⟩ <;>
      exact portTxn_write_ignored v hb (by simp) rfl

/-- Settles O17: the fields of the word, and the numbers by the table of codes. -/
theorem statusRegisterBits : Obligations.StatusRegisterBits := by
  intro s
  obtain ⟨h0, h1, h2, h3, h4, h5, h6, h7, h8⟩ := statusWord_flags s
  obtain ⟨hlastop, herr⟩ := statusWord_codes s
  exact ⟨h0, h1, h2, h3, h4, h5, h6, h7, h8, (statusWord_reserved s).1, (statusWord_reserved s).2, hlastop, herr, rfl,
    rfl, rfl, rfl, rfl, rfl, rfl, rfl, rfl, rfl⟩

/-- Settles O21: an access to no register or a locked one writes at most OVR, a read its data port's pointer, a write its
own register. -/
theorem hostAccessFrame : Obligations.HostAccessFrame := by
  intro x s t hx h
  have hf := portTxn_frame hx h
  obtain ⟨hseq, hbusycnt, hwork⟩ := hf.same.engine
  refine ⟨hf.same.results, hf.same.sameObuf, hf.same.error.1, hf.same.error.2, hf.same.command.1, hf.same.command.2,
    hseq, hbusycnt, hf.same.caps.1, hf.same.caps.2, hf.same.script, hwork, hf.same.draws, hf.ibufElsewhere,
    fun hn => ibufByte_congr (hf.ibuf hn), hf.inLen, fun hn ha => hf.iptr (not_or.mpr ⟨hn, ha⟩),
    fun hn ha => hf.optr (not_or.mpr ⟨hn, ha⟩), hf.ctrl, fun hn => ⟨hf.done hn, fun hb => hf.ovr ?_⟩⟩
  exact not_or.mpr ⟨hn, by simp [hb]⟩

/-- Settles O24: a reset keeps both memories, unless it makes OBUF havoc. -/
theorem resetKeepsBuffers : Obligations.ResetKeepsBuffers := by
  intro s x h hs
  obtain ⟨-, -, hibuf, -⟩ := resetRegs_kept { s with script := h }
  refine ⟨resetCycle x { s with script := h }, step_of_rst hs, ibufByte_congr hibuf, fun hsafe a => ?_⟩
  have hrisk : State.obufAtRisk { s with script := h } = false := by
    simp only [State.obufAtRisk]
    split
    · rfl
    · next w hw =>
      split
      · next i hd =>
        obtain ⟨hpack, hwalk, hcompress, hdecompress⟩ := hsafe w i hw hd
        cases i <;> simp_all [writesObuf]
      · rfl
  simp only [resetCycle, resetRegs, hrisk]
  rfl

/-- Settles O53: in such a cycle the host reaches nothing but OVR, STATUS and CTRL, and the engine counts. -/
theorem nothingVisibleBeforeCompletion : Obligations.NothingVisibleBeforeCompletion := by
  intro s hb hcnt hr
  obtain ⟨s1, hport, hstep⟩ := step_of_busy hb hr
  obtain ⟨r, u, rfl, hu⟩ := portCycle_busy_cases (s := { s with script := (nextInput s).2 }) hb hport
  have quiet : (∀ x h, s.script ≠ .txn x :: h) → u.ovr = s.ovr ∧ u.done = s.done ∧ u.die = s.die ∧ u.eie = s.eie := by
    intro hx
    obtain ⟨r', he⟩ := portCycle_busy_of_no_txn hr hx hport
    exact ⟨(congrArg State.ovr he :), (congrArg State.done he :), (congrArg State.die he :),
      (congrArg State.eie he :)⟩
  have written : ∀ {a v}, (nextInput s).1.req = some (.write a v) → ∃ k, s.script = .txn (.write a v) :: k :=
    nextInput_req_write hr
  rcases hu with rfl | ⟨hreq, rfl⟩ | ⟨v, hreq, rfl⟩ | ⟨v, hreq, rfl⟩ <;>
    refine ⟨_, hstep.trans (engineTick_counts hcnt), hb, rfl, ?_, quiet, ?_, ?_⟩
  · exact id
  · exact fun _ => ⟨rfl, rfl⟩
  · exact fun _ => ⟨rfl, id⟩
  · exact id
  · exact fun _ => ⟨rfl, rfl⟩
  · exact fun _ => ⟨rfl, fun _ => rfl⟩
  · exact fun hd => by simp [hd]
  · exact fun _ => ⟨rfl, rfl⟩
  · intro hn
    obtain ⟨k, hk⟩ := written hreq
    exact absurd hk (hn v k)
  · exact id
  · intro hn
    obtain ⟨k, hk⟩ := written hreq
    exact absurd hk (hn v k)
  · exact fun _ => ⟨rfl, id⟩

end Sys2Proof.Machine
end

section
/-! SUPPORT. PACK step by step (43_pack.md R131): after any number of code bits the packer is the one that has written the
whole payload bytes of these bits, and the finished memory reads as the envelope (30_encoding.md R90). -/

namespace Sys2Proof.Machine

/-! ### The bytes of a payload -/

/-- Byte `j` of the payload of a bit sequence (R52). -/
def payloadByte (bits : List Bool) (j : Nat) : Byte := byteOfBits fun t => (bits[8 * j + t]?).getD false

theorem payloadBytes_eq (bits : List Bool) :
    payloadBytes bits = (List.range (ceil8 bits.length)).map (payloadByte bits) := rfl

theorem payloadBytes_length (bits : List Bool) : (payloadBytes bits).length = ceil8 bits.length := by
  simp [payloadBytes]

/-- More bits leave the whole bytes alone. -/
theorem payloadByte_append (bits more : List Bool) {j : Nat} (h : 8 * j + 8 ≤ bits.length) :
    payloadByte (bits ++ more) j = payloadByte bits j := by
  apply BitVec.eq_of_getLsbD_eq
  intro t ht
  simp only [payloadByte, byteOfBits_getLsbD]
  rw [List.getElem?_append_left (by omega)]

/-- Behind the last bit a payload is 0. -/
theorem payloadByte_of_length_le {bits : List Bool} {j : Nat} (h : bits.length ≤ 8 * j) :
    payloadByte bits j = 0#8 := by
  apply BitVec.eq_of_getLsbD_eq
  intro t ht
  simp only [payloadByte, byteOfBits_getLsbD]
  rw [List.getElem?_eq_none (by omega)]
  simp

/-- ACC after one more bit (R131). -/
theorem payloadByte_concat (bits : List Bool) (b : Bool) :
    payloadByte bits (bits.length / 8) ||| ((BitVec.ofBool b).setWidth 8 <<< (bits.length % 8)) =
      payloadByte (bits ++ [b]) (bits.length / 8) := by
  apply BitVec.eq_of_getLsbD_eq
  intro t ht
  have hdiv := Nat.div_add_mod bits.length 8
  simp only [BitVec.getLsbD_or, payloadByte, byteOfBits_getLsbD, BitVec.getLsbD_shiftLeft, BitVec.getLsbD_setWidth,
    ht, decide_true, Bool.true_and, BitVec.getLsbD_ofBool]
  rcases Nat.lt_trichotomy t (bits.length % 8) with h | h | h
  · rw [List.getElem?_append_left (by omega)]
    simp [h]
  · subst h
    rw [hdiv]
    simp
  · rw [List.getElem?_eq_none (by omega), List.getElem?_eq_none (by simp; omega)]
    simp [show ¬ t - bits.length % 8 = 0 by omega]

/-! ### The memory -/

theorem memWriteList_concat (m : Mem) (k : Nat) (vs : List Byte) (v : Byte) :
    memWriteList m k (vs ++ [v]) = memWrite (memWriteList m k vs) (k + vs.length) v := by
  induction vs generalizing m k with
  | nil => rfl
  | cons x vs ih =>
    simp only [List.cons_append, memWriteList, ih, List.length_cons]
    rw [Nat.add_right_comm, Nat.add_assoc]

/-! ### Phase P_BITS -/

/-- The packer after the code bits `bits`, the payload beginning at offset `h`. -/
def packerAt (m : Mem) (h : Nat) (bits : List Bool) (i : Nat) : Packer :=
  ⟨memWriteList m h ((List.range (bits.length / 8)).map (payloadByte bits)), h + bits.length / 8,
    payloadByte bits (bits.length / 8), bits.length % 8, bits.length, i⟩

theorem packStart_eq (obuf : Mem) (t : List FtEntry) :
    packStart obuf t = packerAt (memWriteList obuf 0 (headerBytes t)) (headerSize t.length) [] 0 := by
  simp [packStart, packerAt, memWriteList, payloadByte_of_length_le]

/-- The whole bytes after one more bit that completes a byte. -/
theorem wholeBytes_concat (bits : List Bool) (b : Bool) (h : (bits.length + 1) % 8 = 0) :
    (List.range ((bits ++ [b]).length / 8)).map (payloadByte (bits ++ [b])) =
      (List.range (bits.length / 8)).map (payloadByte bits) ++ [payloadByte (bits ++ [b]) (bits.length / 8)] := by
  have hlen : (bits ++ [b]).length / 8 = bits.length / 8 + 1 := by simp; omega
  rw [hlen, List.range_succ, List.map_append, List.map_singleton]
  congr 1
  exact List.map_congr_left fun j hj => payloadByte_append bits [b] (by rw [List.mem_range] at hj; omega)

/-- The whole bytes after one more bit that completes none. -/
theorem wholeBytes_concat_of_partial (bits : List Bool) (b : Bool) (h : (bits.length + 1) % 8 ≠ 0) :
    (List.range ((bits ++ [b]).length / 8)).map (payloadByte (bits ++ [b])) =
      (List.range (bits.length / 8)).map (payloadByte bits) := by
  have hlen : (bits ++ [b]).length / 8 = bits.length / 8 := by simp; omega
  rw [hlen]
  exact List.map_congr_left fun j hj => payloadByte_append bits [b] (by rw [List.mem_range] at hj; omega)

/-- A code bit that completes no byte, or a byte that fits. -/
theorem packBit_fits {cap h : Nat} (m : Mem) (bits : List Bool) (b : Bool) (i : Nat)
    (hf : h + (bits.length + 1) / 8 ≤ cap) :
    packBit cap b (packerAt m h bits i) = .ok (packerAt m h (bits ++ [b]) i) := by
  simp only [packBit, packerAt, payloadByte_concat]
  split
  · next h8 =>
    have hw := wholeBytes_concat bits b (by omega)
    have hz : payloadByte (bits ++ [b]) ((bits ++ [b]).length / 8) = 0#8 :=
      payloadByte_of_length_le (by simp; omega)
    have hd : (bits.length + 1) / 8 = bits.length / 8 + 1 := by omega
    rw [packFlush, if_neg (by simp only; omega), hw, hz, memWriteList_concat]
    simp [hd, show (bits.length + 1) % 8 = 0 by omega, Nat.add_assoc]
  · next h8 =>
    have hw := wholeBytes_concat_of_partial bits b (by omega)
    have hd : (bits.length + 1) / 8 = bits.length / 8 := by omega
    rw [hw]
    simp [hd, show (bits.length + 1) % 8 = bits.length % 8 + 1 by omega]

/-- A code bit that completes a byte which does not fit (R131). -/
theorem packBit_overflow {cap h : Nat} (m : Mem) (bits : List Bool) (b : Bool) (i : Nat)
    (hf : h + bits.length / 8 ≤ cap) (ho : cap < h + (bits.length + 1) / 8) :
    ∃ q, packBit cap b (packerAt m h bits i) = .raise .overflow (BitVec.ofNat 32 i) q := by
  exact ⟨_, (if_pos (show bits.length % 8 + 1 = 8 by omega)).trans (if_pos (show cap ≤ h + bits.length / 8 by omega))⟩

theorem runList_packBit_fits {cap h : Nat} (m : Mem) (bits code : List Bool) (i : Nat)
    (hf : h + (bits.length + code.length) / 8 ≤ cap) :
    runList (packBit cap) code (packerAt m h bits i) = .ok (packerAt m h (bits ++ code) i) := by
  induction code generalizing bits with
  | nil => simp
  | cons b code ih =>
    simp only [List.length_cons] at hf
    rw [runList_cons, packBit_fits m bits b i (by omega), andThen_ok, ih _ (by simp; omega)]
    simp

theorem runList_packBit_overflow {cap h : Nat} (m : Mem) (bits code : List Bool) (i : Nat)
    (hf : h + bits.length / 8 ≤ cap) (ho : cap < h + (bits.length + code.length) / 8) :
    ∃ q, runList (packBit cap) code (packerAt m h bits i) = .raise .overflow (BitVec.ofNat 32 i) q := by
  induction code generalizing bits with
  | nil => simp only [List.length_nil, Nat.add_zero] at ho; omega
  | cons b code ih =>
    simp only [List.length_cons] at ho
    rw [runList_cons]
    by_cases hb : h + (bits.length + 1) / 8 ≤ cap
    · rw [packBit_fits m bits b i hb, andThen_ok]
      exact ih _ (by simpa using hb) (by simp; omega)
    · obtain ⟨q, hq⟩ := packBit_overflow m bits b i hf (by omega)
      exact ⟨q, by rw [hq, andThen_raise]⟩

/-- An input byte without a code (R131). -/
theorem packByte_invalid {ct : Table CtEntry 8} {b : Byte} (cap : Nat) (p : Packer)
    (hv : (tableGet ct b).valid = false) :
    packByte cap ct b p = .raise .invariant (BitVec.ofNat 32 p.ipos) p := by
  simp [packByte, hv]

theorem packByte_fits {cap h : Nat} {ct : Table CtEntry 8} {b : Byte} (m : Mem) (bits : List Bool) (i : Nat)
    (hv : (tableGet ct b).valid = true) (hf : h + (bits.length + (codeBits (tableGet ct b)).length) / 8 ≤ cap) :
    packByte cap ct b (packerAt m h bits i) = .ok (packerAt m h (bits ++ codeBits (tableGet ct b)) (i + 1)) := by
  rw [packByte, if_pos hv, runList_packBit_fits m bits _ i hf]
  rfl

theorem packByte_overflow {cap h : Nat} {ct : Table CtEntry 8} {b : Byte} (m : Mem) (bits : List Bool) (i : Nat)
    (hv : (tableGet ct b).valid = true) (hf : h + bits.length / 8 ≤ cap)
    (ho : cap < h + (bits.length + (codeBits (tableGet ct b)).length) / 8) :
    ∃ q, packByte cap ct b (packerAt m h bits i) = .raise .overflow (BitVec.ofNat 32 i) q := by
  obtain ⟨q, hq⟩ := runList_packBit_overflow m bits (codeBits (tableGet ct b)) i hf ho
  exact ⟨q, by rw [packByte, if_pos hv, hq, andThen_raise]⟩

@[simp] theorem encodeBits_nil (ct : Table CtEntry 8) : encodeBits ct [] = [] := rfl

@[simp] theorem encodeBits_cons (ct : Table CtEntry 8) (b : Byte) (bs : List Byte) :
    encodeBits ct (b :: bs) = codeBits (tableGet ct b) ++ encodeBits ct bs := rfl

theorem encodeBits_append (ct : Table CtEntry 8) (as bs : List Byte) :
    encodeBits ct (as ++ bs) = encodeBits ct as ++ encodeBits ct bs := List.flatMap_append

/-- Phase P_BITS over input bytes that have codes and whose whole payload bytes fit (R131). -/
theorem runList_packByte_fits {cap h : Nat} {ct : Table CtEntry 8} (m : Mem) (bs : List Byte) (bits : List Bool)
    (i : Nat) (hv : ∀ b ∈ bs, (tableGet ct b).valid = true)
    (hf : h + (bits.length + (encodeBits ct bs).length) / 8 ≤ cap) :
    runList (packByte cap ct) bs (packerAt m h bits i) =
      .ok (packerAt m h (bits ++ encodeBits ct bs) (i + bs.length)) := by
  induction bs generalizing bits i with
  | nil => simp
  | cons b bs ih =>
    simp only [encodeBits_cons, List.length_append] at hf
    rw [runList_cons, packByte_fits m bits i (hv b (by simp)) (by omega), andThen_ok,
      ih _ _ (fun c hc => hv c (by simp [hc])) (by simp only [List.length_append]; omega)]
    simp [Nat.add_assoc, Nat.add_comm 1]

/-- Phase P_BITS ends in no other way: a byte without a code, or a whole payload byte that does not fit, raises. -/
theorem runList_packByte_raises {cap h : Nat} {ct : Table CtEntry 8} (m : Mem) (bs : List Byte) (bits : List Bool)
    (i : Nat) (hf : h + bits.length / 8 ≤ cap)
    (hbad : (∃ b ∈ bs, (tableGet ct b).valid = false) ∨ cap < h + (bits.length + (encodeBits ct bs).length) / 8) :
    ∃ e info q, runList (packByte cap ct) bs (packerAt m h bits i) = .raise e info q := by
  induction bs generalizing bits i with
  | nil =>
    rcases hbad with ⟨b, hb, -⟩ | ho
    · cases hb
    · simp only [encodeBits_nil, List.length_nil, Nat.add_zero] at ho; omega
  | cons b bs ih =>
    rw [runList_cons]
    cases hv : (tableGet ct b).valid with
    | false => exact ⟨_, _, _, by rw [packByte_invalid cap _ hv, andThen_raise]⟩
    | true =>
      by_cases hb : h + (bits.length + (codeBits (tableGet ct b)).length) / 8 ≤ cap
      · rw [packByte_fits m bits i hv hb, andThen_ok]
        refine ih _ _ (by rwa [List.length_append]) ?_
        rcases hbad with ⟨c, hc, hcv⟩ | ho
        · rcases List.mem_cons.mp hc with rfl | hc
          · rw [hv] at hcv; cases hcv
          · exact .inl ⟨c, hc, hcv⟩
        · simp only [encodeBits_cons, List.length_append] at ho ⊢
          exact .inr (by omega)
      · obtain ⟨q, hq⟩ := packByte_overflow m bits i hv hf (by omega)
        exact ⟨_, _, q, by rw [hq, andThen_raise]⟩

/-! ### Phase P_FLUSH -/

/-- The last, partial byte fits (R131). -/
theorem packTail_fits {cap h : Nat} (info : Word) (m : Mem) (bits : List Bool) (i : Nat)
    (hf : h + ceil8 bits.length ≤ cap) :
    ∃ p, packTail cap info (packerAt m h bits i) = .ok p ∧ p.obuf = memWriteList m h (payloadBytes bits) ∧
      p.opos = h + ceil8 bits.length ∧ p.nbits = bits.length := by
  rw [ceil8] at hf
  by_cases hp : 0 < bits.length % 8
  · have hc : ceil8 bits.length = bits.length / 8 + 1 := by rw [ceil8]; omega
    refine ⟨{ packerAt m h bits i with
      obuf := memWrite (packerAt m h bits i).obuf (packerAt m h bits i).opos (packerAt m h bits i).acc
      opos := (packerAt m h bits i).opos + 1 }, ?_, ?_, ?_, rfl⟩
    · rw [packTail, if_pos (by simpa [packerAt] using hp), if_neg (by simp only [packerAt]; omega)]
    · rw [payloadBytes_eq, hc, List.range_succ, List.map_append, List.map_singleton, memWriteList_concat]
      simp [packerAt]
    · simp only [packerAt, hc]; omega
  · have hc : ceil8 bits.length = bits.length / 8 := by rw [ceil8]; omega
    refine ⟨packerAt m h bits i, ?_, ?_, ?_, rfl⟩
    · rw [packTail, if_neg (by simpa [packerAt] using hp)]
    · simp [packerAt, payloadBytes_eq, hc]
    · simp only [packerAt, hc]

theorem packTail_overflow {cap h : Nat} (info : Word) (m : Mem) (bits : List Bool) (i : Nat)
    (hf : h + bits.length / 8 ≤ cap) (ho : cap < h + ceil8 bits.length) :
    ∃ q, packTail cap info (packerAt m h bits i) = .raise .overflow info q := by
  rw [ceil8] at ho
  exact ⟨_, by rw [packTail, if_pos (by simp only [packerAt]; omega), if_pos (by simp only [packerAt]; omega)]⟩

/-! ### PACK -/

theorem packInput_fits {cap h : Nat} {ct : Table CtEntry 8} (m : Mem) (bs : List Byte)
    (hv : ∀ b ∈ bs, (tableGet ct b).valid = true) (hf : h + ceil8 (encodeBits ct bs).length ≤ cap) :
    ∃ p, packInput cap ct bs (packerAt m h [] 0) = .ok p ∧
      p.obuf = memWriteList m h (payloadBytes (encodeBits ct bs)) ∧
      p.opos = h + ceil8 (encodeBits ct bs).length ∧ p.nbits = (encodeBits ct bs).length := by
  have hw : h + (([] : List Bool).length + (encodeBits ct bs).length) / 8 ≤ cap := by
    rw [ceil8] at hf; simp only [List.length_nil]; omega
  rw [packInput, runList_packByte_fits m bs [] 0 hv hw, andThen_ok, List.nil_append]
  exact packTail_fits _ m _ _ hf

/-- PACK's two phases end without a `raise` only where every byte has a code and the payload fits. -/
theorem of_packInput_ok {cap h : Nat} {ct : Table CtEntry 8} {m : Mem} {bs : List Byte} {p : Packer} (hc : h ≤ cap)
    (hok : packInput cap ct bs (packerAt m h [] 0) = .ok p) :
    (∀ b ∈ bs, (tableGet ct b).valid = true) ∧ h + ceil8 (encodeBits ct bs).length ≤ cap := by
  obtain ⟨q, hq, htail⟩ := andThen_eq_ok.mp hok
  have hgood : ¬ ((∃ b ∈ bs, (tableGet ct b).valid = false) ∨
      cap < h + (([] : List Bool).length + (encodeBits ct bs).length) / 8) := fun hbad => by
    obtain ⟨e, info, r, hr⟩ := runList_packByte_raises m bs [] 0 (by simpa using hc) hbad
    rw [hr] at hq; cases hq
  rw [not_or] at hgood
  obtain ⟨hvalid, hfit⟩ := hgood
  have hv : ∀ b ∈ bs, (tableGet ct b).valid = true := fun b hb => by
    cases hx : (tableGet ct b).valid
    · exact absurd ⟨b, hb, hx⟩ hvalid
    · rfl
  refine ⟨hv, Nat.le_of_not_lt fun ho => ?_⟩
  rw [runList_packByte_fits m bs [] 0 hv (by omega), List.nil_append] at hq
  cases hq
  obtain ⟨r, hr⟩ := packTail_overflow (BitVec.ofNat 32 bs.length) m _ (0 + bs.length)
    (by simp only [List.length_nil] at hfit; omega) ho
  rw [hr] at htail; cases htail

/-! ### The envelope in OBUF -/

theorem entryBytes_length (e : FtEntry) : (entryBytes e).length = 5 := rfl

theorem flatMap_entryBytes_length (t : List FtEntry) : (t.flatMap entryBytes).length = 5 * t.length := by
  induction t with
  | nil => rfl
  | cons e t ih => rw [List.flatMap_cons, List.length_append, ih, entryBytes_length, List.length_cons]; omega

theorem headerBytes_length (t : List FtEntry) : (headerBytes t).length = 2 + 5 * t.length := by
  rw [headerBytes, List.length_append, flatMap_entryBytes_length]
  rfl

theorem envelope_length (t : List FtEntry) (bits : List Bool) :
    (envelope t bits).length = envSize t.length bits.length := by
  rw [envelope, List.length_append, List.length_append, headerBytes_length, payloadBytes_length, envSize]
  simp only [bytes32, List.length_cons, List.length_nil]
  omega

/-- OBUF after PACK: the table, the payload, and last the bit length (R131). -/
def packedMem (m : Mem) (t : List FtEntry) (bits : List Bool) : Mem :=
  memWriteList (memWriteList (memWriteList m 0 (headerBytes t)) (headerSize t.length) (payloadBytes bits))
    (headerSize t.length - 4) (bytes32 bits.length)

theorem memRead_packedMem (m : Mem) (t : List FtEntry) (bits : List Bool) (a : Nat) :
    memRead (packedMem m t bits) a =
      if a < envSize t.length bits.length then some (byteAt (envelope t bits) a) else memRead m a := by
  have hh := headerBytes_length t
  have hp := payloadBytes_length bits
  have hl : (bytes32 bits.length).length = 4 := rfl
  have he := envelope_length t bits
  simp only [packedMem, memRead_writeList, headerSize, hh, hp, hl]
  by_cases ha : a < envSize t.length bits.length
  · have hget : some (byteAt (envelope t bits) a) = (envelope t bits)[a]? := by
      rw [byteAt, List.getElem?_eq_getElem (by omega), Option.getD_some]
    rw [if_pos ha, hget, envelope]
    rw [envSize] at ha
    by_cases h1 : a < 2 + 5 * t.length
    · rw [if_neg (by omega), if_neg (by omega), if_pos (by omega), List.getElem?_append_left (by simp [hh, hl]; omega),
        List.getElem?_append_left (by omega), Nat.sub_zero]
    · by_cases h2 : a < 6 + 5 * t.length
      · rw [if_pos (by omega), List.getElem?_append_left (by simp [hh, hl]; omega),
          List.getElem?_append_right (by omega), hh]
        congr 1; omega
      · rw [if_neg (by omega), if_pos (by omega), List.getElem?_append_right (by simp [hh, hl]; omega)]
        simp only [List.length_append, hh, hl]
        congr 1; omega
  · rw [if_neg ha]
    rw [envSize] at ha
    rw [if_neg (by omega), if_neg (by omega), if_neg (by omega)]

theorem memWf_packedMem {m : Mem} (t : List FtEntry) (bits : List Bool) (h : Memory.wf m = true) :
    Memory.wf (packedMem m t bits) = true :=
  memWf_writeList _ _ _ (memWf_writeList _ _ _ (memWf_writeList _ _ _ h))

theorem memBelow_packedMem {cap : Nat} {m : Mem} {t : List FtEntry} {bits : List Bool} (h : memBelow cap m = true)
    (hf : envSize t.length bits.length ≤ cap) : memBelow cap (packedMem m t bits) = true := by
  rw [envSize] at hf
  have hl : (bytes32 bits.length).length = 4 := rfl
  refine memBelow_writeList _ _ _ _ (memBelow_writeList _ _ _ _ (memBelow_writeList _ _ _ _ h ?_) ?_) ?_
  · rw [headerBytes_length]; omega
  · rw [payloadBytes_length, headerSize]; exact hf
  · rw [hl, headerSize]; omega

theorem ftList_length {s : State} (h : s.ftN.toNat ≤ 256) : s.ftList.length = s.ftN.toNat :=
  tableTake_length _ _ h

/-- The state of a PACK that wrote its envelope (R131, R132). -/
def packed (s : State) (w : Work) : State :=
  { startPack s with
    obuf := packedMem s.obuf s.ftList (encodeBits s.ct s.input)
    encBits := BitVec.ofNat 32 (encodeBits s.ct s.input).length
    outLen := BitVec.ofNat 32 (envSize s.ftN.toNat (encodeBits s.ct s.input).length), work := w }

/-- What PACK asks of its state beyond the flag: the input, the table and the codes are in range and the envelope fits. -/
structure Packable (s : State) : Prop where
  input : s.inLen.toNat ≤ s.inCap
  table : s.ftN.toNat ≤ 256
  coded : ∀ b ∈ s.input, (tableGet s.ct b).valid = true
  size : envSize s.ftN.toNat (encodeBits s.ct s.input).length ≤ s.outCap

theorem packStart_ftList {s : State} (hn : s.ftN.toNat ≤ 256) :
    packStart s.obuf s.ftList =
      packerAt (memWriteList s.obuf 0 (headerBytes s.ftList)) (headerSize s.ftN.toNat) [] 0 := by
  rw [packStart_eq, ftList_length hn]

/-- PACK succeeds where its state is packable. -/
theorem bodyPack_of_packable {s : State} (hv : s.ctV = true) (h : Packable s) :
    ∃ w, w.cmdl = s.work.cmdl ∧ bodyPack s = .ok (packed s w) := by
  obtain ⟨p, hp, hobuf, hopos, hnbits⟩ := packInput_fits (cap := s.outCap) (h := headerSize s.ftN.toNat)
    (memWriteList s.obuf 0 (headerBytes s.ftList)) s.input h.coded h.size
  have hhead : headerSize s.ftN.toNat ≤ s.outCap := by
    have := h.size; rw [envSize] at this; rw [headerSize]; omega
  rw [← packStart_ftList h.table] at hp
  rcases bodyPack_cases s with ⟨hf, -⟩ | ⟨-, hlt, -⟩ | ⟨-, -, hgt, -⟩ | ⟨-, -, -, e, i, w, -, -, hb⟩ |
    ⟨-, -, -, -, q, w, hq, hw, hb⟩
  · cases hv.symm.trans hf
  · have := h.input; omega
  · have := h.table; omega
  · exfalso
    rw [bodyPack, if_neg (by simp [hv]), if_neg (by simpa using h.input), if_neg (by simpa using h.table),
      if_neg (by simpa using hhead)] at hb
    simp only at hb
    rw [show packInput (startPack s).outCap (startPack s).ct (startPack s).input
      (packStart (startPack s).obuf (startPack s).ftList) = .ok p from hp] at hb
    cases hb
  · rw [hp] at hq
    cases hq
    refine ⟨w, hw, hb.trans ?_⟩
    rw [hobuf, hopos, hnbits]
    simp only [packed, packedMem, ftList_length h.table]
    rfl

/-- PACK succeeds nowhere else. -/
theorem of_bodyPack_ok {s u : State} (h : bodyPack s = .ok u) :
    s.ctV = true ∧ Packable s ∧ ∃ w, w.cmdl = s.work.cmdl ∧ u = packed s w := by
  rcases bodyPack_cases s with ⟨-, hb⟩ | ⟨-, -, hb⟩ | ⟨-, -, -, hb⟩ | ⟨-, -, -, e, i, w, -, -, hb⟩ |
    ⟨hv, hin, hn, hhead, q, w, hq, -, -⟩
  · rw [hb] at h; cases h
  · rw [hb] at h; cases h
  · rw [hb] at h; cases h
  · rw [hb] at h; cases h
  · rw [packStart_ftList hn] at hq
    obtain ⟨hcoded, hsize⟩ := of_packInput_ok hhead hq
    have hp : Packable s := ⟨hin, hn, hcoded, hsize⟩
    obtain ⟨w', hw', hb⟩ := bodyPack_of_packable hv hp
    rw [hb] at h
    cases h
    exact ⟨hv, hp, w', hw', rfl⟩

end Sys2Proof.Machine
end

section
/-! SUPPORT. The tree that TREE leaves and the code table of its paths, as CODES, PACK and WALK find them (41_tree.md R111,
R115, 42_codes.md R122, R123). -/

namespace Sys2Proof.Machine

/-! ### The tree of a symbol sequence -/

/-- Every node of the shape stands above its children in the arena (R114). -/
def Shape.Ordered : Shape → Prop
  | .leaf _ _ => True
  | .node i l r => l.root.toNat < i.toNat ∧ r.root.toNat < i.toNat ∧ l.Ordered ∧ r.Ordered
  | .wrap i l => l.root.toNat < i.toNat ∧ l.Ordered

/-- An internal node of a forest stands above its children. -/
theorem Forest.inner_lt {n : Nat} {arena : List NodeEntry} {roots : List NodeIdx} (f : Forest n arena roots) {k : Nat}
    {a b : NodeIdx} (h : arena[k]? = some (innerNode a b)) : a.toNat < k ∧ b.toNat < k := by
  by_cases hn : k < n
  · cases f.leaves k _ hn h
  · obtain ⟨a', b', he, ha, hb, -⟩ := f.inner k _ (by omega) h
    cases he
    exact ⟨ha, hb⟩

theorem Shape.InArena.ordered {n : Nat} {arena : List NodeEntry} {roots : List NodeIdx} (f : Forest n arena roots)
    {t : Shape} (h : t.InArena arena) : t.Ordered := by
  induction t with
  | leaf i b => trivial
  | node i l r hl hr =>
    obtain ⟨he, -, -, h1, h2⟩ := h
    exact ⟨(f.inner_lt he).1, (f.inner_lt he).2, hl h1, hr h2⟩
  | wrap i l hl =>
    obtain ⟨he, -, h1⟩ := h
    exact ⟨(f.inner_lt he).1, hl h1⟩

/-- `b` is the tree of the symbols, and `t` its shape (R111, R114, R115). -/
structure TreeShape (syms : List Byte) (b : Built) (t : Shape) : Prop where
  built : buildTree syms = some b
  inArena : t.InArena b.arena
  root_eq : t.root = b.root
  inner : t.isLeaf = false
  syms_eq : t.syms = syms
  height_le : t.height ≤ max 1 (Nat.clog 2 syms.length)
  arena_length : b.arena.length ≤ 511
  ordered : t.Ordered

theorem exists_treeShape (syms : List Byte) (h1 : 1 ≤ syms.length) (h2 : syms.length ≤ 256) :
    ∃ b t, TreeShape syms b t := by
  obtain ⟨b, t, hb, harena, hroot, hinner, -, hsyms, hheight, -, hlen, -, hone⟩ := buildTree_shape syms h1 h2
  refine ⟨b, t, hb, harena, hroot, hinner, hsyms, hheight, by split at hlen <;> omega, ?_⟩
  by_cases h : syms.length = 1
  · rw [hone h]
    exact ⟨Nat.zero_lt_one, trivial⟩
  · obtain ⟨b', hb', hf⟩ := buildTree_forest syms (by omega) h2
    cases hb.symm.trans hb'
    exact harena.ordered hf

theorem max_clog_le_eight {n : Nat} (h : n ≤ 256) : max 1 (Nat.clog 2 n) ≤ 8 :=
  max_le (by decide) ((Nat.clog_mono_right 2 h).trans (by decide))

/-- A tree of the NODE memory over the symbols: what the flag TREE_V promises, as a shape (R16, R115). -/
structure TreeIn (node : Table NodeEntry 9) (root : NodeIdx) (syms : List Byte) (t : Shape) : Prop where
  inNodes : t.InNodes node
  root_eq : t.root = root
  inner : t.isLeaf = false
  syms_eq : t.syms = syms
  height_le : t.height ≤ 8
  ordered : t.Ordered

theorem TreeShape.treeIn {syms : List Byte} {b : Built} {t : Shape} (h : TreeShape syms b t) (hn : syms.length ≤ 256)
    {node : Table NodeEntry 9} (hnode : tableTake node b.arena.length = b.arena) : TreeIn node b.root syms t :=
  ⟨h.inArena.inNodes hnode, h.root_eq, h.inner, h.syms_eq, h.height_le.trans (max_clog_le_eight hn), h.ordered⟩

/-- The tree written by TREE into any old content of NODE. -/
theorem TreeShape.treeIn_overlay {syms : List Byte} {b : Built} {t : Shape} (h : TreeShape syms b t)
    (hn : syms.length ≤ 256) (node : Table NodeEntry 9) : TreeIn (tableOverlay node b.arena) b.root syms t :=
  h.treeIn hn (tableTake_overlay node b.arena (by have := h.arena_length; omega))

theorem State.treeMatches.exists_treeIn {s : State} (h : s.treeMatches) (ht : TableOk s.ftList) :
    ∃ t, TreeIn s.node s.root s.symbols t := by
  obtain ⟨b, hb, htake, hlen, hroot⟩ := h
  have hs : s.symbols.length = s.ftList.length := List.length_map _
  obtain ⟨b', t, hbt⟩ := exists_treeShape s.symbols (by rw [hs]; exact ht.size.1) (by rw [hs]; exact ht.size.2)
  cases hb.symm.trans hbt.built
  rw [hlen] at htake
  exact ⟨t, hroot ▸ hbt.treeIn (by rw [hs]; exact ht.size.2) htake⟩

/-! ### The code table of a tree -/

/-- The code table of the paths of a tree (R122). -/
def codesOf (t : Shape) : Table CtEntry 8 := putPaths clearCodes t.paths

theorem TreeIn.buildCodes {node : Table NodeEntry 9} {root : NodeIdx} {syms : List Byte} {t : Shape}
    (h : TreeIn node root syms t) (hn : syms.Nodup) : buildCodes node root = .ok (codesOf t) := by
  rw [← h.root_eq]
  exact buildCodes_shape node t h.inNodes h.height_le (h.syms_eq ▸ hn)

theorem Shape.exists_path {t : Shape} {b : Byte} (h : b ∈ t.syms) : ∃ p, (p, b) ∈ t.paths := by
  rw [← t.paths_syms, List.mem_map] at h
  obtain ⟨⟨p, c⟩, hp, rfl⟩ := h
  exact ⟨p, hp⟩

theorem Shape.mem_syms_of_path {t : Shape} {p : List Bool} {b : Byte} (h : (p, b) ∈ t.paths) : b ∈ t.syms := by
  rw [← t.paths_syms]
  exact List.mem_map_of_mem h

theorem tableGet_codesOf_of_path {t : Shape} {p : List Bool} {b : Byte} (hn : t.syms.Nodup) (h : (p, b) ∈ t.paths) :
    tableGet (codesOf t) b = codeOfPath p :=
  tableGet_putPaths_of_mem t.paths clearCodes p b (by rwa [t.paths_syms]) h

theorem tableGet_codesOf_of_notMem {t : Shape} {b : Byte} (h : b ∉ t.syms) : tableGet (codesOf t) b = noCode := by
  rw [codesOf, tableGet_putPaths_of_notMem _ _ _ (by rwa [t.paths_syms]), clearCodes, tableGet_replicate]

/-- Exactly the symbols of the tree have codes (R123 (a)). -/
theorem valid_codesOf_iff {t : Shape} (hn : t.syms.Nodup) (b : Byte) :
    (tableGet (codesOf t) b).valid = true ↔ b ∈ t.syms := by
  constructor
  · intro hv
    by_contra hb
    rw [tableGet_codesOf_of_notMem hb] at hv
    cases hv
  · intro hb
    obtain ⟨p, hp⟩ := Shape.exists_path hb
    rw [tableGet_codesOf_of_path hn hp]
    rfl

/-- The bits of a symbol's code are its path (R32, R122). -/
theorem codeBits_codesOf {t : Shape} (hn : t.syms.Nodup) (hh : t.height ≤ 8) {p : List Bool} {b : Byte}
    (h : (p, b) ∈ t.paths) : codeBits (tableGet (codesOf t) b) = p := by
  rw [tableGet_codesOf_of_path hn h]
  exact codeBits_codeOfPath p ((t.paths_length _ h).trans hh)

/-! ### TREE and CODES on a valid table -/

/-- The state after TREE wrote the tree `b` (R111). -/
def treed (s : State) (b : Built) (w : Work) : State :=
  { startTree s with
    node := tableOverlay s.node b.arena, nodeN := BitVec.ofNat 10 b.arena.length, root := b.root, treeV := true,
    work := w }

theorem bodyTree_of_table {s : State} (hv : s.ftV = true) (h1 : 1 ≤ s.ftN.toNat) (h2 : s.ftN.toNat ≤ 256) :
    ∃ b t w, TreeShape s.symbols b t ∧ w.cmdl = s.work.cmdl ∧ bodyTree s = .ok (treed s b w) := by
  have hlen := symbols_length h2
  obtain ⟨b, t, hbt⟩ := exists_treeShape s.symbols (by omega) (by omega)
  rcases bodyTree_cases s with ⟨hf, -⟩ | ⟨-, hgt, -⟩ | ⟨-, -, hnone, -⟩ | ⟨-, -, b', w, hb', hw, hbody⟩
  · cases hv.symm.trans hf
  · omega
  · cases hbt.built.symm.trans hnone
  · cases hbt.built.symm.trans hb'
    exact ⟨b, t, w, hbt, hw, hbody⟩

/-- A finished TREE meets the promise of TREE_V (R16). -/
theorem TreeShape.treeMatches_treed {s : State} {b : Built} {t : Shape} (h : TreeShape s.symbols b t) (w : Work) :
    (treed s b w).treeMatches := by
  have hlen : (BitVec.ofNat 10 b.arena.length).toNat = b.arena.length := by
    have := h.arena_length
    rw [BitVec.toNat_ofNat, Nat.mod_eq_of_lt (by omega)]
  refine ⟨b, h.built, ?_, hlen, rfl⟩
  show tableTake (tableOverlay s.node b.arena) (BitVec.ofNat 10 b.arena.length).toNat = b.arena
  rw [hlen]
  exact tableTake_overlay s.node b.arena (by have := h.arena_length; omega)

/-- The state after CODES wrote the code table `ct` (R121). -/
def coded (s : State) (ct : Table CtEntry 8) (w : Work) : State := { startCodes s with ct := ct, ctV := true, work := w }

theorem bodyCodes_of_tree {s : State} {t : Shape} (hv : s.treeV = true) (ht : TreeIn s.node s.root s.symbols t)
    (hn : s.symbols.Nodup) : ∃ w, w.cmdl = s.work.cmdl ∧ bodyCodes s = .ok (coded s (codesOf t) w) := by
  have hb := ht.buildCodes hn
  rcases bodyCodes_cases s with ⟨hf, -⟩ | ⟨-, ct, w, hct, hw, hbody⟩ | ⟨-, j, ct, w, hr, -⟩ | ⟨-, j, hf, -⟩
  · cases hv.symm.trans hf
  · cases hb.symm.trans hct
    exact ⟨w, hw, hbody⟩
  · cases hb.symm.trans hr
  · cases hb.symm.trans hf

end Sys2Proof.Machine
end

section
/-! SUPPORT. LOAD condition by condition (44_decode.md R141), and the well-formed envelopes (30_encoding.md R91) as the
inputs on which every condition holds. -/

namespace Sys2Proof.Machine

/-! ### The input as a byte string -/

theorem input_length (s : State) : s.input.length = s.inLen.toNat := by simp [State.input, State.ibufBytes]

theorem byteAt_input {s : State} {a : Nat} (h : a < s.inLen.toNat) : byteAt s.input a = s.ibufByte a := by
  simp [byteAt, State.input, State.ibufBytes, h]

theorem fieldU32_input {s : State} {a : Nat} (h : a + 3 < s.inLen.toNat) : fieldU32 s.input a = ibuf32 s a := by
  rw [fieldU32, byteAt_input (by omega), byteAt_input (by omega), byteAt_input (by omega), byteAt_input h, ibuf32]

theorem envN_input {s : State} (h : 2 ≤ s.inLen.toNat) : envN s.input = ibuf16 s 0 := by
  rw [envN, fieldU16, byteAt_input (by omega), byteAt_input (by omega), ibuf16]

theorem envSym_input {s : State} {i : Nat} (h : 2 + 5 * i < s.inLen.toNat) :
    envSym s.input i = s.ibufByte (2 + 5 * i) := byteAt_input h

theorem envCnt_input {s : State} {i : Nat} (h : 6 + 5 * i < s.inLen.toNat) :
    envCnt s.input i = ibuf32 s (2 + 5 * i + 1) := by
  rw [envCnt, fieldU32_input (by omega)]
  congr 1; omega

theorem envB_input {s : State} (h : 2 ≤ s.inLen.toNat) (hn : 6 + 5 * envN s.input ≤ s.inLen.toNat) :
    envB s.input = ibuf32 s (2 + 5 * ibuf16 s 0) := by
  rw [envB, fieldU32_input (by omega), envN_input h]

theorem u32le_lt (b0 b1 b2 b3 : Byte) : u32le b0 b1 b2 b3 < 2 ^ 32 := by
  have := b0.isLt; have := b1.isLt; have := b2.isLt; have := b3.isLt
  rw [u32le]; omega

theorem ibuf32_lt (s : State) (a : Nat) : ibuf32 s a < 2 ^ 32 := u32le_lt _ _ _ _

theorem toNat_ibuf32 (s : State) (a : Nat) : (BitVec.ofNat 32 (ibuf32 s a)).toNat = ibuf32 s a := by
  rw [BitVec.toNat_ofNat, Nat.mod_eq_of_lt (ibuf32_lt s a)]

/-! ### The table loop -/

/-- Entry `i` of the envelope in IBUF (R90). -/
def loadedEntry (s : State) (i : Nat) : FtEntry :=
  ⟨s.ibufByte (2 + 5 * i), BitVec.ofNat 32 (ibuf32 s (2 + 5 * i + 1))⟩

/-- The first `n` entries of the envelope in IBUF, in persisted order (R142). -/
def loadedTable (s : State) (n : Nat) : List FtEntry := (List.range n).map (loadedEntry s)

theorem loadedTable_length (s : State) (n : Nat) : (loadedTable s n).length = n := by simp [loadedTable]

theorem loadedTable_succ (s : State) (n : Nat) : loadedTable s (n + 1) = loadedTable s n ++ [loadedEntry s n] := by
  simp [loadedTable, List.range_succ]

/-- Entry `i` fails one of the conditions (d), (e), (f) of R91 against the entries before it. -/
def EntryBad (s : State) (i : Nat) : Prop :=
  ibuf32 s (2 + 5 * i + 1) = 0 ∨ (0 < i ∧ ibuf32 s (2 + 5 * i + 1) < ibuf32 s (2 + 5 * (i - 1) + 1)) ∨
    ∃ j, j < i ∧ s.ibufByte (2 + 5 * j) = s.ibufByte (2 + 5 * i)

theorem cnt_loadedEntry_eq_zero (s : State) (i : Nat) :
    (loadedEntry s i).cnt = 0#32 ↔ ibuf32 s (2 + 5 * i + 1) = 0 := by
  rw [← BitVec.toNat_inj]
  simp only [loadedEntry, toNat_ibuf32]
  rfl

theorem cnt_loadedEntry_lt (s : State) (i j : Nat) :
    (loadedEntry s i).cnt < (loadedEntry s j).cnt ↔ ibuf32 s (2 + 5 * i + 1) < ibuf32 s (2 + 5 * j + 1) := by
  rw [BitVec.lt_def]
  simp only [loadedEntry, toNat_ibuf32]

/-- The last entry read so far has the greater count (R91 (e)). -/
theorem getLast_loadedTable (s : State) (i : Nat) :
    ((loadedTable s i).getLast?.any fun p => decide ((loadedEntry s i).cnt < p.cnt)) = true ↔
      0 < i ∧ ibuf32 s (2 + 5 * i + 1) < ibuf32 s (2 + 5 * (i - 1) + 1) := by
  cases i with
  | zero => simp [loadedTable]
  | succ k => simp [loadedTable_succ, cnt_loadedEntry_lt]

/-- The symbol stands in an entry read so far (R91 (f)). -/
theorem any_loadedTable (s : State) (i : Nat) :
    ((loadedTable s i).any fun p => p.sym == (loadedEntry s i).sym) = true ↔
      ∃ j, j < i ∧ s.ibufByte (2 + 5 * j) = s.ibufByte (2 + 5 * i) := by
  simp [loadedTable, loadedEntry]

theorem loadEntry_eq (s : State) (i : Nat) : loadEntry s (loadedTable s i) =
    if (loadedEntry s i).cnt = 0#32 then badEnvelope (2 + 5 * i) (loadedTable s i)
    else if (loadedTable s i).getLast?.any fun p => decide ((loadedEntry s i).cnt < p.cnt) then
      badEnvelope (2 + 5 * i) (loadedTable s i)
    else if (loadedTable s i).any fun p => p.sym == (loadedEntry s i).sym then badEnvelope (2 + 5 * i) (loadedTable s i)
    else .ok (loadedTable s (i + 1)) := by
  rw [loadedTable_succ, loadEntry, loadedTable_length]
  rfl

theorem loadEntry_of_bad {s : State} {i : Nat} (h : EntryBad s i) :
    loadEntry s (loadedTable s i) = badEnvelope (2 + 5 * i) (loadedTable s i) := by
  rw [loadEntry_eq]
  split_ifs with hz hl ha
  · rfl
  · rfl
  · rfl
  · rcases h with h | h | h
    · exact absurd ((cnt_loadedEntry_eq_zero s i).mpr h) hz
    · exact absurd ((getLast_loadedTable s i).mpr h) hl
    · exact absurd ((any_loadedTable s i).mpr h) ha

theorem loadEntry_of_good {s : State} {i : Nat} (h : ¬ EntryBad s i) :
    loadEntry s (loadedTable s i) = .ok (loadedTable s (i + 1)) := by
  rw [loadEntry_eq, if_neg fun hz => h (.inl ((cnt_loadedEntry_eq_zero s i).mp hz)),
    if_neg fun hl => h (.inr (.inl ((getLast_loadedTable s i).mp hl))),
    if_neg fun ha => h (.inr (.inr ((any_loadedTable s i).mp ha)))]

theorem loadEntries_of_good {s : State} (n k : Nat) (h : ∀ i, k ≤ i → i < k + n → ¬ EntryBad s i) :
    runTimes (loadEntry s) n (loadedTable s k) = .ok (loadedTable s (k + n)) := by
  induction n generalizing k with
  | zero => rfl
  | succ n ih =>
    rw [runTimes_succ, loadEntry_of_good (h k (Nat.le_refl k) (by omega)), andThen_ok,
      ih (k + 1) fun i hi hi' => h i (by omega) (by omega), Nat.add_right_comm, Nat.add_assoc]

/-- The loop ends at the first bad entry (R141). -/
theorem loadEntries_of_bad {s : State} {n i : Nat} (k : Nat) (hk : k ≤ i) (hi : i < k + n) (hbad : EntryBad s i)
    (hgood : ∀ j, k ≤ j → j < i → ¬ EntryBad s j) :
    runTimes (loadEntry s) n (loadedTable s k) = badEnvelope (2 + 5 * i) (loadedTable s i) := by
  induction n generalizing k with
  | zero => omega
  | succ n ih =>
    rw [runTimes_succ]
    by_cases hki : k = i
    · subst hki
      rw [loadEntry_of_bad hbad, badEnvelope, andThen_raise]
    · rw [loadEntry_of_good (hgood k (Nat.le_refl k) (by omega)), andThen_ok]
      exact ih (k + 1) (by omega) (by omega) fun j hj hj' => hgood j (by omega) hj'

theorem of_loadEntries_ok {s : State} {n : Nat} {t : List FtEntry}
    (h : runTimes (loadEntry s) n (loadedTable s 0) = .ok t) :
    (∀ i, i < n → ¬ EntryBad s i) ∧ t = loadedTable s n := by
  have hgood : ∀ i, i < n → ¬ EntryBad s i := by
    intro i
    induction i using Nat.strong_induction_on with
    | _ i ih =>
      intro hi hbad
      rw [loadEntries_of_bad 0 (Nat.zero_le i) (by omega) hbad fun j _ hj => ih j hj (by omega)] at h
      cases h
  rw [loadEntries_of_good n 0 fun i _ hi => hgood i (by omega), Nat.zero_add] at h
  cases h
  exact ⟨hgood, rfl⟩

/-- Entries that meet the conditions are a valid table (R30). -/
theorem tableOk_loadedTable {s : State} {n : Nat} (h1 : 1 ≤ n) (h2 : n ≤ 256) (hgood : ∀ i, i < n → ¬ EntryBad s i) :
    TableOk (loadedTable s n) where
  size := by rw [loadedTable_length]; exact ⟨h1, h2⟩
  positive := by
    intro e he
    obtain ⟨i, hi, rfl⟩ := List.mem_map.mp he
    exact fun hz => hgood i (List.mem_range.mp hi) (.inl ((cnt_loadedEntry_eq_zero s i).mp hz))
  ascending := by
    have step : ∀ i, i + 1 < n → (loadedEntry s i).cnt ≤ (loadedEntry s (i + 1)).cnt := fun i hi => by
      refine BitVec.not_lt.mp fun hlt => hgood (i + 1) hi (.inr (.inl ⟨by omega, ?_⟩))
      exact (cnt_loadedEntry_lt s (i + 1) i).mp hlt
    have far : ∀ d i, i + d < n → (loadedEntry s i).cnt ≤ (loadedEntry s (i + d)).cnt := by
      intro d
      induction d with
      | zero => exact fun i _ => BitVec.le_refl _
      | succ d ih => exact fun i hi => BitVec.le_trans (ih i (by omega)) (step (i + d) hi)
    rw [loadedTable, List.pairwise_map]
    refine List.pairwise_lt_range.imp_of_mem ?_
    intro i j hi hj hij
    have := far (j - i) i (by rw [List.mem_range] at hj; omega)
    rwa [show i + (j - i) = j by omega] at this
  distinct := by
    rw [loadedTable, List.map_map]
    refine List.pairwise_map.mpr (List.pairwise_lt_range.imp_of_mem ?_)
    intro i j hi hj hij he
    exact hgood j (List.mem_range.mp hj) (.inr (.inr ⟨i, hij, he⟩))

/-! ### LOAD -/

/-- The state after LOAD accepted the envelope (R141). -/
def loaded (s : State) (w : Work) : State :=
  { startLoad s with
    ft := tableOverlay s.ft (loadedTable s (ibuf16 s 0)), ftN := BitVec.ofNat 9 (ibuf16 s 0),
    decBits := BitVec.ofNat 32 (ibuf32 s (2 + 5 * ibuf16 s 0)), payBase := BitVec.ofNat 32 (6 + 5 * ibuf16 s 0),
    ftV := true, payV := true, work := w }

/-- What LOAD asks of its state: the input fits IBUF and meets every condition of R91. -/
structure Loadable (s : State) : Prop where
  input : s.inLen.toNat ≤ s.inCap
  count : 1 ≤ ibuf16 s 0 ∧ ibuf16 s 0 ≤ 256
  entries : ∀ i, i < ibuf16 s 0 → ¬ EntryBad s i
  size : s.inLen.toNat = 6 + 5 * ibuf16 s 0 + ceil8 (ibuf32 s (2 + 5 * ibuf16 s 0))
  padding : ibuf32 s (2 + 5 * ibuf16 s 0) % 8 ≠ 0 →
    s.ibufByte (s.inLen.toNat - 1) >>> (ibuf32 s (2 + 5 * ibuf16 s 0) % 8) = 0#8

theorem bodyLoad_of_inlen {s : State} (h : s.inCap < s.inLen.toNat) :
    bodyLoad s = .raise .inlen s.inLen (startLoad s) := if_pos h

theorem bodyLoad_of_short {s : State} (h : s.inLen.toNat ≤ s.inCap) (hs : s.inLen.toNat < 2) :
    bodyLoad s = badEnvelope 0 (startLoad s) := (if_neg (Nat.not_lt.mpr h)).trans (if_pos hs)

theorem bodyLoad_of_count {s : State} (h : s.inLen.toNat ≤ s.inCap) (hs : 2 ≤ s.inLen.toNat)
    (hn : ibuf16 s 0 = 0 ∨ 256 < ibuf16 s 0) : bodyLoad s = badEnvelope 0 (startLoad s) :=
  (if_neg (Nat.not_lt.mpr h)).trans ((if_neg (Nat.not_lt.mpr hs)).trans (if_pos hn))

section
variable {s : State} (h : s.inLen.toNat ≤ s.inCap) (hs : 2 ≤ s.inLen.toNat) (h1 : 1 ≤ ibuf16 s 0)
  (h2 : ibuf16 s 0 ≤ 256)
include h hs h1 h2

theorem bodyLoad_of_cut (hc : s.inLen.toNat < 6 + 5 * ibuf16 s 0) :
    bodyLoad s = badEnvelope s.inLen.toNat (startLoad s) :=
  (if_neg (Nat.not_lt.mpr h)).trans ((if_neg (Nat.not_lt.mpr hs)).trans
    ((if_neg (show ¬ (ibuf16 s 0 = 0 ∨ 256 < ibuf16 s 0) by omega)).trans (if_pos hc)))

/-- LOAD past its first three checks is its table loop and what follows it (R141). -/
theorem bodyLoad_table (hc : 6 + 5 * ibuf16 s 0 ≤ s.inLen.toNat) :
    bodyLoad s =
      match runTimes (loadEntry s) (ibuf16 s 0) (loadedTable s 0) with
      | .raise e info t => .raise e info (putTable t (startLoad s))
      | .fault f => .fault f
      | .ok t =>
        let s1 := putTable t (startLoad s)
        let b := ibuf32 s (2 + 5 * ibuf16 s 0)
        if s.inLen.toNat ≠ 6 + 5 * ibuf16 s 0 + ceil8 b then badEnvelope (2 + 5 * ibuf16 s 0) s1
        else if b % 8 ≠ 0 ∧ s.ibufByte (s.inLen.toNat - 1) >>> (b % 8) ≠ 0#8 then badEnvelope (s.inLen.toNat - 1) s1
        else
          .ok { s1 with
            ftN := BitVec.ofNat 9 (ibuf16 s 0), decBits := BitVec.ofNat 32 b,
            payBase := BitVec.ofNat 32 (6 + 5 * ibuf16 s 0),
            ftV := true, payV := true, work := { s1.work with ipos := s1.inLen } } :=
  (if_neg (Nat.not_lt.mpr h)).trans ((if_neg (Nat.not_lt.mpr hs)).trans
    ((if_neg (show ¬ (ibuf16 s 0 = 0 ∨ 256 < ibuf16 s 0) by omega)).trans (if_neg (Nat.not_lt.mpr hc))))

theorem bodyLoad_of_badEntry (hc : 6 + 5 * ibuf16 s 0 ≤ s.inLen.toNat) {i : Nat} (hi : i < ibuf16 s 0)
    (hbad : EntryBad s i) (hgood : ∀ j, j < i → ¬ EntryBad s j) :
    bodyLoad s = badEnvelope (2 + 5 * i) (putTable (loadedTable s i) (startLoad s)) := by
  rw [bodyLoad_table h hs h1 h2 hc,
    loadEntries_of_bad 0 (Nat.zero_le i) (by omega) hbad fun j _ hj => hgood j hj]
  rfl

theorem bodyLoad_of_goodEntries (hc : 6 + 5 * ibuf16 s 0 ≤ s.inLen.toNat)
    (hgood : ∀ j, j < ibuf16 s 0 → ¬ EntryBad s j) :
    bodyLoad s =
      if s.inLen.toNat ≠ 6 + 5 * ibuf16 s 0 + ceil8 (ibuf32 s (2 + 5 * ibuf16 s 0)) then
        badEnvelope (2 + 5 * ibuf16 s 0) (putTable (loadedTable s (ibuf16 s 0)) (startLoad s))
      else if ibuf32 s (2 + 5 * ibuf16 s 0) % 8 ≠ 0 ∧
          s.ibufByte (s.inLen.toNat - 1) >>> (ibuf32 s (2 + 5 * ibuf16 s 0) % 8) ≠ 0#8 then
        badEnvelope (s.inLen.toNat - 1) (putTable (loadedTable s (ibuf16 s 0)) (startLoad s))
      else .ok (loaded s { s.work with ipos := s.inLen }) := by
  rw [bodyLoad_table h hs h1 h2 hc, loadEntries_of_good _ 0 fun j _ hj => hgood j (by omega), Nat.zero_add]
  rfl

end

theorem Loadable.two_le {s : State} (h : Loadable s) : 2 ≤ s.inLen.toNat := by have := h.size; omega

theorem bodyLoad_of_loadable {s : State} (h : Loadable s) :
    bodyLoad s = .ok (loaded s { s.work with ipos := s.inLen }) := by
  rw [bodyLoad_of_goodEntries h.input h.two_le h.count.1 h.count.2 (by have := h.size; omega) h.entries,
    if_neg (not_not.mpr h.size), if_neg fun hp => hp.2 (h.padding hp.1)]

theorem of_bodyLoad_ok {s u : State} (h : bodyLoad s = .ok u) :
    Loadable s ∧ u = loaded s { s.work with ipos := s.inLen } := by
  rcases bodyLoad_cases s with ⟨-, hb⟩ | ⟨-, i, f, hb⟩ | ⟨hin, n, t, b, w, h1, h2, ht, rfl, rfl, hsize, hpad, -, -⟩
  · rw [hb] at h; cases h
  · rw [hb] at h; cases h
  · have hl : Loadable s := ⟨hin, ⟨h1, h2⟩, (of_loadEntries_ok ht).1, hsize, hpad⟩
    rw [bodyLoad_of_loadable hl] at h
    cases h
    exact ⟨hl, rfl⟩

/-- The table that LOAD leaves (R142). -/
theorem ftList_loaded {s : State} (h : Loadable s) (w : Work) : (loaded s w).ftList = loadedTable s (ibuf16 s 0) := by
  obtain ⟨-, h2⟩ := h.count
  have hn : (BitVec.ofNat 9 (ibuf16 s 0)).toNat = (loadedTable s (ibuf16 s 0)).length := by
    rw [loadedTable_length, BitVec.toNat_ofNat, Nat.mod_eq_of_lt (by omega)]
  show tableTake (tableOverlay s.ft (loadedTable s (ibuf16 s 0))) (BitVec.ofNat 9 (ibuf16 s 0)).toNat = _
  rw [hn]
  exact tableTake_overlay _ _ (by rw [loadedTable_length]; omega)

theorem tableOk_loaded {s : State} (h : Loadable s) (w : Work) : TableOk (loaded s w).ftList := by
  rw [ftList_loaded h]
  exact tableOk_loadedTable h.count.1 h.count.2 h.entries

theorem ftN_loaded {s : State} (h : Loadable s) (w : Work) : (loaded s w).ftN.toNat = ibuf16 s 0 := by
  obtain ⟨-, h2⟩ := h.count
  show (BitVec.ofNat 9 (ibuf16 s 0)).toNat = _
  rw [BitVec.toNat_ofNat, Nat.mod_eq_of_lt (by omega)]

/-- The payload LOAD accepted stands inside the input (R91 (g)). -/
theorem payload_loaded {s : State} (h : Loadable s) (w : Work) :
    (loaded s w).payBase.toNat + ceil8 (loaded s w).decBits.toNat = s.inLen.toNat := by
  obtain ⟨-, h2⟩ := h.count
  show (BitVec.ofNat 32 (6 + 5 * ibuf16 s 0)).toNat + ceil8 (BitVec.ofNat 32 (ibuf32 s _)).toNat = _
  rw [toNat_ibuf32, BitVec.toNat_ofNat, Nat.mod_eq_of_lt (by omega), h.size]

end Sys2Proof.Machine
end

section
/-! SUPPORT. WALK against the decoding function of its tree's code (44_decode.md R145, R148): the cursor stands where the
bits read of the next code lead. -/

namespace Sys2Proof.Machine

/-! ### Where a bit sequence leads in a tree -/

/-- The subtree a path leads to, if the tree has the path. -/
def Shape.sub : Shape → List Bool → Option Shape
  | t, [] => some t
  | .leaf _ _, _ :: _ => none
  | .node _ l _, false :: p => l.sub p
  | .node _ _ r, true :: p => r.sub p
  | .wrap _ l, false :: p => l.sub p
  | .wrap _ _, true :: _ => none

@[simp] theorem Shape.sub_nil (t : Shape) : t.sub [] = some t := by cases t <;> rfl

theorem Shape.sub_append (t : Shape) (p q : List Bool) : t.sub (p ++ q) = (t.sub p).bind fun u => u.sub q := by
  induction p generalizing t with
  | nil => simp
  | cons b p ih =>
    cases t with
    | leaf i c => rfl
    | node i l r => cases b <;> exact ih _
    | wrap i l => cases b; exact ih _; rfl

/-- The leaves are where the paths lead. -/
theorem Shape.mem_paths_iff (t : Shape) (p : List Bool) (b : Byte) :
    (p, b) ∈ t.paths ↔ ∃ i, t.sub p = some (.leaf i b) := by
  induction t generalizing p with
  | leaf i c => cases p <;> simp [paths, sub, eq_comm]
  | node i l r hl hr =>
    cases p with
    | nil => simp [paths, sub]
    | cons x p => cases x <;> simp [paths, sub, hl, hr]
  | wrap i l hl =>
    cases p with
    | nil => simp [paths, sub]
    | cons x p => cases x <;> simp [paths, sub, hl]

theorem Shape.exists_mem_paths (t : Shape) : ∃ p b, (p, b) ∈ t.paths := by
  induction t with
  | leaf i b => exact ⟨[], b, by simp [paths]⟩
  | node i l r hl hr =>
    obtain ⟨p, b, h⟩ := hl
    exact ⟨false :: p, b, by simp [paths, h]⟩
  | wrap i l hl =>
    obtain ⟨p, b, h⟩ := hl
    exact ⟨false :: p, b, by simp [paths, h]⟩

/-- A bit sequence begins a path exactly if it leads somewhere. -/
theorem Shape.exists_prefix_iff (t : Shape) (p : List Bool) :
    (∃ x ∈ t.paths, p <+: x.1) ↔ ∃ u, t.sub p = some u := by
  constructor
  · rintro ⟨⟨_, b⟩, hx, q, rfl⟩
    obtain ⟨i, hi⟩ := (t.mem_paths_iff _ b).mp hx
    rw [t.sub_append] at hi
    obtain ⟨u, hu, -⟩ := Option.bind_eq_some_iff.mp hi
    exact ⟨u, hu⟩
  · rintro ⟨u, hu⟩
    obtain ⟨q, b, hq⟩ := u.exists_mem_paths
    obtain ⟨i, hi⟩ := (u.mem_paths_iff q b).mp hq
    exact ⟨(p ++ q, b), (t.mem_paths_iff _ b).mpr ⟨i, by rw [t.sub_append, hu]; exact hi⟩, List.prefix_append p q⟩

theorem Shape.InNodes.sub {node : Table NodeEntry 9} {t u : Shape} (h : t.InNodes node) {p : List Bool}
    (hu : t.sub p = some u) : u.InNodes node := by
  induction t generalizing p with
  | leaf i c =>
    cases p with
    | nil => cases hu; exact h
    | cons x p => cases hu
  | node i l r hl hr =>
    cases p with
    | nil => cases hu; exact h
    | cons x p =>
      obtain ⟨-, -, -, h1, h2⟩ := h
      cases x
      · exact hl h1 hu
      · exact hr h2 hu
  | wrap i l hl =>
    cases p with
    | nil => cases hu; exact h
    | cons x p =>
      obtain ⟨-, -, h1⟩ := h
      cases x
      · exact hl h1 hu
      · cases hu

/-- A proper path leads below the root (R114). -/
theorem Shape.Ordered.sub_lt {t u : Shape} (h : t.Ordered) {p : List Bool} (hp : p ≠ []) (hu : t.sub p = some u) :
    u.root.toNat < t.root.toNat := by
  have le : ∀ {t u : Shape} {p : List Bool}, t.Ordered → t.sub p = some u → u.root.toNat ≤ t.root.toNat := by
    intro t u p h hu
    induction t generalizing p with
    | leaf i c =>
      cases p with
      | nil => cases hu; exact Nat.le_refl _
      | cons x p => cases hu
    | node i l r hl hr =>
      cases p with
      | nil => cases hu; exact Nat.le_refl _
      | cons x p =>
        obtain ⟨h1, h2, h3, h4⟩ := h
        cases x
        · exact (hl h3 hu).trans h1.le
        · exact (hr h4 hu).trans h2.le
    | wrap i l hl =>
      cases p with
      | nil => cases hu; exact Nat.le_refl _
      | cons x p =>
        obtain ⟨h1, h2⟩ := h
        cases x
        · exact (hl h2 hu).trans h1.le
        · cases hu
  cases p with
  | nil => exact absurd rfl hp
  | cons x p =>
    cases t with
    | leaf i c => cases hu
    | node i l r =>
      obtain ⟨h1, h2, h3, h4⟩ := h
      cases x
      · exact (le h3 hu).trans_lt h1
      · exact (le h4 hu).trans_lt h2
    | wrap i l =>
      obtain ⟨h1, h2⟩ := h
      cases x
      · exact (le h2 hu).trans_lt h1
      · cases hu

/-- The arena index a bit of the payload leads to from an internal node, NIL where the tree ends (R31, R145). -/
theorem Shape.InNodes.childOf {node : Table NodeEntry 9} {u : Shape} (h : u.InNodes node) (hi : u.isLeaf = false)
    (b : Bool) :
    (∃ v, u.sub [b] = some v ∧ childOf (tableGet node u.root) b = v.root ∧ v.root ≠ nilIdx) ∨
      (u.sub [b] = none ∧ childOf (tableGet node u.root) b = nilIdx) := by
  cases u with
  | leaf i c => cases hi
  | node i l r =>
    obtain ⟨he, hl, hr, -, -⟩ := h
    cases b
    · exact .inl ⟨l, by simp [Shape.sub], by rw [Shape.root, he]; rfl, hl⟩
    · exact .inl ⟨r, by simp [Shape.sub], by rw [Shape.root, he]; rfl, hr⟩
  | wrap i l =>
    obtain ⟨he, hl, -⟩ := h
    cases b
    · exact .inl ⟨l, by simp [Shape.sub], by rw [Shape.root, he]; rfl, hl⟩
    · exact .inr ⟨rfl, by rw [Shape.root, he]; rfl⟩

theorem Shape.InNodes.leaf_eq {node : Table NodeEntry 9} {u : Shape} (h : u.InNodes node) :
    (tableGet node u.root).leaf = u.isLeaf := by
  cases u with
  | leaf i c => rw [Shape.root, show tableGet node i = leafNode c from h]; rfl
  | node i l r => rw [Shape.root, h.1]; rfl
  | wrap i l => rw [Shape.root, h.1]; rfl

/-! ### Decoding by the code of a tree -/

/-- The list holds the tree's code: the pairs of path and symbol (R148). -/
def IsCodeOf (code : List (List Bool × Byte)) (t : Shape) : Prop := ∀ x, x ∈ code ↔ x ∈ t.paths

section
variable {code : List (List Bool × Byte)} {t : Shape} (hc : IsCodeOf code t)
include hc

theorem decodeCode_of_leaf {pre : List Bool} {b : Bool} {bits : List Bool} {i : NodeIdx} {c : Byte}
    (h : t.sub (pre ++ [b]) = some (.leaf i c)) :
    decodeCode code pre (b :: bits) = (c :: (decodeCode code [] bits).1, (decodeCode code [] bits).2) := by
  have hmem : (pre ++ [b], c) ∈ code := (hc _).mpr ((t.mem_paths_iff _ c).mpr ⟨i, h⟩)
  cases hf : code.find? fun x => x.1 == pre ++ [b] with
  | none => simpa using List.find?_eq_none.mp hf _ hmem
  | some x =>
    have hx1 : x.1 = pre ++ [b] := by simpa using List.find?_some hf
    have hx2 : (pre ++ [b], x.2) ∈ t.paths := by rw [← hx1]; exact (hc _).mp (List.mem_of_find?_eq_some hf)
    obtain ⟨j, hj⟩ := (t.mem_paths_iff _ x.2).mp hx2
    rw [h] at hj
    cases hj
    simp only [decodeCode, hf]

theorem find_eq_none {p : List Bool} (h : ∀ i c, t.sub p ≠ some (.leaf i c)) :
    (code.find? fun x => x.1 == p) = none := by
  refine List.find?_eq_none.mpr fun x hx hp => ?_
  obtain ⟨i, hi⟩ := (t.mem_paths_iff x.1 x.2).mp ((hc x).mp hx)
  rw [beq_iff_eq.mp hp] at hi
  exact h i x.2 hi

theorem any_prefix_iff (p : List Bool) :
    (code.any fun x => p.isPrefixOf x.1) = true ↔ ∃ u, t.sub p = some u := by
  rw [← t.exists_prefix_iff, List.any_eq_true]
  simp only [List.isPrefixOf_iff_prefix, hc _]

theorem decodeCode_of_inner {pre : List Bool} {b : Bool} {bits : List Bool} {u : Shape}
    (h : t.sub (pre ++ [b]) = some u) (hi : u.isLeaf = false) :
    decodeCode code pre (b :: bits) = decodeCode code (pre ++ [b]) bits := by
  have hf : (code.find? fun x => x.1 == pre ++ [b]) = none := find_eq_none hc fun i c he => by
    rw [h] at he; cases he; cases hi
  simp only [decodeCode, hf, (any_prefix_iff hc (pre ++ [b])).mpr ⟨u, h⟩, if_true]

theorem decodeCode_of_none {pre : List Bool} {b : Bool} {bits : List Bool} (h : t.sub (pre ++ [b]) = none) :
    decodeCode code pre (b :: bits) = ([], .badPath) := by
  have hf : (code.find? fun x => x.1 == pre ++ [b]) = none := find_eq_none hc fun i c he => by rw [h] at he; cases he
  have ha : ¬ (code.any fun x => (pre ++ [b]).isPrefixOf x.1) = true := fun ha => by
    obtain ⟨u, hu⟩ := (any_prefix_iff hc _).mp ha
    rw [h] at hu; cases hu
  simp only [decodeCode, hf, if_neg ha]

/-- The rest of a symbol's code is decoded to the symbol. -/
theorem decodeCode_code (pre q bits : List Bool) {u : Shape} {i : NodeIdx} {c : Byte} (hu : t.sub pre = some u)
    (hq : u.sub q = some (.leaf i c)) (hne : q ≠ []) :
    decodeCode code pre (q ++ bits) = (c :: (decodeCode code [] bits).1, (decodeCode code [] bits).2) := by
  induction q generalizing pre u with
  | nil => exact absurd rfl hne
  | cons b q ih =>
    have hsub : t.sub (pre ++ [b]) = u.sub [b] := by rw [t.sub_append, hu]; rfl
    have hstep : u.sub (b :: q) = (u.sub [b]).bind fun v => v.sub q := u.sub_append [b] q
    rw [hq] at hstep
    obtain ⟨v, hv, hvq⟩ := Option.bind_eq_some_iff.mp hstep.symm
    rw [hv] at hsub
    by_cases hqn : q = []
    · subst hqn
      rw [Shape.sub_nil] at hvq
      cases hvq
      exact decodeCode_of_leaf hc hsub
    · have hi : v.isLeaf = false := by
        cases v with
        | leaf j d => cases q with
          | nil => exact absurd rfl hqn
          | cons x q => cases hvq
        | node j l r => rfl
        | wrap j l => rfl
      rw [List.cons_append, decodeCode_of_inner hc hsub hi]
      exact ih (pre ++ [b]) hsub hvq hqn

end

theorem mem_codeList_iff (ct : Table CtEntry 8) (p : List Bool) (b : Byte) :
    (p, b) ∈ codeList ct ↔ (tableGet ct b).valid = true ∧ codeBits (tableGet ct b) = p := by
  simp only [codeList, List.mem_filterMap, List.mem_range, Option.ite_none_right_eq_some, Option.some.injEq,
    Prod.mk.injEq]
  constructor
  · rintro ⟨i, -, hv, rfl, rfl⟩
    exact ⟨hv, rfl⟩
  · rintro ⟨hv, hb⟩
    exact ⟨b.toNat, b.isLt, by simpa using hv, by simpa using hb, by simp⟩

/-- The code table that CODES gives holds the tree's code (R122, R148). -/
theorem isCodeOf_codesOf {t : Shape} (hn : t.syms.Nodup) (hh : t.height ≤ 8) : IsCodeOf (codeList (codesOf t)) t := by
  rintro ⟨p, b⟩
  rw [mem_codeList_iff, valid_codesOf_iff hn]
  constructor
  · rintro ⟨hb, rfl⟩
    obtain ⟨q, hq⟩ := Shape.exists_path hb
    rwa [codeBits_codesOf hn hh hq]
  · exact fun hp => ⟨Shape.mem_syms_of_path hp, codeBits_codesOf hn hh hp⟩

/-- Decoding what was encoded gives the input back (R149). -/
theorem decodeCode_encodeBits {t : Shape} (hn : t.syms.Nodup) (hh : t.height ≤ 8) (hi : t.isLeaf = false)
    (bs : List Byte) (hb : ∀ b ∈ bs, b ∈ t.syms) :
    decodeCode (codeList (codesOf t)) [] (encodeBits (codesOf t) bs) = (bs, .complete) := by
  induction bs with
  | nil => rfl
  | cons b bs ih =>
    obtain ⟨p, hp⟩ := Shape.exists_path (hb b (by simp))
    obtain ⟨i, hpi⟩ := (t.mem_paths_iff p b).mp hp
    rw [encodeBits_cons, codeBits_codesOf hn hh hp,
      decodeCode_code (isCodeOf_codesOf hn hh) [] p _ t.sub_nil hpi (t.paths_ne_nil hi _ hp),
      ih fun c hc => hb c (by simp [hc])]

/-! ### The loop of WALK -/

/-- The payload's bits stand in IBUF (R16, R145). -/
def State.PayloadInside (s : State) : Prop := s.payBase.toNat + ceil8 s.decBits.toNat ≤ s.inCap

theorem State.PayloadInside.payOffset_lt {s : State} (h : s.PayloadInside) {k : Nat} (hk : k < s.decBits.toNat) :
    payOffset s k < s.inCap := by
  rw [State.PayloadInside, ceil8] at h
  rw [payOffset]
  omega

/-- The loop reads no byte beyond IBUF (log 11). -/
theorem walkLoop_ne_fault {s : State} (h : s.PayloadInside) (n : Nat) (w : Walker)
    (hn : w.bpos + n ≤ s.decBits.toNat) (f : Fault) : runTimes (walkBit s) n w ≠ .fault f := by
  induction n generalizing w with
  | zero => intro e; cases e
  | succ n ih =>
    have hoff := h.payOffset_lt (k := w.bpos) (by omega)
    rw [runTimes_succ]
    rcases walkBit_cases s w with ⟨hf, -⟩ | ⟨-, ⟨-, e⟩ | ⟨-, -, -, e⟩ | ⟨-, -, -, e⟩ | ⟨-, -, e⟩⟩
    · omega
    · rw [e]; intro he; cases he
    · rw [e]; intro he; cases he
    · rw [e]; exact ih _ (by simp only; omega)
    · rw [e]; exact ih _ (by simp only; omega)

/-- What the loop keeps whatever the tree is: the output fits, and no byte at or beyond it is written (R42). -/
structure WalkerOk (s : State) (w : Walker) : Prop where
  fits : w.opos ≤ s.outCap
  frame : ∀ a, w.opos ≤ a → memRead w.obuf a = memRead s.obuf a
  form : Memory.wf s.obuf = true → Memory.wf w.obuf = true
  below : memBelow s.outCap s.obuf = true → memBelow s.outCap w.obuf = true

theorem walkBit_ok_keeps {s : State} {w x : Walker} (hw : WalkerOk s w) (h : walkBit s w = .ok x) : WalkerOk s x := by
  rcases walkBit_cases s w with ⟨-, e⟩ | ⟨-, ⟨-, e⟩ | ⟨-, -, -, e⟩ | ⟨-, -, hlt, e⟩ | ⟨-, -, e⟩⟩ <;> rw [e] at h <;>
    cases h
  · refine ⟨hlt, fun a ha => ?_, fun hs => memWf_write _ _ _ (hw.form hs), fun hs =>
      memBelow_write _ _ _ _ (hw.below hs) hlt⟩
    simp only at ha
    rw [memRead_write_ne _ _ _ _ (by omega), hw.frame a (by omega)]
  · exact ⟨hw.fits, hw.frame, hw.form, hw.below⟩

theorem walkerOk_of_walkBits {s : State} {x : Walker} (h : walkBits s = .ok x) : WalkerOk s x := by
  have hstart : WalkerOk s (walkStart s) := ⟨Nat.zero_le _, fun _ _ => rfl, id, id⟩
  exact runTimes_ok_inv (P := WalkerOk s) (fun _ _ hw he => walkBit_ok_keeps hw he) hstart h

/-- The walk wrote these bytes from where it stood. -/
def Wrote (w x : Walker) (out : List Byte) : Prop :=
  x.obuf = memWriteList w.obuf w.opos out ∧ x.opos = w.opos + out.length

/-- The loop came to what the decoding came to (R148). -/
def WalkAgrees (s : State) (w : Walker) (r : List Byte × DecodeEnd) (run : Run Walker) : Prop :=
  (s.outCap < w.opos + r.1.length → ∃ info x, run = .raise .overflow info x) ∧
  (w.opos + r.1.length ≤ s.outCap →
    (r.2 = .badPath → ∃ info x, run = .raise .badpath info x) ∧
    (r.2 = .complete → ∃ x, run = .ok x ∧ x.cur = s.root ∧ Wrote w x r.1) ∧
    (r.2 = .incomplete → ∃ x, run = .ok x ∧ x.cur ≠ s.root ∧ Wrote w x r.1))

/-- One bit of WALK on an internal node of a tree: no edge, a leaf, or an internal node below (R145). -/
theorem walkBit_in_tree {s : State} {w : Walker} {u : Shape} (hoff : payOffset s w.bpos < s.inCap)
    (hu : u.InNodes s.node) (hcur : w.cur = u.root) (hi : u.isLeaf = false) :
    (u.sub [payBit s w.bpos] = none ∧ walkBit s w = .raise .badpath (BitVec.ofNat 32 w.bpos) w) ∨
    (∃ i c, u.sub [payBit s w.bpos] = some (.leaf i c) ∧
      ((s.outCap ≤ w.opos ∧ walkBit s w = .raise .overflow (BitVec.ofNat 32 w.bpos) w) ∨
        (w.opos < s.outCap ∧ walkBit s w = .ok ⟨s.root, w.bpos + 1, w.opos + 1, memWrite w.obuf w.opos c⟩))) ∨
    ∃ v, u.sub [payBit s w.bpos] = some v ∧ v.isLeaf = false ∧
      walkBit s w = .ok { w with cur := v.root, bpos := w.bpos + 1 } := by
  rcases hu.childOf hi (payBit s w.bpos) with ⟨v, hv, hchild, hnil⟩ | ⟨hv, hchild⟩ <;> rw [← hcur] at hchild <;>
    rcases walkBit_cases s w with ⟨hf, -⟩ | ⟨-, hcases⟩
  · omega
  · simp only [hchild, (hu.sub hv).leaf_eq] at hcases
    rcases hcases with ⟨hx, -⟩ | ⟨-, hleaf, hge, e⟩ | ⟨-, hleaf, hlt, e⟩ | ⟨-, hleaf, e⟩
    · exact absurd hx hnil
    · cases v with
      | leaf i c => exact .inr (.inl ⟨i, c, hv, .inl ⟨hge, e⟩⟩)
      | node i l r => cases hleaf
      | wrap i l => cases hleaf
    · cases v with
      | leaf i c =>
        rw [Shape.root_leaf, show tableGet s.node i = leafNode c from hu.sub hv] at e
        exact .inr (.inl ⟨i, c, hv, .inr ⟨hlt, e⟩⟩)
      | node i l r => cases hleaf
      | wrap i l => cases hleaf
    · exact .inr (.inr ⟨v, hv, hleaf, e⟩)
  · omega
  · simp only [hchild] at hcases
    rcases hcases with ⟨-, e⟩ | ⟨hx, -⟩ | ⟨hx, -⟩ | ⟨hx, -⟩
    · exact .inl ⟨hv, e⟩
    all_goals exact absurd rfl hx

section
variable {s : State} {syms : List Byte} {t : Shape} {code : List (List Bool × Byte)}
  (ht : TreeIn s.node s.root syms t) (hc : IsCodeOf code t) (hp : s.PayloadInside)
include ht hc hp

/-- The loop of R145 decodes as R148 does, from wherever it stands. -/
theorem walkLoop_agrees (n : Nat) (w : Walker) (pre : List Bool) (u : Shape) (hn : w.bpos + n ≤ s.decBits.toNat)
    (hu : t.sub pre = some u) (hcur : w.cur = u.root) (hi : u.isLeaf = false) (ho : w.opos ≤ s.outCap) :
    WalkAgrees s w (decodeCode code pre ((List.range' w.bpos n).map (payBit s))) (runTimes (walkBit s) n w) := by
  induction n generalizing w pre u with
  | zero =>
    cases pre with
    | nil =>
      rw [Shape.sub_nil] at hu
      cases hu
      exact ⟨fun hlt => absurd hlt (Nat.not_lt.mpr ho), fun _ => ⟨fun hb => (by cases hb),
        fun _ => ⟨w, rfl, hcur.trans ht.root_eq, rfl, rfl⟩, fun hb => (by cases hb)⟩⟩
    | cons b pre =>
      have hroot : w.cur ≠ s.root := fun he => by
        have hlt := ht.ordered.sub_lt (List.cons_ne_nil b pre) hu
        rw [← hcur, he, ht.root_eq] at hlt
        exact Nat.lt_irrefl _ hlt
      exact ⟨fun hlt => absurd hlt (Nat.not_lt.mpr ho), fun _ => ⟨fun hb => (by cases hb), fun hb => (by cases hb),
        fun _ => ⟨w, rfl, hroot, rfl, rfl⟩⟩⟩
  | succ n ih =>
    have hsub : t.sub (pre ++ [payBit s w.bpos]) = u.sub [payBit s w.bpos] := by rw [t.sub_append, hu]; rfl
    rw [List.range'_succ, List.map_cons, runTimes_succ]
    rcases walkBit_in_tree (hp.payOffset_lt (k := w.bpos) (by omega)) (ht.inNodes.sub hu) hcur hi with
      ⟨hv, e⟩ | ⟨i, c, hv, ⟨hge, e⟩ | ⟨hlt, e⟩⟩ | ⟨v, hv, hvi, e⟩ <;> rw [hv] at hsub
    · rw [decodeCode_of_none hc hsub, e, andThen_raise]
      exact ⟨fun hlt => absurd hlt (Nat.not_lt.mpr ho), fun _ => ⟨fun _ => ⟨_, _, rfl⟩, fun hb => (by cases hb),
        fun hb => (by cases hb)⟩⟩
    · rw [decodeCode_of_leaf hc hsub, e, andThen_raise]
      refine ⟨fun _ => ⟨_, _, rfl⟩, fun hle => ?_⟩
      rw [List.length_cons] at hle
      omega
    · rw [decodeCode_of_leaf hc hsub, e, andThen_ok]
      have hrec := ih ⟨s.root, w.bpos + 1, w.opos + 1, memWrite w.obuf w.opos c⟩ [] t
        (show w.bpos + 1 + n ≤ s.decBits.toNat by omega) t.sub_nil ht.root_eq.symm ht.inner hlt
      simp only [WalkAgrees, Wrote, List.length_cons, memWriteList] at hrec ⊢
      rwa [Nat.add_comm _ 1, ← Nat.add_assoc]
    · rw [decodeCode_of_inner hc hsub hvi, e, andThen_ok]
      exact ih { w with cur := v.root, bpos := w.bpos + 1 } _ v (show w.bpos + 1 + n ≤ s.decBits.toNat by omega) hsub rfl
        hvi ho

/-- WALK decodes the payload by the code of its tree (R148). -/
theorem walkBits_agrees : WalkAgrees s (walkStart s)
    (decodeCode code [] ((List.range s.decBits.toNat).map (payBit s))) (walkBits s) := by
  rw [List.range_eq_range']
  exact walkLoop_agrees ht hc hp _ (walkStart s) [] t (Nat.le_of_eq (Nat.zero_add _)) t.sub_nil ht.root_eq.symm ht.inner
    (Nat.zero_le _)

end

end Sys2Proof.Machine
end

section
/-! SUPPORT. The invariant in two halves: what it says of the capacities, the buffers, the flags and the tables, which
every command body keeps, and what it says of STATUS and of the sequencer (10_state.md R16, 60_exceptions.md R180). -/

namespace Sys2Proof.Machine

/-! ### FREQ -/

/-- The state after FREQ built its table (R101). -/
def freqed (s : State) (w : Work) : State :=
  { startFreq s with
    ft := tableOverlay s.ft (stableTable s.input), ftN := BitVec.ofNat 9 (stableTable s.input).length, ftV := true,
    work := w }

theorem bodyFreq_of_input {s : State} (h0 : s.inLen ≠ 0#32) (h1 : s.inLen.toNat ≤ s.inCap) :
    ∃ w, w.cmdl = s.work.cmdl ∧ bodyFreq s = .ok (freqed s w) := by
  rcases bodyFreq_cases s with ⟨hz, -⟩ | ⟨-, hlt, -⟩ | ⟨-, -, w, hw, hbody⟩
  · exact absurd hz h0
  · omega
  · rw [freqTable_eq_stableTable _ (by rw [input_length]; exact s.inLen.isLt)] at hbody
    exact ⟨w, hw, hbody⟩

theorem stableTable_length_le (bs : List Byte) : (stableTable bs).length ≤ 256 := by
  rw [stableTable_length]; exact eraseDups_length_le bs

theorem ftN_freqed (s : State) (w : Work) : (freqed s w).ftN.toNat = (stableTable s.input).length := by
  have := stableTable_length_le s.input
  show (BitVec.ofNat 9 (stableTable s.input).length).toNat = _
  rw [BitVec.toNat_ofNat, Nat.mod_eq_of_lt (by omega)]

theorem ftList_freqed (s : State) (w : Work) : (freqed s w).ftList = stableTable s.input := by
  rw [State.ftList, ftN_freqed]
  exact tableTake_overlay _ _ (stableTable_length_le s.input)

theorem input_ne_nil {s : State} (h0 : s.inLen ≠ 0#32) : s.input ≠ [] := by
  intro he
  have hl := input_length s
  rw [he] at hl
  exact h0 (BitVec.eq_of_toNat_eq hl.symm)

theorem tableOk_freqed {s : State} (h0 : s.inLen ≠ 0#32) (w : Work) : TableOk (freqed s w).ftList := by
  rw [ftList_freqed]
  exact stableTable_ok _ (input_ne_nil h0) (by rw [input_length]; exact s.inLen.isLt)

/-! ### The two halves -/

/-- The capacities, the buffers, the flags and what they promise (R6, R16, R41, R42). -/
structure State.DataInv (s : State) : Prop where
  inCapRange : 1 ≤ s.inCap ∧ s.inCap ≤ 2 ^ 28
  outCapRange : 1 ≤ s.outCap ∧ s.outCap ≤ 2 ^ 28
  ibufForm : Memory.wf s.ibuf = true ∧ memBelow s.inCap s.ibuf = true
  obufForm : Memory.wf s.obuf = true ∧ memBelow s.outCap s.obuf = true
  codesNeedTree : s.ctV = true → s.treeV = true
  treeNeedsTable : s.treeV = true → s.ftV = true
  payloadNeedsTable : s.payV = true → s.ftV = true
  tableCount : s.ftN.toNat ≤ 256 ∧ (s.ftV = false → s.ftN = 0#9)
  tableValid : s.ftV = true → TableOk s.ftList
  treeValid : s.treeV = true → s.treeMatches
  codesValid : s.ctV = true → buildCodes s.node s.root = .ok s.ct
  payloadInside : s.payV = true → s.PayloadInside
  outputInside : s.outLen.toNat ≤ s.outCap

/-- STATUS and the sequencer (R14, R40, R81, R176, R180). -/
structure State.StatusInv (s : State) : Prop where
  busyQuiet : s.busy = true → s.done = false ∧ s.error = false ∧ s.mid = false
  oneEnd : s.done = true → s.error = false
  errorCode : s.error = true ↔ s.err ≠ .none
  running : ∀ w, s.seq = some w → w ≠ 0#32 ∧ w ≠ 1#32 ∧ s.lastop = w.extractLsb' 0 8 ∧
    s.work.cmdl = w.getLsbD 8 ∧ 1 ≤ s.busycnt
  idle : s.seq = none → s.busycnt = 0

theorem State.inv_iff (s : State) : s.Inv ↔ s.DataInv ∧ s.StatusInv := by
  constructor
  · intro h
    exact ⟨⟨h.inCapRange, h.outCapRange, h.ibufForm, h.obufForm, h.codesNeedTree, h.treeNeedsTable, h.payloadNeedsTable,
      h.tableCount, h.tableValid, h.treeValid, h.codesValid, h.payloadInside, h.outputInside⟩,
      ⟨h.busyQuiet, h.oneEnd, h.errorCode, h.running, h.idle⟩⟩
  · rintro ⟨d, c⟩
    exact ⟨d.inCapRange, d.outCapRange, d.ibufForm, d.obufForm, d.codesNeedTree, d.treeNeedsTable, d.payloadNeedsTable,
      d.tableCount, d.tableValid, d.treeValid, d.codesValid, d.payloadInside, d.outputInside, c.busyQuiet, c.oneEnd,
      c.errorCode, c.running, c.idle⟩

theorem State.DataInv.exists_treeIn {s : State} (h : s.DataInv) (ht : s.treeV = true) :
    ∃ t, TreeIn s.node s.root s.symbols t :=
  (h.treeValid ht).exists_treeIn (h.tableValid (h.treeNeedsTable ht))

theorem State.DataInv.symbols_nodup {s : State} (h : s.DataInv) (hv : s.ftV = true) : s.symbols.Nodup :=
  (h.tableValid hv).distinct

theorem TableOk.ftN_pos {s : State} (ht : TableOk s.ftList) (hn : s.ftN.toNat ≤ 256) : 1 ≤ s.ftN.toNat := by
  rw [← ftList_length hn]; exact ht.size.1

/-! ### A body that keeps the first half -/

/-- The body has a meaning, and its end, with a named code where it raises, keeps a property. -/
def Run.Ends {σ : Type} (P : σ → Prop) : Run σ → Prop
  | .ok t => P t
  | .raise e _ t => e ≠ .none ∧ P t
  | .fault _ => False

theorem Run.Ends.andThen {σ : Type} {P : σ → Prop} {r : Run σ} {f : σ → Run σ} (h : r.Ends P)
    (hf : ∀ t, P t → (f t).Ends P) : (r.andThen f).Ends P := by
  cases r with
  | ok t => exact hf t h
  | raise e i t => exact h
  | fault x => exact h

theorem State.DataInv.havoc {s : State} (h : s.DataInv) : (havocObuf s).DataInv := { h with obufForm := ⟨rfl, rfl⟩ }

theorem Run.Ends.spoil {r : Run State} (h : r.Ends State.DataInv) : (spoilOnRaise r).Ends State.DataInv := by
  cases r with
  | ok t => exact h
  | raise e i t => exact ⟨h.1, h.2.havoc⟩
  | fault x => exact h

/-- A state without valid tables and with the capacities and buffers of another. -/
theorem State.DataInv.cleared {s t : State} (h : s.DataInv) (hi : t.inCap = s.inCap) (ho : t.outCap = s.outCap)
    (hib : t.ibuf = s.ibuf) (hob : Memory.wf t.obuf = true ∧ memBelow s.outCap t.obuf = true) (hft : t.ftV = false)
    (htree : t.treeV = false) (hct : t.ctV = false) (hpay : t.payV = false) (hn : t.ftN = 0#9)
    (hl : t.outLen.toNat ≤ s.outCap) : t.DataInv where
  inCapRange := hi ▸ h.inCapRange
  outCapRange := ho ▸ h.outCapRange
  ibufForm := by rw [hib, hi]; exact h.ibufForm
  obufForm := by rw [ho]; exact hob
  codesNeedTree hv := by rw [hct] at hv; cases hv
  treeNeedsTable hv := by rw [htree] at hv; cases hv
  payloadNeedsTable hv := by rw [hpay] at hv; cases hv
  tableCount := by rw [hn]; exact ⟨Nat.zero_le _, fun _ => rfl⟩
  tableValid hv := by rw [hft] at hv; cases hv
  treeValid hv := by rw [htree] at hv; cases hv
  codesValid hv := by rw [hct] at hv; cases hv
  payloadInside hv := by rw [hpay] at hv; cases hv
  outputInside := by rw [ho]; exact hl

section
variable {s : State} (h : s.DataInv)
include h

theorem dataInv_startFreq : (startFreq s).DataInv :=
  h.cleared rfl rfl rfl h.obufForm rfl rfl rfl rfl rfl h.outputInside

theorem bodyFreq_ends : (bodyFreq s).Ends State.DataInv := by
  rcases bodyFreq_cases s with ⟨-, hb⟩ | ⟨-, -, hb⟩ | ⟨h0, h1, -⟩
  · rw [hb]; exact ⟨by decide, dataInv_startFreq h⟩
  · rw [hb]; exact ⟨by decide, dataInv_startFreq h⟩
  · obtain ⟨w, -, hb⟩ := bodyFreq_of_input h0 h1
    rw [hb]
    exact { dataInv_startFreq h with
      payloadNeedsTable := fun _ => rfl
      treeNeedsTable := fun _ => rfl
      tableCount := ⟨by rw [ftN_freqed]; exact stableTable_length_le _, fun hv => by cases hv⟩
      tableValid := fun _ => tableOk_freqed h0 w
      treeValid := fun hv => by cases hv }

theorem bodyTree_ends : (bodyTree s).Ends State.DataInv := by
  cases hv : s.ftV with
  | false =>
    rcases bodyTree_cases s with ⟨-, hb⟩ | ⟨hf, -⟩ | ⟨hf, -⟩ | ⟨hf, -⟩
    · rw [hb]; exact ⟨by decide, h⟩
    all_goals cases hv.symm.trans hf
  | true =>
    obtain ⟨b, t, w, hbt, -, hb⟩ := bodyTree_of_table hv ((h.tableValid hv).ftN_pos h.tableCount.1) h.tableCount.1
    rw [hb]
    exact { h with
      codesNeedTree := fun hc => by cases hc
      treeNeedsTable := fun _ => hv
      treeValid := fun _ => hbt.treeMatches_treed w
      codesValid := fun hc => by cases hc }

theorem bodyCodes_ends : (bodyCodes s).Ends State.DataInv := by
  cases hv : s.treeV with
  | false =>
    rcases bodyCodes_cases s with ⟨-, hb⟩ | ⟨hf, -⟩ | ⟨hf, -⟩ | ⟨hf, -⟩
    · rw [hb]; exact ⟨by decide, h⟩
    all_goals cases hv.symm.trans hf
  | true =>
    obtain ⟨t, ht⟩ := h.exists_treeIn hv
    have hn := h.symbols_nodup (h.treeNeedsTable hv)
    obtain ⟨w, -, hb⟩ := bodyCodes_of_tree hv ht hn
    rw [hb]
    exact { h with
      codesNeedTree := fun _ => hv
      codesValid := fun _ => ht.buildCodes hn }

theorem toNat_envSize_le {n : Nat} (hn : n ≤ s.outCap) : (BitVec.ofNat 32 n).toNat = n := by
  have := h.outCapRange.2
  rw [BitVec.toNat_ofNat, Nat.mod_eq_of_lt (by omega)]

theorem bodyPack_ends : (bodyPack s).Ends State.DataInv := by
  rcases bodyPack_cases s with ⟨-, hb⟩ | ⟨-, -, hb⟩ | ⟨-, -, hgt, -⟩ | ⟨-, -, -, e, i, w, he, -, hb⟩ |
    ⟨-, -, -, -, p, w, -, -, hb⟩
  · rw [hb]; exact ⟨by decide, h⟩
  · rw [hb]; exact ⟨by decide, { h with obufForm := ⟨rfl, rfl⟩, outputInside := Nat.zero_le _ }⟩
  · have := h.tableCount.1; omega
  · rw [hb]
    exact ⟨by rcases he with rfl | rfl <;> decide, { h with obufForm := ⟨rfl, rfl⟩, outputInside := Nat.zero_le _ }⟩
  · obtain ⟨-, hp, w', -, hu⟩ := of_bodyPack_ok hb
    rw [hb, hu]
    have hsize := hp.size
    have hlen := toNat_envSize_le h hsize
    rw [← ftList_length hp.table] at hsize
    exact { h with
      obufForm := ⟨memWf_packedMem _ _ h.obufForm.1, memBelow_packedMem h.obufForm.2 hsize⟩
      outputInside := hlen.trans_le hp.size }

theorem dataInv_startLoad : (startLoad s).DataInv :=
  h.cleared rfl rfl rfl h.obufForm rfl rfl rfl rfl rfl h.outputInside

theorem bodyLoad_ends : (bodyLoad s).Ends State.DataInv := by
  rcases bodyLoad_cases s with ⟨-, hb⟩ | ⟨-, i, f, hb⟩ | ⟨-, n, t, b, w, -, -, -, -, -, -, -, -, hb⟩
  · rw [hb]; exact ⟨by decide, dataInv_startLoad h⟩
  · rw [hb]
    exact ⟨by decide, h.cleared rfl rfl rfl h.obufForm rfl rfl rfl rfl rfl h.outputInside⟩
  · obtain ⟨hl, hu⟩ := of_bodyLoad_ok hb
    rw [hb, hu]
    exact { dataInv_startLoad h with
      payloadNeedsTable := fun _ => rfl
      treeNeedsTable := fun _ => rfl
      tableCount := ⟨by rw [ftN_loaded hl]; exact hl.count.2, fun hv => by cases hv⟩
      tableValid := fun _ => tableOk_loaded hl _
      treeValid := fun hv => by cases hv
      payloadInside := fun _ => (payload_loaded hl _).trans_le hl.input }

theorem bodyWalk_ends (l : Bool) : (bodyWalk l s).Ends State.DataInv := by
  have hraise : ∀ w, State.DataInv { havocObuf (startWalk s) with work := w } := fun w =>
    { h with obufForm := ⟨rfl, rfl⟩, outputInside := Nat.zero_le _ }
  rcases bodyWalk_cases l s with ⟨-, hb⟩ | ⟨-, -, e, i, x, w, -, he, -, hb⟩ | ⟨-, hpay, a, -, hf, -⟩ |
    ⟨-, -, x, w, -, -, -, -, hb⟩ | ⟨-, -, x, w, hx, -, -, hb⟩
  · rw [hb]; exact ⟨by decide, h⟩
  · rw [hb]; exact ⟨by rcases he with rfl | rfl <;> decide, hraise w⟩
  · exact absurd hf (walkLoop_ne_fault (s := startWalk s) (h.payloadInside hpay) _ _ (Nat.le_of_eq (Nat.zero_add _)) _)
  · rw [hb]; exact ⟨by decide, hraise w⟩
  · rw [hb]
    have hok := walkerOk_of_walkBits hx
    have hlen := toNat_envSize_le h (n := x.opos) hok.fits
    exact { h with
      obufForm := ⟨hok.form h.obufForm.1, hok.below h.obufForm.2⟩
      outputInside := hlen.trans_le hok.fits }

/-- Every command body has a meaning on a state of the invariant and keeps its first half (R16). -/
theorem bodyOf_ends (i : Instr) : (bodyOf i s).Ends State.DataInv := by
  cases i with
  | nop => exact h
  | clear => exact h
  | freq => exact bodyFreq_ends h
  | tree => exact bodyTree_ends h
  | codes => exact bodyCodes_ends h
  | pack => exact bodyPack_ends h
  | load => exact bodyLoad_ends h
  | walk l => exact bodyWalk_ends h l
  | compress =>
    exact (((bodyFreq_ends h).andThen fun _ ht => bodyTree_ends ht).andThen fun _ ht => bodyCodes_ends ht).spoil.andThen
      fun _ ht => bodyPack_ends ht
  | decompress l =>
    exact ((bodyLoad_ends h).andThen fun _ ht => bodyTree_ends ht).spoil.andThen fun _ ht => bodyWalk_ends ht l

end

theorem State.DataInv.succeed {s : State} (h : s.DataInv) : (succeed s).DataInv := { h with }

theorem State.DataInv.errorEntry {s : State} (h : s.DataInv) (e : ErrCode) (i : Word) : (errorEntry e i s).DataInv :=
  { h with outputInside := Nat.zero_le _ }

/-- How a command the engine completes ends (R83, R176). -/
structure Ended (s t : State) : Prop where
  data : t.DataInv
  seq : t.seq = none
  busycnt : t.busycnt = 0
  outcome : (t.done = true ∧ t.error = s.error ∧ t.err = s.err) ∨
    (t.done = false ∧ t.error = true ∧ t.err ≠ .none ∧ t.outLen = 0#32)

theorem exec_ended {i : Instr} {s : State} (h0 : i ≠ .nop) (h1 : i ≠ .clear) (h : s.DataInv) :
    ∃ t, exec i s = .next t ∧ Ended s t := by
  have hends := bodyOf_ends h i
  have hsame := bodyOf_same i s
  rw [exec_eq_settle i s h0 h1]
  cases hr : bodyOf i s with
  | ok u =>
    rw [hr] at hends hsame
    obtain ⟨-, herror, herr, -⟩ := hsame.status
    exact ⟨_, settle_ok u, hends.succeed, rfl, rfl, .inl ⟨rfl, herror, herr⟩⟩
  | raise e info u =>
    rw [hr] at hends
    exact ⟨_, settle_raise e info u, hends.2.errorEntry e info, rfl, rfl, .inr ⟨rfl, rfl, hends.1, rfl⟩⟩
  | fault f =>
    rw [hr] at hends
    exact hends.elim

/-- The end of a command meets the second half of the invariant, if the state before had no error. -/
theorem Ended.statusInv {s t : State} (h : Ended s t) (herror : s.error = false) (herr : s.err = .none) :
    t.StatusInv := by
  have hb : t.busy = false := by rw [State.busy, h.seq]; rfl
  refine ⟨fun hbusy => ?_, fun hd => ?_, ?_, fun w hw => ?_, fun _ => h.busycnt⟩
  · rw [hb] at hbusy; cases hbusy
  · rcases h.outcome with ⟨-, he, -⟩ | ⟨hd', -⟩
    · exact he.trans herror
    · rw [hd'] at hd; cases hd
  · rcases h.outcome with ⟨-, he, hcode⟩ | ⟨-, he, hcode, -⟩
    · rw [he, hcode, herror, herr]; simp
    · rw [he]; simp [hcode]
  · rw [h.seq] at hw; cases hw

end Sys2Proof.Machine
end

section
/-! SUPPORT. The cycle keeps the invariant and always has a next state: the host's part, the engine's part, the reset
(10_state.md R16, 70_reset_and_hazards.md R200, R217, R219). -/

namespace Sys2Proof.Machine

/-! ### The host's part -/

/-- An access to a register but CMD that keeps the first half of the invariant: all it writes of it is one byte of
IBUF. -/
theorem State.DataInv.of_accessSame {s t : State} (h : s.DataInv) (hs : AccessSame s t)
    (hib : Memory.wf t.ibuf = true ∧ memBelow t.inCap t.ibuf = true) : t.DataInv := by
  obtain ⟨hic, hoc⟩ := hs.caps
  obtain ⟨hob, -⟩ := hs.obuf
  obtain ⟨hft, hnode, hct⟩ := hs.results.tables
  have hlist : t.ftList = s.ftList := by rw [State.ftList, State.ftList, hft, hs.results.ftN]
  have hsym : t.symbols = s.symbols := congrArg (List.map FtEntry.sym) hlist
  refine ⟨hic ▸ h.inCapRange, hoc ▸ h.outCapRange, hib, by rw [hob, hoc]; exact h.obufForm, ?_, ?_, ?_, ?_, ?_, ?_, ?_, ?_,
    ?_⟩
  · rw [hs.results.ctV, hs.results.treeV]; exact h.codesNeedTree
  · rw [hs.results.treeV, hs.results.ftV]; exact h.treeNeedsTable
  · rw [hs.results.payV, hs.results.ftV]; exact h.payloadNeedsTable
  · rw [hs.results.ftN, hs.results.ftV]; exact h.tableCount
  · rw [hs.results.ftV, hlist]; exact h.tableValid
  · rw [hs.results.treeV, State.treeMatches, hsym, hnode, hs.results.nodeN, hs.results.root]; exact h.treeValid
  · rw [hs.results.ctV, hnode, hs.results.root, hct]; exact h.codesValid
  · rw [hs.results.payV, State.PayloadInside, hs.results.payBase, hs.results.decBits, hic]; exact h.payloadInside
  · rw [hs.results.outLen, hoc]; exact h.outputInside

/-- An access that leaves DONE alone or clears it keeps the second half. -/
theorem State.StatusInv.of_accessSame {s t : State} (h : s.StatusInv) (hs : AccessSame s t)
    (hd : t.done = true → s.done = true) : t.StatusInv := by
  obtain ⟨hseq, hcnt, hwork⟩ := hs.engine
  obtain ⟨herror, herr⟩ := hs.error
  obtain ⟨hmid, hlastop⟩ := hs.command
  have hbusy : t.busy = s.busy := congrArg Option.isSome hseq
  refine ⟨fun hb => ?_, fun ht => herror.trans (h.oneEnd (hd ht)), by rw [herror, herr]; exact h.errorCode, ?_, ?_⟩
  · obtain ⟨hdone, he, hm⟩ := h.busyQuiet (hbusy ▸ hb)
    refine ⟨Bool.eq_false_iff.mpr fun ht => ?_, herror.trans he, hmid.trans hm⟩
    cases hdone.symm.trans (hd ht)
  · rw [hseq, hcnt, hwork, hlastop]; exact h.running
  · rw [hseq, hcnt]; exact h.idle

theorem readReg_inv (r : Reg) {s : State} (h : s.Inv) (a : Resp) : (answer a (readReg r s).2).Inv := by
  obtain ⟨hd, hs⟩ := s.inv_iff.mp h
  have hf := (readReg_frame r s).mono a id id id id id id id
  refine (State.inv_iff _).mpr ⟨hd.of_accessSame hf.same ?_, hs.of_accessSame hf.same fun ht => hf.done id ▸ ht⟩
  rw [hf.ibuf id, hf.same.caps.1]
  exact hd.ibufForm

/-- The memory of IBUF stays in form under every write of the host (R41, R58). -/
theorem writeReg_ibufForm (r : Reg) (w : Word) {s : State}
    (h : Memory.wf s.ibuf = true ∧ memBelow s.inCap s.ibuf = true) :
    Memory.wf (writeReg r w s).2.ibuf = true ∧ memBelow (writeReg r w s).2.inCap (writeReg r w s).2.ibuf = true := by
  cases r
  case idata =>
    rcases Nat.lt_or_ge s.iptr.toNat s.inCap with hlt | hge
    · rw [writeReg, writeIdata_of_lt w hlt]
      exact ⟨memWf_write _ _ _ h.1, memBelow_write _ _ _ _ h.2 hlt⟩
    · rw [writeReg, writeIdata_of_le w hge]
      exact h
  all_goals exact h

theorem writeReg_inv (r : Reg) (w : Word) {s : State} (h : s.Inv) (a : Resp) : (answer a (writeReg r w s).2).Inv := by
  obtain ⟨hd, hs⟩ := s.inv_iff.mp h
  have hf := (writeReg_frame r w s).mono a id id id id id id id
  refine (State.inv_iff _).mpr ⟨hd.of_accessSame hf.same (writeReg_ibufForm r w hd.ibufForm),
    hs.of_accessSame hf.same fun ht => ?_⟩
  by_cases hr : r = .status
  · subst hr
    exact (Bool.and_eq_true_iff.mp ht).1
  · exact hf.done hr ▸ ht

/-- A write to CMD in the idle block keeps the invariant: NOP, CLEAR, a refusal or an acceptance (R80). -/
theorem writeCmd_inv {w : Word} {s t : State} (h : s.Inv) (hb : s.busy = false) (ht : writeCmd w s = .next t) :
    t.Inv := by
  have hseq : s.seq = none := Option.isNone_iff_eq_none.mp (by simpa [State.busy] using hb)
  obtain ⟨hd, hs⟩ := s.inv_iff.mp h
  rcases writeCmd_cases w s with ⟨rfl, -⟩ | ⟨rfl, -⟩ | ⟨-, -, -, e⟩ | ⟨h0, h1, herr, e⟩
  · rw [writeCmd_nop hb] at ht
    cases ht
    exact { h with }
  · rw [writeCmd_clear hb] at ht
    cases ht
    refine (State.inv_iff _).mpr ⟨hd.cleared rfl rfl rfl hd.obufForm rfl rfl rfl rfl rfl (Nat.zero_le _), ?_⟩
    exact ⟨fun hx => absurd hx (by simp [hb]), (fun hx => by cases hx), by simp, fun w hw => absurd hw (by simp [hseq]), hs.idle⟩
  · rw [e] at ht
    cases ht
    exact { h with }
  · rw [e] at ht
    cases ht
    refine (State.inv_iff _).mpr ⟨{ hd with }, fun _ => ⟨rfl, herr, rfl⟩, (fun hx => by cases hx), hs.errorCode, ?_, ?_⟩
    · intro v hv
      cases hv
      exact ⟨h0, h1, rfl, rfl, Nat.le_add_left 1 _⟩
    · intro hv; cases hv

theorem portTxn_inv {x : Txn} {s t : State} (h : s.Inv) (ht : portTxn x s = .next t) : t.Inv := by
  rcases portTxn_cases x s with ⟨-, e⟩ | ⟨-, -, -, -, e⟩ | ⟨r, -, -, -, -, e⟩ | ⟨r, -, w, -, -, -, -, e⟩ |
    ⟨-, w, -, -, hb, e⟩ <;> rw [e] at ht
  · cases ht; exact { h with }
  · cases ht; exact { h with }
  · cases ht; exact readReg_inv r h _
  · cases ht; exact writeReg_inv r w h _
  · exact writeCmd_inv h hb ht

theorem portCycle_inv {req : Option Txn} {s t : State} (h : s.Inv) (ht : portCycle req s = .next t) : t.Inv := by
  cases req with
  | none => cases ht; exact { h with }
  | some x => exact portTxn_inv h ht

/-! ### The engine's part -/

/-- The completion step of a latched word, legal or not, has a next state in the invariant (R83, R86, R219). -/
theorem completeCmd_ended {s : State} (h : s.Inv) (hb : s.busy = true) :
    ∃ t, completeCmd s = .next t ∧ Ended s t := by
  obtain ⟨hd, hs⟩ := s.inv_iff.mp h
  obtain ⟨w, hw⟩ := Option.isSome_iff_exists.mp hb
  obtain ⟨h0, h1, -, -, -⟩ := hs.running w hw
  cases hdec : decode w with
  | ok i =>
    rw [completeCmd_legal hw hdec]
    have hi := encode_of_decode hdec
    exact exec_ended (fun e => h0 (by rw [← hi, e]; rfl)) (fun e => h1 (by rw [← hi, e]; rfl)) hd
  | error x =>
    exact ⟨_, completeCmd_illegal hw hdec, hd.errorEntry _ _, rfl, rfl, .inr ⟨rfl, rfl, by simp, rfl⟩⟩

theorem Ended.busy {s t : State} (h : Ended s t) : t.busy = false := congrArg Option.isSome h.seq

theorem Ended.inv {s t : State} (h : Ended s t) (hs : s.Inv) (hb : s.busy = true) : t.Inv := by
  obtain ⟨-, herror, -⟩ := hs.busyQuiet hb
  have herr : s.err = .none := by
    by_contra hne
    cases herror.symm.trans (hs.errorCode.mpr hne)
  exact (State.inv_iff t).mpr ⟨h.data, h.statusInv herror herr⟩

/-- The engine's part of a cycle of the busy block: it counts, or the command ends (R83). -/
theorem engineTick_cases {s : State} (h : s.Inv) (hb : s.busy = true) :
    (2 ≤ s.busycnt ∧ engineTick s = .next { s with busycnt := s.busycnt - 1 }) ∨
      (s.busycnt = 1 ∧ ∃ t, engineTick s = .next t ∧ Ended s t) := by
  obtain ⟨w, hw⟩ := Option.isSome_iff_exists.mp hb
  obtain ⟨-, -, -, -, hpos⟩ := h.running w hw
  by_cases h2 : 2 ≤ s.busycnt
  · exact .inl ⟨h2, engineTick_counts h2⟩
  · rw [engineTick_completes (by omega)]
    exact .inr ⟨by omega, completeCmd_ended h hb⟩

theorem inv_count {s : State} (h : s.Inv) (h2 : 2 ≤ s.busycnt) : State.Inv { s with busycnt := s.busycnt - 1 } :=
  { h with
    running := fun w hw => by
      obtain ⟨h0, h1, hl, hc, -⟩ := h.running w hw
      exact ⟨h0, h1, hl, hc, show 1 ≤ s.busycnt - 1 by omega⟩
    idle := fun hseq => by have := h.idle hseq; omega }

theorem engineTick_inv {s t : State} (h : s.Inv) (hb : s.busy = true) (ht : engineTick s = .next t) : t.Inv := by
  rcases engineTick_cases h hb with ⟨h2, e⟩ | ⟨-, u, e, hu⟩ <;> rw [e] at ht <;> cases ht
  · exact inv_count h h2
  · exact hu.inv h hb

/-! ### The reset -/

theorem inv_resetCycle (req : Option Txn) {s : State} (h : s.Inv) : (resetCycle req s).Inv := by
  obtain ⟨hd, -⟩ := s.inv_iff.mp h
  obtain ⟨hic, hoc, hib, -⟩ := resetRegs_kept s
  have hob : Memory.wf (resetRegs s).obuf = true ∧ memBelow s.outCap (resetRegs s).obuf = true := by
    rw [resetRegs]
    cases s.obufAtRisk
    · exact hd.obufForm
    · exact ⟨rfl, rfl⟩
  have hd' : (resetCycle req s).DataInv := hd.cleared hic hoc hib hob rfl rfl rfl rfl rfl (Nat.zero_le _)
  refine (State.inv_iff _).mpr ⟨hd', ⟨fun hb => ?_, fun _ => rfl, ?_, fun w hw => ?_, fun _ => rfl⟩⟩
  · cases hb
  · show false = true ↔ ErrCode.none ≠ .none
    decide
  · cases hw

/-! ### A step -/

theorem inv_withScript {s : State} (h : s.Inv) (l : List HostAct) : State.Inv { s with script := l } := { h with }

/-- The host's part of a cycle of the busy block does not reach the engine, the script or STATUS.ERROR. -/
theorem portCycle_busy_same {req : Option Txn} {s t : State} (hb : s.busy = true) (h : portCycle req s = .next t) :
    t.busy = true ∧ t.busycnt = s.busycnt ∧ t.script = s.script := by
  obtain ⟨r, u, rfl, rfl | ⟨-, rfl⟩ | ⟨v, -, rfl⟩ | ⟨v, -, rfl⟩⟩ := portCycle_busy_cases hb h <;> exact ⟨hb, rfl, rfl⟩

/-- A step is a reset, the host's part alone in the idle block, or the host's part and the engine's (R216). -/
theorem step_cases (s : State) :
    (∃ x k, s.script = .rst x :: k ∧ step s = .next (resetCycle x { s with script := k })) ∨
    ∃ s1, portCycle (nextInput s).1.req { s with script := (nextInput s).2 } = .next s1 ∧
      (s.busy = false ∧ step s = .next s1 ∨ s.busy = true ∧ s1.busy = true ∧ step s = engineTick s1) := by
  by_cases hr : ∃ x k, s.script = .rst x :: k
  · obtain ⟨x, k, hs⟩ := hr
    exact .inl ⟨x, k, hs, step_of_rst hs⟩
  have hr' : ∀ x k, s.script ≠ .rst x :: k := fun x k hs => hr ⟨x, k, hs⟩
  cases hb : s.busy with
  | false =>
    obtain ⟨s1, h1⟩ := portCycle_next (nextInput s).1.req { s with script := (nextInput s).2 }
    exact .inr ⟨s1, h1, .inl ⟨rfl, (step_of_idle hb hr').trans h1⟩⟩
  | true =>
    obtain ⟨s1, h1, hstep⟩ := step_of_busy hb hr'
    exact .inr ⟨s1, h1, .inr ⟨rfl, (portCycle_busy_same (s := { s with script := (nextInput s).2 }) hb h1).1, hstep⟩⟩

/-- One step of a run. -/
theorem run_succ {s t : State} (n : Nat) (h : step s = .next t) :
    Sys2Proof.core.run (n + 1) s = Sys2Proof.core.run n t := by
  simp only [Host.Core.run, Sys2Proof.core, h]

/-- The script only loses actions (R95). -/
theorem nextInput_script_subset (s : State) : (nextInput s).2 ⊆ s.script := by
  rw [nextInput]
  split <;> rename_i hs <;> rw [hs] <;> intro a ha
  · exact ha
  · exact List.mem_cons_of_mem _ ha
  · exact List.mem_cons_of_mem _ ha
  · exact List.mem_cons_of_mem _ ha
  · simp only at ha
    split at ha
    · exact ha
    · exact List.mem_cons_of_mem _ ha

/-- An accepted command runs down its count and ends, unless the host resets the block (R217, R220). -/
theorem run_busycnt_ended (n : Nat) (s : State) (hn : s.busycnt = n) (h : s.Inv) (hb : s.busy = true)
    (hr : ∀ a, a ∈ s.script → ∀ x, a ≠ .rst x) :
    ∃ s' t, s'.Inv ∧ s'.busy = true ∧ Sys2Proof.core.run n s = .next t ∧ Ended s' t := by
  induction n generalizing s with
  | zero =>
    obtain ⟨w, hw⟩ := Option.isSome_iff_exists.mp hb
    obtain ⟨-, -, -, -, hpos⟩ := h.running w hw
    omega
  | succ n ih =>
    have hhead : ∀ x k, s.script ≠ .rst x :: k := fun x k hs => hr (.rst x) (by simp [hs]) x rfl
    obtain ⟨s1, hport, hstep⟩ := step_of_busy hb hhead
    obtain ⟨hb1, hcnt1, hscript1⟩ := portCycle_busy_same (s := { s with script := (nextInput s).2 }) hb hport
    have hcnt1 : s1.busycnt = n + 1 := hcnt1.trans hn
    have hscript1' : s1.script = (nextInput s).2 := hscript1
    have h1 : s1.Inv := portCycle_inv (inv_withScript h _) hport
    rcases engineTick_cases h1 hb1 with ⟨h2, e⟩ | ⟨hone, t, e, ht⟩
    · rw [run_succ n (hstep.trans e)]
      refine ih _ ?_ (inv_count h1 h2) hb1 fun a ha => hr a (nextInput_script_subset s ?_)
      · show s1.busycnt - 1 = n
        omega
      · rw [← hscript1']
        exact ha
    · obtain rfl : n = 0 := by omega
      exact ⟨s1, t, h1, hb1, run_succ 0 (hstep.trans e), ht⟩

end Sys2Proof.Machine
end

section
/-! PROOFS. The invariant, progress and completion (10_state.md R16, 70_reset_and_hazards.md R217, R219, R220). -/

namespace Sys2Proof.Machine

/-- Settles O58: a reset, the host's part and the engine's part each keep the invariant. -/
theorem stepKeepsInvariant : Obligations.StepKeepsInvariant := by
  intro s t h ht
  rcases step_cases s with ⟨x, k, -, e⟩ | ⟨s1, hport, ⟨-, e⟩ | ⟨-, hb1, e⟩⟩
  · rw [e] at ht
    cases ht
    exact inv_resetCycle x (inv_withScript h k)
  · rw [e] at ht
    cases ht
    exact portCycle_inv (inv_withScript h _) hport
  · exact engineTick_inv (portCycle_inv (inv_withScript h _) hport) hb1 (e ▸ ht)

/-- Settles O59: the host's part always has a next state, and the engine's has one on a state of the invariant. -/
theorem noStateIsStuck : Obligations.NoStateIsStuck := by
  intro s h
  rcases step_cases s with ⟨x, k, -, e⟩ | ⟨s1, hport, ⟨-, e⟩ | ⟨-, hb1, e⟩⟩
  · exact ⟨_, e⟩
  · exact ⟨_, e⟩
  · rcases engineTick_cases (portCycle_inv (inv_withScript h _) hport) hb1 with ⟨-, e'⟩ | ⟨-, t, e', -⟩
    · exact ⟨_, e.trans e'⟩
    · exact ⟨t, e.trans e'⟩

/-- Settles O60: by induction on BUSYCNT. -/
theorem acceptedCommandCompletes : Obligations.AcceptedCommandCompletes := by
  intro s h hb hr
  obtain ⟨s', t, h', hb', hrun, ht⟩ := run_busycnt_ended s.busycnt s rfl h hb hr
  obtain ⟨-, herror, -⟩ := h'.busyQuiet hb'
  refine ⟨t, hrun, ht.busy, ?_⟩
  rcases ht.outcome with ⟨hd, he, -⟩ | ⟨hd, he, -, -⟩
  · rw [hd, he, herror]; rfl
  · rw [hd, he]; rfl

/-- Settles O29: the end of the body, which has a meaning on every state of the invariant. -/
theorem everyCommandCompletes : Obligations.EveryCommandCompletes := by
  intro i s h herror h0 h1
  obtain ⟨t, ht, hend⟩ := exec_ended h0 h1 (s.inv_iff.mp h).1
  refine ⟨t, ht, hend.busy, hend.busycnt, ?_⟩
  rcases hend.outcome with ⟨hd, he, herr⟩ | hbad
  · exact .inl ⟨hd, he.trans herror, herr⟩
  · exact .inr hbad

/-- Settles O55: DONE or ERROR alone drives the output after a command, and neither after CLEAR. -/
theorem interruptFollowsCompletion : Obligations.InterruptFollowsCompletion := by
  refine ⟨fun i s t h herror h0 h1 ht => ?_, fun s t hb ht => ?_, fun s h hboth => ?_⟩
  · obtain ⟨hdie, heie⟩ := exec_ctrl_same ht
    obtain ⟨t', ht', hend⟩ := exec_ended h0 h1 (s.inv_iff.mp h).1
    cases ht.symm.trans ht'
    rcases hend.outcome with ⟨hd, he, -⟩ | ⟨hd, he, -, -⟩
    · simp [State.irq, hd, he, herror, hdie]
    · simp [State.irq, hd, he, heie]
  · rw [exec_clear_idle hb] at ht
    cases ht
    simp [State.irq]
  · cases hboth.2.symm.trans (h.oneEnd hboth.1)

/-- Settles O57: the reset state has no valid flag, empty memories and an idle engine. -/
theorem resetMeetsInvariant : Obligations.ResetMeetsInvariant := by
  have hin := Config.inCapBits.isLt
  have hout := Config.outCapBits.isLt
  have hcaps : ∀ n, n < 2 ^ 28 → 1 ≤ n + 1 ∧ n + 1 ≤ 2 ^ 28 := fun n hn => by omega
  exact { inCapRange := hcaps _ hin, outCapRange := hcaps _ hout, ibufForm := ⟨rfl, rfl⟩, obufForm := ⟨rfl, rfl⟩,
          codesNeedTree := (fun hv => by cases hv), treeNeedsTable := (fun hv => by cases hv),
          payloadNeedsTable := (fun hv => by cases hv), tableCount := ⟨Nat.zero_le _, fun _ => rfl⟩,
          tableValid := (fun hv => by cases hv), treeValid := (fun hv => by cases hv), codesValid := (fun hv => by cases hv),
          payloadInside := (fun hv => by cases hv), outputInside := Nat.zero_le _, busyQuiet := (fun hb => by cases hb),
          oneEnd := fun _ => rfl, errorCode := by decide, running := (fun w hw => by cases hw), idle := fun _ => rfl }

end Sys2Proof.Machine
end

section
/-! SUPPORT. The cycle by what the host presents, and the script lines that fill the input buffer (30_encoding.md R83, R95,
20_memory.md R57, R58). -/

namespace Sys2Proof.Machine

/-! ### The cycle of an action -/

theorem nextInput_idle {s : State} {h : List HostAct} (hs : s.script = .idle :: h) :
    nextInput s = (⟨false, none⟩, h) := by rw [nextInput, hs]

theorem nextInput_nil {s : State} (hs : s.script = []) : nextInput s = (⟨false, none⟩, s.script) := by
  rw [nextInput, hs]

theorem nextInput_wait_of_idle {s : State} {h : List HostAct} (hb : s.busy = false) (hs : s.script = .wait :: h) :
    nextInput s = (⟨false, some (.read (regAddr .status))⟩, h) := by
  rw [nextInput, hs]
  simp [hb]

theorem step_of_nextInput {s : State} {req : Option Txn} {h : List HostAct} (hin : nextInput s = (⟨false, req⟩, h)) :
    step s = runCycle req { s with script := h } := by
  rw [step, cycle, hin]
  rfl

/-- A quiet cycle of the busy block is the engine's (R83). -/
theorem step_of_quiet_busy {s : State} {h : List HostAct} (hb : s.busy = true)
    (hin : nextInput s = (⟨false, none⟩, h)) : step s = engineTick { s with script := h, resp := none } :=
  (step_of_nextInput hin).trans (if_pos hb)

/-- A quiet cycle of the idle block changes nothing (R57). -/
theorem step_of_quiet_idle {s : State} {h : List HostAct} (hb : s.busy = false)
    (hin : nextInput s = (⟨false, none⟩, h)) : step s = .next { s with script := h, resp := none } :=
  (step_of_nextInput hin).trans (if_neg (show ¬ s.busy = true by rw [hb]; decide))

/-- A cycle of the idle block is its transaction (R57). -/
theorem step_of_idle_txn {s : State} {x : Txn} {h : List HostAct} (hb : s.busy = false) (hs : s.script = .txn x :: h) :
    step s = portTxn x { s with script := h } :=
  (step_of_txn hs).trans (runCycle_of_idle (some x) (s := { s with script := h }) hb)

theorem busy_of_seq_none {s : State} (hs : s.seq = none) : s.busy = false := congrArg Option.isSome hs

theorem busy_of_seq_some {s : State} {w : Word} (hs : s.seq = some w) : s.busy = true := congrArg Option.isSome hs

/-- The completion cycle of a quiet host runs the decoded command (R83). -/
theorem step_completes_quiet {s : State} {w : Word} {i : Instr} {h : List HostAct} (hseq : s.seq = some w)
    (hd : decode w = .ok i) (hcnt : s.busycnt = 1) (hin : nextInput s = (⟨false, none⟩, h)) :
    step s = exec i { s with script := h, resp := none } := by
  rw [step_of_quiet_busy (busy_of_seq_some hseq) hin]
  exact (engineTick_completes (s := { s with script := h, resp := none }) hcnt.le).trans (completeCmd_legal hseq hd)

theorem encode_eq_nop {i : Instr} (h : encode i = 0#32) : i = .nop := by
  have hd := decode_encode i
  rw [h] at hd
  exact (Except.ok.inj hd).symm

theorem encode_eq_clear {i : Instr} (h : encode i = 1#32) : i = .clear := by
  have hd := decode_encode i
  rw [h] at hd
  exact (Except.ok.inj hd).symm

/-- A placed command has been accepted and completes in the next quiet cycle (log 16). -/
theorem withFetchWord_encode {i : Instr} (h0 : i ≠ .nop) (h1 : i ≠ .clear) (s : State) :
    s.withFetchWord 32 (encode i).toNat = { accept (encode i) s with busycnt := 1, script := .idle :: s.script } := by
  rw [State.withFetchWord, Nat.mod_eq_of_lt (encode i).isLt, BitVec.ofNat_toNat, BitVec.setWidth_eq]
  exact if_neg fun h => h.elim (fun h => h0 (encode_eq_nop h)) fun h => h1 (encode_eq_clear h)

/-! ### The script that fills the input buffer -/

/-- The action that writes one byte to IDATA (R95). -/
def putAct (b : Byte) : HostAct := .txn (.write (regAddr .idata) (b.setWidth 32))

/-- An unlocked write of the idle block to a register but CMD (R57). -/
theorem step_writeReg {s t : State} {r : Reg} {v : Word} {h : List HostAct} {p : Resp} (hb : s.busy = false)
    (hc : r ≠ .cmd) (hs : s.script = .txn (.write (regAddr r) v) :: h)
    (hw : writeReg r v { s with script := h } = (p, t)) : step s = .next (answer p t) :=
  (step_of_idle_txn hb hs).trans
    (portTxn_write_eq (not_locked_of_idle (s := { s with script := h }) r hb) hc hw)

theorem step_putAct {s : State} {b : Byte} {h : List HostAct} (hb : s.busy = false) (hs : s.script = putAct b :: h)
    (hi : s.iptr.toNat < s.inCap) :
    step s = .next { s with
      ibuf := memWrite s.ibuf s.iptr.toNat b, iptr := s.iptr + 1#32, script := h, resp := some ⟨0#32, false⟩ } := by
  have hw := writeIdata_of_lt (b.setWidth 32) (s := { s with script := h }) hi
  rw [BitVec.setWidth_setWidth_of_le b (by decide), BitVec.setWidth_eq] at hw
  exact step_writeReg (r := .idata) hb (by decide) hs hw

/-- The state after the bytes are put, with the script that remains and the port's last answer. -/
def putBytes (s : State) (bs : List Byte) (rest : List HostAct) (r : Option Resp) : State :=
  { s with
    ibuf := memWriteList s.ibuf s.iptr.toNat bs, iptr := s.iptr + BitVec.ofNat 32 bs.length, script := rest, resp := r }

/-- `put bs` writes `bs` to IBUF from IPTR on (R58, R95). -/
theorem run_putActs (bs : List Byte) (s : State) (rest : List HostAct) (n : Nat) (hb : s.busy = false)
    (hcap : s.inCap ≤ 2 ^ 28) (hfit : s.iptr.toNat + bs.length ≤ s.inCap) (hs : s.script = bs.map putAct ++ rest) :
    ∃ r, Sys2Proof.core.run (bs.length + n) s = Sys2Proof.core.run n (putBytes s bs rest r) := by
  induction bs generalizing s with
  | nil =>
    have hs' : s.script = rest := hs
    refine ⟨s.resp, ?_⟩
    subst hs'
    simp [putBytes, memWriteList]
  | cons b bs ih =>
    rw [List.length_cons] at hfit
    have hi : s.iptr.toNat < s.inCap := by omega
    have hnext : (s.iptr + 1#32).toNat = s.iptr.toNat + 1 := toNat_succ_of_lt_cap hcap hi
    have hstep := step_putAct (h := bs.map putAct ++ rest) hb hs hi
    obtain ⟨r, hr⟩ := ih { s with
      ibuf := memWrite s.ibuf s.iptr.toNat b, iptr := s.iptr + 1#32, script := bs.map putAct ++ rest,
      resp := some ⟨0#32, false⟩ } hb hcap (show (s.iptr + 1#32).toNat + bs.length ≤ s.inCap by omega) rfl
    refine ⟨r, ?_⟩
    have hptr : s.iptr + 1#32 + BitVec.ofNat 32 bs.length = s.iptr + BitVec.ofNat 32 (bs.length + 1) := by
      rw [BitVec.add_assoc, BitVec.ofNat_add, BitVec.add_comm (1#32)]
    simp only [putBytes, hnext, hptr] at hr
    rw [List.length_cons, Nat.add_right_comm]
    exact (run_succ _ hstep).trans hr

/-- The input after its bytes are written from offset 0. -/
theorem input_of_ibuf {s : State} {m : Mem} {bs : List Byte} (hm : s.ibuf = memWriteList m 0 bs)
    (hn : s.inLen.toNat = bs.length) : s.input = bs := by
  refine List.ext_getElem (by simp [input_length, hn]) fun i h1 h2 => ?_
  simp [State.input, State.ibufBytes, State.ibufByte, hm, memRead_writeList, h2]

theorem step_setLen {s : State} {v : Word} (hb : s.busy = false)
    (hs : s.script = [.txn (.write (regAddr .inLen) v)]) :
    step s = .next { s with inLen := v, script := [], resp := some ⟨0#32, false⟩ } :=
  step_writeReg (r := .inLen) hb (by decide) hs rfl

/-- The actions of the script lines `put bs` and `wr IN_LEN, |bs|` (R95). -/
def putLines (bs : List Byte) : List HostAct :=
  bs.map putAct ++ [.txn (.write (regAddr .inLen) (BitVec.ofNat 32 bs.length))]

/-- The state after the three lines. -/
def filled (s : State) (bs : List Byte) : State :=
  { s with
    ibuf := memWriteList s.ibuf 0 bs, iptr := 0#32 + BitVec.ofNat 32 bs.length, inLen := BitVec.ofNat 32 bs.length,
    script := [], resp := some ⟨0#32, false⟩ }

theorem resultsSame_filled (s : State) (bs : List Byte) : ResultsSame s (filled s bs) :=
  ⟨rfl, rfl, rfl, rfl, rfl, rfl, rfl, rfl, rfl, rfl, rfl, rfl, rfl, rfl, rfl⟩

theorem sameObuf_filled (s : State) (bs : List Byte) : SameObuf s (filled s bs) := fun _ => rfl

/-- The state after the script line `wr IPTR, 0`. -/
def pointed (s : State) (bs : List Byte) : State :=
  { s with iptr := 0#32, resp := some ⟨0#32, false⟩, script := putLines bs }

/-- `wr IPTR, 0`, `put bs`, `wr IN_LEN, |bs|` run one action a cycle (R95, R206). -/
theorem run_putLines {s : State} {bs : List Byte} (hb : s.busy = false) (hlen : bs.length ≤ s.inCap)
    (hcap : s.inCap ≤ 2 ^ 28) (hs : s.script = .txn (.write (regAddr .iptr) 0#32) :: putLines bs) :
    Sys2Proof.core.run (bs.length + 2) s = .next (filled s bs) := by
  have hfirst : step s = .next (pointed s bs) := step_writeReg hb (by decide) hs rfl
  obtain ⟨r, hr⟩ := run_putActs bs (pointed s bs) _ 1 hb hcap
    (show (0#32).toNat + bs.length ≤ s.inCap by simpa using hlen) rfl
  have hlast := step_setLen (v := BitVec.ofNat 32 bs.length) (s := putBytes (pointed s bs) bs _ r) hb rfl
  rw [run_succ (bs.length + 1) hfirst, hr, run_succ 0 hlast]
  rfl

end Sys2Proof.Machine
end

section
/-! PROOFS. Completion, the step and the host script (30_encoding.md R83, R95, 70_reset_and_hazards.md R206). -/

namespace Sys2Proof.Machine

/-- Settles O9: the two branches of the engine's cycle and of the completion step. -/
theorem completionWhenCountReachesZero : Obligations.CompletionWhenCountReachesZero := by
  refine ⟨fun s => engineTick_counts, fun s w i h1 hs hd => ?_, fun s w x h1 hs hd => ?_⟩
  · exact (engineTick_completes h1.le).trans (completeCmd_legal hs hd)
  · exact (engineTick_completes h1.le).trans (completeCmd_illegal hs hd)

/-- Settles O10: each clause is the cycle of the action that stands first in the script. -/
theorem stepRunsDecodedCommand : Obligations.StepRunsDecodedCommand := by
  refine ⟨fun s w i h hseq hd hcnt hs => step_completes_quiet hseq hd hcnt (nextInput_idle hs),
    fun s w i hseq hd hcnt hs => step_completes_quiet hseq hd hcnt (nextInput_nil hs), fun s w i h hseq hd hi hs => ?write,
    fun s i h0 h1 => ?placed, fun s x h hseq hs => step_of_idle_txn (busy_of_seq_none hseq) hs, fun s h hseq hs => ?wait,
    fun s h hseq hs => step_of_quiet_idle (busy_of_seq_none hseq) (nextInput_idle hs),
    fun s hseq hs => step_of_quiet_idle (busy_of_seq_none hseq) (nextInput_nil hs)⟩
  case write =>
    have hb := busy_of_seq_none hseq
    have hcmd := portTxn_cmd w { s with script := h } hb
    rw [step_of_idle_txn hb hs, hcmd, ← encode_of_decode hd]
    rcases hi with rfl | rfl <;> rfl
  case placed =>
    rw [withFetchWord_encode h0 h1]
    exact step_completes_quiet (s := { accept (encode i) s with busycnt := 1, script := .idle :: s.script }) rfl
      (decode_encode i) rfl (nextInput_idle rfl)
  case wait =>
    have hb := busy_of_seq_none hseq
    rw [step_of_nextInput (nextInput_wait_of_idle hb hs)]
    exact runCycle_of_idle _ (s := { s with script := h }) hb

/-- Settles O56: one step for each line but `put`, and one for each of its bytes. -/
theorem scriptFillsInputBuffer : Obligations.ScriptFillsInputBuffer := by
  intro s bs hb hlen hcap hs
  have hlines : s.script = .txn (.write (regAddr .iptr) 0#32) :: putLines bs := by
    rw [hs]; simp [scriptOf, scriptLine, putLines, putAct]
  have hn : (BitVec.ofNat 32 bs.length).toNat = bs.length := by
    rw [BitVec.toNat_ofNat, Nat.mod_eq_of_lt (by omega)]
  exact ⟨filled s bs, run_putLines hb hlen hcap hlines, input_of_ibuf (m := s.ibuf) rfl hn, hn, BitVec.zero_add _, hb,
    rfl, resultsSame_filled s bs, sameObuf_filled s bs⟩

end Sys2Proof.Machine
end

section
/-! SUPPORT. The unit bodies in front of PACK and WALK in the composite commands, on the states where they succeed
(45_control.md R162, R163), and the end of WALK. -/

namespace Sys2Proof.Machine

/-! ### COMPRESS up to PACK -/

/-- The first three unit bodies of COMPRESS (R162). -/
def compressFront (s : State) : Run State := ((bodyFreq s).andThen bodyTree).andThen bodyCodes

theorem bodyCompress_eq (s : State) : bodyCompress s = (spoilOnRaise (compressFront s)).andThen bodyPack := rfl

/-- The state in which COMPRESS begins PACK. -/
def tabled (s : State) (b : Built) (t : Shape) (w : Work) : State := coded (treed (freqed s w) b w) (codesOf t) w

/-- The symbols of the input's table (R101). -/
def inputSyms (s : State) : List Byte := (stableTable s.input).map FtEntry.sym

theorem symbols_freqed (s : State) (w : Work) : (freqed s w).symbols = inputSyms s := by
  rw [State.symbols, ftList_freqed, inputSyms]

theorem mem_inputSyms {s : State} {b : Byte} : b ∈ inputSyms s ↔ b ∈ s.input := by
  simp only [inputSyms, List.mem_map, mem_stableTable]
  constructor
  · rintro ⟨e, ⟨he, -⟩, rfl⟩
    exact he
  · exact fun hb => ⟨⟨b, BitVec.ofNat 32 (s.input.count b)⟩, ⟨hb, rfl⟩, rfl⟩

theorem compressFront_of_input {s : State} (h0 : s.inLen ≠ 0#32) (h1 : s.inLen.toNat ≤ s.inCap) :
    ∃ b t w, TreeShape (inputSyms s) b t ∧ (inputSyms s).Nodup ∧ (inputSyms s).length ≤ 256 ∧
      w.cmdl = s.work.cmdl ∧ compressFront s = .ok (tabled s b t w) := by
  obtain ⟨w1, hw1, hfreq⟩ := bodyFreq_of_input h0 h1
  have hok := tableOk_freqed h0 w1
  have hn : (freqed s w1).ftN.toNat ≤ 256 := by rw [ftN_freqed]; exact stableTable_length_le _
  obtain ⟨b, t, w2, hbt, hw2, htree⟩ := bodyTree_of_table (s := freqed s w1) rfl (hok.ftN_pos hn) hn
  have hlen : (freqed s w1).symbols.length ≤ 256 := by rw [symbols_length hn]; exact hn
  have hnodup : (freqed s w1).symbols.Nodup := hok.distinct
  obtain ⟨w3, hw3, hcodes⟩ := bodyCodes_of_tree (s := treed (freqed s w1) b w2) rfl (hbt.treeIn_overlay hlen _) hnodup
  rw [symbols_freqed] at hbt hlen hnodup
  refine ⟨b, t, w3, hbt, hnodup, hlen, hw3.trans (hw2.trans hw1), ?_⟩
  rw [compressFront, hfreq, andThen_ok, htree, andThen_ok, hcodes]
  rfl

/-- COMPRESS reaches PACK, or ends as FREQ does (R162). -/
theorem compressFront_cases (s : State) :
    (s.inLen = 0#32 ∧ bodyFreq s = .raise .empty 0#32 (startFreq s) ∧
      compressFront s = .raise .empty 0#32 (startFreq s)) ∨
    (s.inCap < s.inLen.toNat ∧ bodyFreq s = .raise .inlen s.inLen (startFreq s) ∧
      compressFront s = .raise .inlen s.inLen (startFreq s)) ∨
    (s.inLen ≠ 0#32 ∧ s.inLen.toNat ≤ s.inCap ∧ ∃ b t w, TreeShape (inputSyms s) b t ∧ (inputSyms s).Nodup ∧
      (inputSyms s).length ≤ 256 ∧ w.cmdl = s.work.cmdl ∧ compressFront s = .ok (tabled s b t w)) := by
  rcases bodyFreq_cases s with ⟨h0, hb⟩ | ⟨h0, h1, hb⟩ | ⟨h0, h1, -⟩
  · exact .inl ⟨h0, hb, by rw [compressFront, hb]; rfl⟩
  · exact .inr (.inl ⟨h1, hb, by rw [compressFront, hb]; rfl⟩)
  · exact .inr (.inr ⟨h0, h1, compressFront_of_input h0 h1⟩)

/-- Every input byte has a code in the tables COMPRESS builds of the input (R162). -/
theorem coded_tabled {s : State} {b : Built} {t : Shape} (hbt : TreeShape (inputSyms s) b t)
    (hn : (inputSyms s).Nodup) : ∀ x ∈ s.input, (tableGet (codesOf t) x).valid = true := by
  intro x hx
  rw [valid_codesOf_iff (hbt.syms_eq ▸ hn), hbt.syms_eq]
  exact mem_inputSyms.mpr hx

theorem ftN_tabled (s : State) (b : Built) (t : Shape) (w : Work) :
    (tabled s b t w).ftN.toNat = (stableTable s.input).length := ftN_freqed s w

theorem ftList_tabled (s : State) (b : Built) (t : Shape) (w : Work) :
    (tabled s b t w).ftList = stableTable s.input := ftList_freqed s w

/-! ### DECOMPRESS up to WALK -/

/-- The first two unit bodies of DECOMPRESS (R163). -/
def decompressFront (s : State) : Run State := (bodyLoad s).andThen bodyTree

theorem bodyDecompress_eq (l : Bool) (s : State) :
    bodyDecompress l s = (spoilOnRaise (decompressFront s)).andThen (bodyWalk l) := rfl

/-- The symbols of the envelope in IBUF, in persisted order (R142). -/
def loadedSyms (s : State) : List Byte := (loadedTable s (ibuf16 s 0)).map FtEntry.sym

theorem symbols_loaded {s : State} (h : Loadable s) (w : Work) : (loaded s w).symbols = loadedSyms s := by
  rw [State.symbols, ftList_loaded h, loadedSyms]

theorem decompressFront_of_loadable {s : State} (h : Loadable s) :
    ∃ b t w, TreeShape (loadedSyms s) b t ∧ (loadedSyms s).Nodup ∧ (loadedSyms s).length ≤ 256 ∧
      w.cmdl = s.work.cmdl ∧ decompressFront s = .ok (treed (loaded s w) b w) := by
  have hload := bodyLoad_of_loadable h
  have hok := tableOk_loaded h { s.work with ipos := s.inLen }
  have hn : (loaded s { s.work with ipos := s.inLen }).ftN.toNat ≤ 256 := by rw [ftN_loaded h]; exact h.count.2
  obtain ⟨b, t, w, hbt, hw, htree⟩ := bodyTree_of_table (s := loaded s { s.work with ipos := s.inLen }) rfl
    (hok.ftN_pos hn) hn
  have hlen : (loaded s { s.work with ipos := s.inLen }).symbols.length ≤ 256 := by rw [symbols_length hn]; exact hn
  have hnodup : (loaded s { s.work with ipos := s.inLen }).symbols.Nodup := hok.distinct
  rw [symbols_loaded h] at hbt hlen hnodup
  refine ⟨b, t, w, hbt, hnodup, hlen, hw, ?_⟩
  rw [decompressFront, hload, andThen_ok, htree]
  rfl

/-- DECOMPRESS reaches WALK, or ends as LOAD does (R163). -/
theorem decompressFront_cases (s : State) :
    (∃ e i u, bodyLoad s = .raise e i u ∧ decompressFront s = .raise e i u) ∨
    (Loadable s ∧ ∃ b t w, TreeShape (loadedSyms s) b t ∧ (loadedSyms s).Nodup ∧ (loadedSyms s).length ≤ 256 ∧
      w.cmdl = s.work.cmdl ∧ decompressFront s = .ok (treed (loaded s w) b w)) := by
  cases hb : bodyLoad s with
  | ok u =>
    obtain ⟨hl, -⟩ := of_bodyLoad_ok hb
    exact .inr ⟨hl, decompressFront_of_loadable hl⟩
  | raise e i u => exact .inl ⟨e, i, u, rfl, by rw [decompressFront, hb]; rfl⟩
  | fault f =>
    rcases bodyLoad_cases s with ⟨-, h⟩ | ⟨-, i, g, h⟩ | ⟨-, n, t, b, w, -, -, -, -, -, -, -, -, h⟩ <;>
      rw [h] at hb <;> cases hb

/-! ### The end of WALK -/

/-- The state of a WALK that wrote its output (R145). -/
def walked (s : State) (x : Walker) (mid : Bool) (w : Work) : State :=
  { startWalk s with mid := s.mid || mid, obuf := x.obuf, outLen := BitVec.ofNat 32 x.opos, work := w }

theorem of_bodyWalk_ok {l : Bool} {s u : State} (h : bodyWalk l s = .ok u) :
    s.treeV = true ∧ s.payV = true ∧ ∃ x w, walkBits (startWalk s) = .ok x ∧ (x.cur = s.root ∨ l = true) ∧
      u = walked s x (decide (x.cur ≠ s.root)) w := by
  rcases bodyWalk_cases l s with ⟨-, hb⟩ | ⟨-, -, e, i, x, w, -, -, -, hb⟩ | ⟨-, -, a, -, -, hb⟩ |
    ⟨-, -, x, w, -, -, -, -, hb⟩ | ⟨ht, hp, x, w, hx, hend, -, hb⟩ <;> rw [hb] at h <;> cases h
  exact ⟨ht, hp, x, w, hx, hend, rfl⟩

end Sys2Proof.Machine
end

section
/-! SUPPORT. The errors of PACK (43_pack.md R131): which input byte ends it, and with which code. -/

namespace Sys2Proof.Machine

section
variable {cap h : Nat} {ct : Table CtEntry 8} (m : Mem) (input : List Byte)

/-- PACK's phases seen from input byte `i` on, when the bytes before it are coded and fit. -/
theorem packInput_at {i : Nat} {x : Byte} (hx : input[i]? = some x)
    (hv : ∀ b ∈ input.take i, (tableGet ct b).valid = true) (hf : h + (encodeBits ct (input.take i)).length / 8 ≤ cap) :
    packInput cap ct input (packerAt m h [] 0) =
      ((packByte cap ct x (packerAt m h (encodeBits ct (input.take i)) i)).andThen
        (runList (packByte cap ct) (input.drop (i + 1)))).andThen (packTail cap (BitVec.ofNat 32 input.length)) := by
  obtain ⟨hi, rfl⟩ := List.getElem?_eq_some_iff.mp hx
  have hsplit : input = input.take i ++ input[i] :: input.drop (i + 1) := by simp
  have hlen : 0 + (input.take i).length = i := by rw [List.length_take]; omega
  rw [packInput]
  conv_lhs => enter [1, 2]; rw [hsplit]
  rw [runList_append, runList_packByte_fits m _ [] 0 hv (by simpa using hf), andThen_ok, runList_cons, hlen,
    List.nil_append]

theorem packInput_invariant {i : Nat} {x : Byte} (hx : input[i]? = some x)
    (hv : ∀ b ∈ input.take i, (tableGet ct b).valid = true) (hf : h + (encodeBits ct (input.take i)).length / 8 ≤ cap)
    (hbad : (tableGet ct x).valid = false) :
    ∃ q, packInput cap ct input (packerAt m h [] 0) = .raise .invariant (BitVec.ofNat 32 i) q :=
  ⟨_, by rw [packInput_at m input hx hv hf, packByte_invalid cap _ hbad, andThen_raise, andThen_raise]; rfl⟩

theorem packInput_overflow {i : Nat} {x : Byte} (hx : input[i]? = some x)
    (hv : ∀ b ∈ input.take (i + 1), (tableGet ct b).valid = true)
    (hf : h + (encodeBits ct (input.take i)).length / 8 ≤ cap)
    (ho : cap < h + (encodeBits ct (input.take (i + 1))).length / 8) :
    ∃ q, packInput cap ct input (packerAt m h [] 0) = .raise .overflow (BitVec.ofNat 32 i) q := by
  have htake : input.take (i + 1) = input.take i ++ [x] := by rw [List.take_add_one, hx]; rfl
  rw [htake] at hv
  rw [htake, encodeBits_append, List.length_append, encodeBits_cons, encodeBits_nil, List.append_nil] at ho
  obtain ⟨q, hq⟩ := packByte_overflow m _ i (hv x (by simp)) hf ho
  exact ⟨q, by rw [packInput_at m input hx (fun b hb => hv b (by simp [hb])) hf, hq, andThen_raise, andThen_raise]⟩

theorem packInput_tail_overflow (hv : ∀ b ∈ input, (tableGet ct b).valid = true)
    (hf : h + (encodeBits ct input).length / 8 ≤ cap) (ho : cap < h + ceil8 (encodeBits ct input).length) :
    ∃ q, packInput cap ct input (packerAt m h [] 0) = .raise .overflow (BitVec.ofNat 32 input.length) q := by
  rw [packInput, runList_packByte_fits m input [] 0 hv (by simpa using hf), andThen_ok, List.nil_append]
  exact packTail_overflow _ m _ _ hf ho

/-- Coded bytes that do not all fit end PACK in ERR_OVERFLOW and in no other way. -/
theorem packInput_overflow_of_coded (hv : ∀ b ∈ input, (tableGet ct b).valid = true) (hc : h ≤ cap)
    (ho : cap < h + ceil8 (encodeBits ct input).length) :
    ∃ info q, packInput cap ct input (packerAt m h [] 0) = .raise .overflow info q := by
  by_cases hf : h + (encodeBits ct input).length / 8 ≤ cap
  · obtain ⟨q, hq⟩ := packInput_tail_overflow m input hv hf ho
    exact ⟨_, q, hq⟩
  · have hex : ∃ i, cap < h + (encodeBits ct (input.take i)).length / 8 :=
      ⟨input.length, by rw [List.take_length]; omega⟩
    have hfirst := Nat.find_spec hex
    have hbefore := Nat.find_min hex (m := Nat.find hex - 1)
    obtain ⟨i, hi⟩ : ∃ i, Nat.find hex = i + 1 := by
      refine Nat.exists_eq_succ_of_ne_zero fun hz => ?_
      rw [hz] at hfirst
      simp at hfirst
      omega
    rw [hi] at hfirst hbefore
    have hfit : h + (encodeBits ct (input.take i)).length / 8 ≤ cap := Nat.le_of_not_lt (hbefore (by omega))
    have hlt : i < input.length := by
      by_contra hge
      rw [List.take_of_length_le (by omega)] at hfirst hfit
      omega
    obtain ⟨q, hq⟩ := packInput_overflow m input (List.getElem?_eq_getElem hlt) (fun b hb => hv b (List.mem_of_mem_take hb))
      hfit hfirst
    exact ⟨_, q, hq⟩

end

/-! ### PACK -/

section
variable {s : State} (hv : s.ctV = true)
include hv

theorem bodyPack_of_inlen (h : s.inCap < s.inLen.toNat) :
    bodyPack s = .raise .inlen s.inLen (havocObuf (startPack s)) :=
  (if_neg (by simp [hv])).trans (if_pos h)

variable (hin : s.inLen.toNat ≤ s.inCap) (hn : s.ftN.toNat ≤ 256)
include hin hn

theorem bodyPack_of_header (h : s.outCap < headerSize s.ftN.toNat) :
    bodyPack s = .raise .overflow 0#32 (havocObuf (startPack s)) :=
  (if_neg (by simp [hv])).trans ((if_neg (Nat.not_lt.mpr hin)).trans ((if_neg (Nat.not_lt.mpr hn)).trans (if_pos h)))

theorem bodyPack_of_raise {e : ErrCode} {i : Word} {q : Packer} (h : headerSize s.ftN.toNat ≤ s.outCap)
    (hr : packInput s.outCap s.ct s.input
      (packerAt (memWriteList s.obuf 0 (headerBytes s.ftList)) (headerSize s.ftN.toNat) [] 0) = .raise e i q) :
    bodyPack s = .raise e i { havocObuf (startPack s) with work := packWork s.work q } := by
  rw [← packStart_ftList hn] at hr
  have hr' : packInput (startPack s).outCap (startPack s).ct (startPack s).input
    (packStart (startPack s).obuf (startPack s).ftList) = .raise e i q := hr
  rw [bodyPack, if_neg (by simp [hv]), if_neg (by simpa using hin), if_neg (by simpa using hn),
    if_neg (by simpa using h), hr']
  rfl

/-- PACK of coded bytes that do not fit ends in ERR_OVERFLOW (R131). -/
theorem bodyPack_overflow_of_coded (hcoded : ∀ b ∈ s.input, (tableGet s.ct b).valid = true)
    (ho : s.outCap < envSize s.ftN.toNat (encodeBits s.ct s.input).length) :
    ∃ i w, w.cmdl = s.work.cmdl ∧ bodyPack s = .raise .overflow i { havocObuf (startPack s) with work := w } := by
  by_cases h : s.outCap < headerSize s.ftN.toNat
  · exact ⟨0#32, s.work, rfl, bodyPack_of_header hv hin hn h⟩
  · obtain ⟨i, q, hq⟩ := packInput_overflow_of_coded (memWriteList s.obuf 0 (headerBytes s.ftList)) s.input hcoded
      (Nat.le_of_not_lt h) ho
    exact ⟨i, packWork s.work q, rfl, bodyPack_of_raise hv hin hn (Nat.le_of_not_lt h) hq⟩

end

end Sys2Proof.Machine
end

section
/-! PROOFS. The errors of PACK (43_pack.md R131, R132). -/

namespace Sys2Proof.Machine

/-- Settles O42: the first check that fails, or the input byte at which the loop stops. -/
theorem packErrors : Obligations.PackErrors := by
  intro s hv
  refine ⟨fun hin => ⟨s.work, ?_⟩, fun hin hn => ⟨fun hh => ⟨s.work, ?_⟩, fun hh i hi => ⟨fun hc hx hf => ?_,
    fun hc hf ho => ?_⟩, fun hc hf ho => ?_⟩⟩
  · rw [BitVec.ofNat_toNat, BitVec.setWidth_eq]
    exact congrArg settle (bodyPack_of_inlen hv hin)
  · exact congrArg settle (bodyPack_of_header hv hin hn hh)
  · rw [← input_length] at hi
    have hget := List.getElem?_eq_getElem hi
    obtain ⟨q, hq⟩ := packInput_invariant (memWriteList s.obuf 0 (headerBytes s.ftList)) s.input hget hc hf (hx _ hget)
    exact ⟨_, congrArg settle (bodyPack_of_raise hv hin hn hh hq)⟩
  · rw [← input_length] at hi
    obtain ⟨q, hq⟩ := packInput_overflow (memWriteList s.obuf 0 (headerBytes s.ftList)) s.input
      (List.getElem?_eq_getElem hi) hc hf ho
    exact ⟨_, congrArg settle (bodyPack_of_raise hv hin hn hh hq)⟩
  · rw [← input_length] at hc hf ho ⊢
    simp only [List.take_length] at hc hf ho
    have hh : headerSize s.ftN.toNat ≤ s.outCap := by rw [headerSize]; omega
    obtain ⟨q, hq⟩ := packInput_tail_overflow (memWriteList s.obuf 0 (headerBytes s.ftList)) s.input hc hf ho
    exact ⟨_, congrArg settle (bodyPack_of_raise hv hin hn hh hq)⟩

end Sys2Proof.Machine
end

section
/-! SUPPORT. What each command leaves alone, field by field, and how each can raise (10_state.md section 6,
60_exceptions.md R171 to R176). -/

namespace Sys2Proof.Machine

/-! ### The end of a command and its body -/

/-- A completed command ends as its body does, with what the completion step writes. -/
theorem exec_bodyEnd {i : Instr} {s t : State} (h0 : i ≠ .nop) (h1 : i ≠ .clear) (h : exec i s = .next t) :
    ∃ u, (∀ P, (bodyOf i s).Keeps P → P u) ∧ (t = succeed u ∨ ∃ e info, t = errorEntry e info u) := by
  rcases exec_next h0 h1 h with ⟨u, hr, -, rfl⟩ | ⟨e, info, u, hr, -, rfl⟩
  · exact ⟨u, fun P hP => by rwa [hr] at hP, .inl rfl⟩
  · exact ⟨u, fun P hP => by rwa [hr] at hP, .inr ⟨e, info, rfl⟩⟩

theorem HostSideSame.succeed {s u : State} (h : HostSideSame s u) : HostSideSame s (succeed u) := { h with }

theorem HostSideSame.errorEntry {s u : State} (h : HostSideSame s u) (e : ErrCode) (info : Word) :
    HostSideSame s (errorEntry e info u) := { h with }

/-! ### A missing requirement -/

theorem bodyTree_of_ftV {s : State} (h : s.ftV = false) : bodyTree s = .raise .seq 0#32 s := if_pos (by simp [h])

theorem bodyCodes_of_treeV {s : State} (h : s.treeV = false) : bodyCodes s = .raise .seq 0#32 s := if_pos (by simp [h])

theorem bodyPack_of_ctV {s : State} (h : s.ctV = false) : bodyPack s = .raise .seq 0#32 s := if_pos (by simp [h])

theorem bodyWalk_of_flags (l : Bool) {s : State} (h : s.treeV = false ∨ s.payV = false) :
    bodyWalk l s = .raise .seq 0#32 s :=
  if_pos (by rcases h with h | h <;> simp [h])

/-! ### The frames of the unit bodies -/

theorem bodyFreq_frame (s : State) : (bodyFreq s).Keeps fun t =>
    t.root = s.root ∧ t.nodeN = s.nodeN ∧ t.encBits = s.encBits ∧ t.decBits = s.decBits ∧ t.payBase = s.payBase ∧
    t.node = s.node ∧ t.ct = s.ct ∧ t.mid = s.mid := by
  rcases bodyFreq_cases s with ⟨-, h⟩ | ⟨-, -, h⟩ | ⟨-, -, w, -, h⟩ <;> rw [h] <;>
    exact ⟨rfl, rfl, rfl, rfl, rfl, rfl, rfl, rfl⟩

theorem bodyLoad_frame (s : State) : (bodyLoad s).Keeps fun t =>
    t.root = s.root ∧ t.nodeN = s.nodeN ∧ t.encBits = s.encBits ∧ t.node = s.node ∧ t.ct = s.ct ∧ t.mid = s.mid := by
  rcases bodyLoad_cases s with ⟨-, h⟩ | ⟨-, i, f, h⟩ | ⟨-, n, t, b, w, -, -, -, -, -, -, -, -, h⟩ <;> rw [h] <;>
    exact ⟨rfl, rfl, rfl, rfl, rfl, rfl⟩

theorem bodyTree_frame (s : State) : (bodyTree s).Keeps fun t =>
    t.ftN = s.ftN ∧ t.encBits = s.encBits ∧ t.decBits = s.decBits ∧ t.payBase = s.payBase ∧ t.ftV = s.ftV ∧
    t.payV = s.payV ∧ t.ft = s.ft ∧ t.ct = s.ct ∧ t.mid = s.mid := by
  rcases bodyTree_cases s with ⟨-, h⟩ | ⟨-, -, h⟩ | ⟨-, -, -, h⟩ | ⟨-, -, b, w, -, -, h⟩ <;> rw [h]
  · exact ⟨rfl, rfl, rfl, rfl, rfl, rfl, rfl, rfl, rfl⟩
  · trivial
  · trivial
  · exact ⟨rfl, rfl, rfl, rfl, rfl, rfl, rfl, rfl, rfl⟩

theorem bodyCodes_frame (s : State) : (bodyCodes s).Keeps fun t =>
    t.ftN = s.ftN ∧ t.root = s.root ∧ t.nodeN = s.nodeN ∧ t.encBits = s.encBits ∧ t.decBits = s.decBits ∧
    t.payBase = s.payBase ∧ t.ftV = s.ftV ∧ t.treeV = s.treeV ∧ t.payV = s.payV ∧ t.ft = s.ft ∧ t.node = s.node ∧
    t.mid = s.mid := by
  rcases bodyCodes_cases s with ⟨-, h⟩ | ⟨-, ct, w, -, -, h⟩ | ⟨-, j, ct, w, -, -, h⟩ | ⟨-, j, -, h⟩ <;> rw [h]
  · exact ⟨rfl, rfl, rfl, rfl, rfl, rfl, rfl, rfl, rfl, rfl, rfl, rfl⟩
  · exact ⟨rfl, rfl, rfl, rfl, rfl, rfl, rfl, rfl, rfl, rfl, rfl, rfl⟩
  · exact ⟨rfl, rfl, rfl, rfl, rfl, rfl, rfl, rfl, rfl, rfl, rfl, rfl⟩
  · trivial

theorem bodyPack_frame (s : State) : (bodyPack s).Keeps fun t =>
    ResultsSame { s with outLen := t.outLen, errInfo := t.errInfo, encBits := t.encBits } t ∧ t.mid = s.mid := by
  rcases bodyPack_cases s with ⟨-, h⟩ | ⟨-, -, h⟩ | ⟨-, -, -, h⟩ | ⟨-, -, -, e, i, w, -, -, h⟩ |
    ⟨-, -, -, -, p, w, -, -, h⟩ <;> rw [h]
  · exact ⟨{ ResultsSame.refl s with }, rfl⟩
  · exact ⟨{ ResultsSame.refl s with outLen := rfl, encBits := rfl }, rfl⟩
  · trivial
  · exact ⟨{ ResultsSame.refl s with outLen := rfl, encBits := rfl }, rfl⟩
  · exact ⟨{ ResultsSame.refl s with outLen := rfl, encBits := rfl }, rfl⟩

theorem bodyWalk_frame (l : Bool) (s : State) : (bodyWalk l s).Keeps fun t =>
    ResultsSame { s with outLen := t.outLen, errInfo := t.errInfo } t := by
  rcases bodyWalk_cases l s with ⟨-, h⟩ | ⟨-, -, e, i, x, w, -, -, -, h⟩ | ⟨-, -, a, -, -, h⟩ |
    ⟨-, -, x, w, -, -, -, -, h⟩ | ⟨-, -, x, w, -, -, -, h⟩ <;> rw [h]
  · exact { ResultsSame.refl s with }
  · exact { ResultsSame.refl s with outLen := rfl }
  · trivial
  · exact { ResultsSame.refl s with outLen := rfl }
  · exact { ResultsSame.refl s with outLen := rfl }

/-! ### OBUF -/

/-- OBUF's memory is the same, so every byte of it reads the same. -/
def ObufSame (s t : State) : Prop := t.obuf = s.obuf ∧ t.obufGen = s.obufGen

theorem ObufSame.sameObuf {s t : State} (h : ObufSame s t) : SameObuf s t := fun a => by
  rw [State.obufByte, State.obufByte, h.1, h.2]

/-- FREQ, TREE, CODES and LOAD do not write OBUF. -/
theorem bodyOf_obufSame {i : Instr} (hi : i = .freq ∨ i = .tree ∨ i = .codes ∨ i = .load) (s : State) :
    (bodyOf i s).Keeps (ObufSame s) := by
  rcases hi with rfl | rfl | rfl | rfl
  · rw [bodyOf]
    rcases bodyFreq_cases s with ⟨-, h⟩ | ⟨-, -, h⟩ | ⟨-, -, w, -, h⟩ <;> rw [h] <;> exact ⟨rfl, rfl⟩
  · rw [bodyOf]
    rcases bodyTree_cases s with ⟨-, h⟩ | ⟨-, -, h⟩ | ⟨-, -, -, h⟩ | ⟨-, -, b, w, -, -, h⟩ <;> rw [h]
    · exact ⟨rfl, rfl⟩
    · trivial
    · trivial
    · exact ⟨rfl, rfl⟩
  · rw [bodyOf]
    rcases bodyCodes_cases s with ⟨-, h⟩ | ⟨-, ct, w, -, -, h⟩ | ⟨-, j, ct, w, -, -, h⟩ | ⟨-, j, -, h⟩ <;> rw [h]
    · exact ⟨rfl, rfl⟩
    · exact ⟨rfl, rfl⟩
    · exact ⟨rfl, rfl⟩
    · trivial
  · rw [bodyOf]
    rcases bodyLoad_cases s with ⟨-, h⟩ | ⟨-, i, f, h⟩ | ⟨-, n, t, b, w, -, -, -, -, -, -, -, -, h⟩ <;> rw [h] <;>
      exact ⟨rfl, rfl⟩

/-- The bytes at and above OUT_LEN read as before (R42). -/
def ObufAbove (s t : State) : Prop := ∀ a, t.outLen.toNat ≤ a → t.obufByte a = s.obufByte a

theorem toNat_ofNat_of_le_cap {n cap : Nat} (hc : cap ≤ 2 ^ 28) (hn : n ≤ cap) : (BitVec.ofNat 32 n).toNat = n := by
  rw [BitVec.toNat_ofNat, Nat.mod_eq_of_lt (by omega)]

theorem bodyPack_obufAbove {s u : State} (hc : s.outCap ≤ 2 ^ 28) (h : bodyPack s = .ok u) : ObufAbove s u := by
  obtain ⟨-, hp, w, -, rfl⟩ := of_bodyPack_ok h
  intro a ha
  have hlen : (packed s w).outLen.toNat = envSize s.ftN.toNat (encodeBits s.ct s.input).length :=
    toNat_ofNat_of_le_cap hc hp.size
  rw [hlen, ← ftList_length hp.table] at ha
  have hread : memRead (packed s w).obuf a = memRead s.obuf a :=
    (memRead_packedMem _ _ _ a).trans (if_neg (Nat.not_lt.mpr ha))
  rw [State.obufByte, hread]
  rfl

theorem bodyWalk_obufAbove {l : Bool} {s u : State} (hc : s.outCap ≤ 2 ^ 28) (h : bodyWalk l s = .ok u) :
    ObufAbove s u := by
  obtain ⟨-, -, x, w, hx, -, rfl⟩ := of_bodyWalk_ok h
  have hok := walkerOk_of_walkBits hx
  intro a ha
  have hlen : (walked s x (decide (x.cur ≠ s.root)) w).outLen.toNat = x.opos := toNat_ofNat_of_le_cap hc hok.fits
  rw [hlen] at ha
  have hread : memRead (walked s x (decide (x.cur ≠ s.root)) w).obuf a = memRead s.obuf a := hok.frame a ha
  rw [State.obufByte, hread]
  rfl

theorem of_bodyCompress_ok {s u : State} (h : bodyCompress s = .ok u) :
    ∃ b t w, TreeShape (inputSyms s) b t ∧ bodyPack (tabled s b t w) = .ok u := by
  rw [bodyCompress_eq] at h
  rcases compressFront_cases s with ⟨-, -, e⟩ | ⟨-, -, e⟩ | ⟨-, -, b, t, w, hbt, -, -, -, e⟩ <;> rw [e] at h
  · cases h
  · cases h
  · exact ⟨b, t, w, hbt, h⟩

theorem of_bodyDecompress_ok {l : Bool} {s u : State} (h : bodyDecompress l s = .ok u) :
    ∃ b t w, TreeShape (loadedSyms s) b t ∧ bodyWalk l (treed (loaded s w) b w) = .ok u := by
  rw [bodyDecompress_eq] at h
  rcases decompressFront_cases s with ⟨e, i, v, -, he⟩ | ⟨-, b, t, w, hbt, -, -, -, he⟩ <;> rw [he] at h
  · cases h
  · exact ⟨b, t, w, hbt, h⟩

/-! ### PACK in COMPRESS -/

theorem input_tabled (s : State) (b : Built) (t : Shape) (w : Work) : (tabled s b t w).input = s.input := rfl

section
variable {s : State} {b : Built} {t : Shape} (hbt : TreeShape (inputSyms s) b t) (hn : (inputSyms s).Nodup)
  (hin : s.inLen.toNat ≤ s.inCap) (w : Work)
include hbt hn hin

/-- PACK succeeds in COMPRESS where the envelope of the input's own table and codes fits (R162). -/
theorem bodyPack_tabled_of_fit
    (h : envSize (stableTable s.input).length (encodeBits (codesOf t) s.input).length ≤ s.outCap) :
    ∃ w', w'.cmdl = w.cmdl ∧ bodyPack (tabled s b t w) = .ok (packed (tabled s b t w) w') := by
  refine bodyPack_of_packable (s := tabled s b t w) rfl ⟨hin, ?_, ?_, ?_⟩
  · rw [ftN_tabled]; exact stableTable_length_le _
  · rw [input_tabled]; exact coded_tabled hbt hn
  · rw [ftN_tabled, input_tabled]; exact h

/-- It ends in ERR_OVERFLOW where the envelope does not fit. -/
theorem bodyPack_tabled_of_overflow
    (h : s.outCap < envSize (stableTable s.input).length (encodeBits (codesOf t) s.input).length) :
    ∃ i w', w'.cmdl = w.cmdl ∧ bodyPack (tabled s b t w) =
      .raise .overflow i { havocObuf (startPack (tabled s b t w)) with work := w' } := by
  refine bodyPack_overflow_of_coded (s := tabled s b t w) rfl hin ?_ ?_ ?_
  · rw [ftN_tabled]; exact stableTable_length_le _
  · rw [input_tabled]; exact coded_tabled hbt hn
  · rw [ftN_tabled, input_tabled]; exact h

end

/-! ### The errors -/

/-- The commands that write OBUF, as the statements name them. -/
def WritesObuf (i : Instr) : Prop := i = .pack ∨ (∃ l, i = .walk l) ∨ i = .compress ∨ ∃ l, i = .decompress l

/-- The body of `i` may raise this code with this ERRINFO (R170 to R173), and leaves OBUF so (R42, R176). -/
structure RaiseOk (i : Instr) (s : State) (e : ErrCode) (info : Word) (u : State) : Prop where
  named : e ≠ .none ∧ e ≠ .illcmd
  empty : e = .empty → (i = .freq ∨ i = .compress) ∧ info = 0#32
  inlen : e = .inlen → (i = .freq ∨ i = .pack ∨ i = .load ∨ i = .compress ∨ ∃ l, i = .decompress l) ∧ info = s.inLen
  overflow : e = .overflow → WritesObuf i
  envelope : e = .envelope → i = .load ∨ ∃ l, i = .decompress l
  midtree : e = .midtree → (i = .walk false ∨ i = .decompress false) ∧ info = u.decBits
  badpath : e = .badpath → (∃ l, i = .walk l) ∨ ∃ l, i = .decompress l
  seq : e = .seq → (i = .tree ∨ i = .codes ∨ i = .pack ∨ ∃ l, i = .walk l) ∧ info = 0#32
  invariant : e = .invariant → i = .codes ∨ i = .pack
  obufHavoc : WritesObuf i → e ≠ .seq → u.obuf = [] ∧ u.obufGen = s.obufGen + 1
  obufKept : ¬ WritesObuf i ∨ e = .seq → ObufSame s u

theorem bodyFreq_raiseOk {s u : State} {e : ErrCode} {info : Word} (h : bodyFreq s = .raise e info u) :
    RaiseOk .freq s e info u := by
  rcases bodyFreq_cases s with ⟨-, hb⟩ | ⟨-, -, hb⟩ | ⟨-, -, w, -, hb⟩ <;> rw [hb] at h <;> cases h <;>
    constructor <;> simp [WritesObuf, ObufSame]

theorem bodyTree_raiseOk {s u : State} {e : ErrCode} {info : Word} (h : bodyTree s = .raise e info u) :
    RaiseOk .tree s e info u := by
  rcases bodyTree_cases s with ⟨-, hb⟩ | ⟨-, -, hb⟩ | ⟨-, -, -, hb⟩ | ⟨-, -, b, w, -, -, hb⟩ <;> rw [hb] at h <;>
    cases h
  constructor <;> simp [WritesObuf, ObufSame]

theorem bodyCodes_raiseOk {s u : State} {e : ErrCode} {info : Word} (h : bodyCodes s = .raise e info u) :
    RaiseOk .codes s e info u := by
  rcases bodyCodes_cases s with ⟨-, hb⟩ | ⟨-, ct, w, -, -, hb⟩ | ⟨-, j, ct, w, -, -, hb⟩ | ⟨-, j, -, hb⟩ <;>
    rw [hb] at h <;> cases h <;> constructor <;> simp [WritesObuf, ObufSame]

theorem bodyPack_raiseOk {s u : State} {e : ErrCode} {info : Word} (h : bodyPack s = .raise e info u) :
    RaiseOk .pack s e info u := by
  rcases bodyPack_cases s with ⟨-, hb⟩ | ⟨-, -, hb⟩ | ⟨-, -, -, hb⟩ | ⟨-, -, -, e', i, w, he, -, hb⟩ |
    ⟨-, -, -, -, p, w, -, -, hb⟩ <;> rw [hb] at h <;> cases h
  · constructor <;> simp [WritesObuf, ObufSame]
  · constructor <;> simp [WritesObuf, ObufSame]
  · rcases he with rfl | rfl <;> constructor <;> simp [WritesObuf, ObufSame]

theorem bodyLoad_raiseOk {s u : State} {e : ErrCode} {info : Word} (h : bodyLoad s = .raise e info u) :
    RaiseOk .load s e info u := by
  rcases bodyLoad_cases s with ⟨-, hb⟩ | ⟨-, i, f, hb⟩ | ⟨-, n, t, b, w, -, -, -, -, -, -, -, -, hb⟩ <;>
    rw [hb] at h <;> cases h <;> constructor <;> simp [WritesObuf, ObufSame]

theorem bodyWalk_raiseOk {l : Bool} {s u : State} {e : ErrCode} {info : Word} (h : bodyWalk l s = .raise e info u) :
    RaiseOk (.walk l) s e info u := by
  rcases bodyWalk_cases l s with ⟨-, hb⟩ | ⟨-, -, e', i, x, w, -, he, -, hb⟩ | ⟨-, -, a, -, -, hb⟩ |
    ⟨-, -, x, w, -, -, hl, -, hb⟩ | ⟨-, -, x, w, -, -, -, hb⟩ <;> rw [hb] at h <;> cases h
  · constructor <;> simp [WritesObuf, ObufSame]
  · rcases he with rfl | rfl <;> constructor <;> simp [WritesObuf, ObufSame]
  · subst hl
    constructor <;> simp [WritesObuf, ObufSame]

theorem bodyCompress_raiseOk {s u : State} {e : ErrCode} {info : Word} (h : bodyCompress s = .raise e info u) :
    RaiseOk .compress s e info u := by
  rw [bodyCompress_eq] at h
  rcases compressFront_cases s with ⟨-, -, hb⟩ | ⟨-, -, hb⟩ | ⟨-, h1, b, t, w, hbt, hn, -, -, hb⟩ <;> rw [hb] at h
  · cases h
    constructor <;> simp [WritesObuf, ObufSame]
  · cases h
    constructor <;> simp [WritesObuf, ObufSame]
  · simp only [spoilOnRaise_ok, andThen_ok] at h
    rcases Nat.lt_or_ge s.outCap (envSize (stableTable s.input).length (encodeBits (codesOf t) s.input).length) with
      hsize | hsize
    · obtain ⟨i, w', -, hov⟩ := bodyPack_tabled_of_overflow hbt hn h1 w hsize
      rw [hov] at h
      cases h
      constructor <;> simp [WritesObuf, tabled, coded, treed, freqed]
    · obtain ⟨w', -, hok⟩ := bodyPack_tabled_of_fit hbt hn h1 w hsize
      rw [hok] at h
      cases h

theorem bodyDecompress_raiseOk {l : Bool} {s u : State} {e : ErrCode} {info : Word}
    (h : bodyDecompress l s = .raise e info u) : RaiseOk (.decompress l) s e info u := by
  rw [bodyDecompress_eq] at h
  rcases decompressFront_cases s with ⟨e', i, v, hload, hb⟩ | ⟨-, b, t, w, -, -, -, -, hb⟩ <;> rw [hb] at h
  · cases h
    rcases bodyLoad_cases s with ⟨-, hb⟩ | ⟨-, j, f, hb⟩ | ⟨-, n, t, b, w, -, -, -, -, -, -, -, -, hb⟩ <;>
      rw [hb] at hload <;> cases hload <;> constructor <;> simp [WritesObuf]
  · simp only [spoilOnRaise_ok, andThen_ok] at h
    rcases bodyWalk_cases l (treed (loaded s w) b w) with ⟨hf, -⟩ | ⟨-, -, e', i, x, w', -, he, -, hb⟩ |
      ⟨-, -, a, -, -, hb⟩ | ⟨-, -, x, w', -, -, hl, -, hb⟩ | ⟨-, -, x, w', -, -, -, hb⟩
    · cases hf
    all_goals rw [hb] at h; cases h
    · rcases he with rfl | rfl <;> constructor <;> simp [WritesObuf, treed, loaded]
    · subst hl
      constructor <;> simp [WritesObuf, treed, loaded]

theorem bodyOf_raiseOk {i : Instr} {s u : State} {e : ErrCode} {info : Word} (h : bodyOf i s = .raise e info u) :
    RaiseOk i s e info u := by
  cases i with
  | nop => cases h
  | clear => cases h
  | freq => exact bodyFreq_raiseOk h
  | tree => exact bodyTree_raiseOk h
  | codes => exact bodyCodes_raiseOk h
  | pack => exact bodyPack_raiseOk h
  | load => exact bodyLoad_raiseOk h
  | walk l => exact bodyWalk_raiseOk h
  | compress => exact bodyCompress_raiseOk h
  | decompress l => exact bodyDecompress_raiseOk h

end Sys2Proof.Machine
end

section
/-! PROOFS. The requirements, the frames and the error entry (10_state.md section 6, 60_exceptions.md sections 1 to 3). -/

namespace Sys2Proof.Machine

/-- Settles O25: the first check of each unit body. -/
theorem missingRequirement : Obligations.MissingRequirement := fun _ =>
  ⟨fun h => congrArg settle (bodyTree_of_ftV h), fun h => congrArg settle (bodyCodes_of_treeV h),
    fun h => congrArg settle (bodyPack_of_ctV h), fun l h => congrArg settle (bodyWalk_of_flags l h)⟩

/-- Settles O26: no body and no completion step writes the host side. -/
theorem engineLeavesHostSide : Obligations.EngineLeavesHostSide := by
  intro i s t h0 h1 h
  rcases exec_next h0 h1 h with ⟨u, -, hu, rfl⟩ | ⟨e, info, u, -, hu, rfl⟩
  · exact hu.host.succeed
  · exact hu.host.errorEntry e info

/-- Settles O27: four bodies do not write OBUF; PACK and WALK write from offset 0 up to OUT_LEN. -/
theorem outputBufferFrame : Obligations.OutputBufferFrame := by
  refine ⟨fun i s t hi h => ?_, fun i s t hi hc h he => ?_⟩
  · have h0 : i ≠ .nop := by rintro rfl; simp at hi
    have h1 : i ≠ .clear := by rintro rfl; simp at hi
    obtain ⟨u, hu, rfl | ⟨e, info, rfl⟩⟩ := exec_bodyEnd h0 h1 h
    · exact (hu _ (bodyOf_obufSame hi s)).sameObuf
    · exact (hu _ (bodyOf_obufSame hi s)).sameObuf
  · have h0 : i ≠ .nop := by rintro rfl; simp at hi
    have h1 : i ≠ .clear := by rintro rfl; simp at hi
    rcases exec_next h0 h1 h with ⟨u, hr, -, rfl⟩ | ⟨e, info, u, -, -, rfl⟩
    · show ObufAbove s u
      rcases hi with rfl | ⟨l, rfl⟩ | rfl | ⟨l, rfl⟩
      · exact bodyPack_obufAbove hc hr
      · exact bodyWalk_obufAbove hc hr
      · obtain ⟨b, t, w, -, hp⟩ := of_bodyCompress_ok hr
        exact bodyPack_obufAbove (s := tabled s b t w) hc hp
      · obtain ⟨b, t, w, -, hp⟩ := of_bodyDecompress_ok hr
        exact bodyWalk_obufAbove (s := treed (loaded s w) b w) hc hp
    · cases he

/-- Settles O28: the frame of each body, which the completion step keeps. -/
theorem unitCommandFrames : Obligations.UnitCommandFrames := by
  refine ⟨fun s t h => ?_, fun s t h => ?_, fun s t h => ?_, fun s t h => ?_, fun s t h => ?_, fun l s t h => ?_⟩
  · obtain ⟨u, hu, rfl | ⟨e, info, rfl⟩⟩ := exec_bodyEnd (by decide) (by decide) h <;> exact hu _ (bodyFreq_frame s)
  · obtain ⟨u, hu, rfl | ⟨e, info, rfl⟩⟩ := exec_bodyEnd (by decide) (by decide) h <;> exact hu _ (bodyLoad_frame s)
  · obtain ⟨u, hu, rfl | ⟨e, info, rfl⟩⟩ := exec_bodyEnd (by decide) (by decide) h <;> exact hu _ (bodyTree_frame s)
  · obtain ⟨u, hu, rfl | ⟨e, info, rfl⟩⟩ := exec_bodyEnd (by decide) (by decide) h <;> exact hu _ (bodyCodes_frame s)
  · obtain ⟨u, hu, hend⟩ := exec_bodyEnd (by decide) (by decide) h
    obtain ⟨hsame, hmid⟩ := hu _ (bodyPack_frame s)
    rcases hend with rfl | ⟨e, info, rfl⟩
    · exact ⟨{ hsame with }, hmid⟩
    · exact ⟨{ hsame with outLen := rfl, errInfo := rfl }, hmid⟩
  · obtain ⟨u, hu, hend⟩ := exec_bodyEnd (by simp) (by simp) h
    have hsame := hu _ (bodyWalk_frame l s)
    rcases hend with rfl | ⟨e, info, rfl⟩
    · exact { hsame with }
    · exact { hsame with outLen := rfl, errInfo := rfl }

/-- Settles O30: how each body can raise, and what the error entry writes. -/
theorem errorEntry_of_raise : Obligations.ErrorEntry := by
  intro i s t herror h0 h1 h ht
  rcases exec_next h0 h1 h with ⟨u, -, hu, rfl⟩ | ⟨e, info, u, hr, hu, rfl⟩
  · obtain ⟨-, hue, -⟩ := hu.status
    have hfalse : (succeed u).error = false := hue.trans herror
    rw [hfalse] at ht
    cases ht
  · have hok := bodyOf_raiseOk hr
    obtain ⟨hnone, hill⟩ := hok.named
    refine ⟨rfl, rfl, rfl, hnone, hill, hu.host.errorEntry e info, hok.empty, hok.inlen, hok.overflow, hok.envelope,
      hok.midtree, hok.badpath, hok.seq, hok.invariant, ?_⟩
    split
    · next hw => exact hok.obufHavoc hw.1 hw.2
    · next hw => exact hok.obufKept (by rwa [not_and_or, not_not] at hw)

end Sys2Proof.Machine
end

section
/-! SUPPORT. FREQ's two errors, the sum of its counts, and the tree of one symbol (40_freq.md R101, R102, 41_tree.md
R111). -/

namespace Sys2Proof.Machine

/-! ### FREQ -/

theorem bodyFreq_of_empty {s : State} (h : s.inLen = 0#32) : bodyFreq s = .raise .empty 0#32 (startFreq s) := if_pos h

theorem bodyFreq_of_inlen {s : State} (h : s.inCap < s.inLen.toNat) :
    bodyFreq s = .raise .inlen s.inLen (startFreq s) := by
  have h0 : ¬ s.inLen = 0#32 := fun hz => by
    rw [hz] at h
    exact Nat.not_lt_zero _ h
  exact (if_neg h0).trans (if_pos h)

/-- The counts of the distinct bytes add up to the length. -/
theorem sum_count_eraseDups (bs : List Byte) : (bs.eraseDups.map fun b => bs.count b).sum = bs.length := by
  have hp : List.Perm bs.eraseDups bs.dedup :=
    (List.perm_ext_iff_of_nodup (nodup_eraseDups bs) bs.nodup_dedup).mpr fun b => by simp
  rw [(hp.map _).sum_eq]
  exact bs.sum_map_count_dedup_eq_length

theorem toNat_ofNat_count {bs : List Byte} (h : bs.length < 2 ^ 32) (b : Byte) :
    (BitVec.ofNat 32 (bs.count b)).toNat = bs.count b := by
  have := bs.count_le_length (a := b)
  rw [BitVec.toNat_ofNat, Nat.mod_eq_of_lt (by omega)]

theorem sum_stableTable {bs : List Byte} (h : bs.length < 2 ^ 32) :
    ((stableTable bs).map fun e => e.cnt.toNat).sum = bs.length := by
  rw [((stableTable_perm bs).map _).sum_eq, List.map_map, ← sum_count_eraseDups bs]
  exact congrArg List.sum (List.map_congr_left fun b _ => toNat_ofNat_count h b)

/-! ### The tree of one symbol -/

theorem Shape.syms_ne_nil (t : Shape) : t.syms ≠ [] := by
  obtain ⟨p, b, h⟩ := t.exists_mem_paths
  exact List.ne_nil_of_mem (Shape.mem_syms_of_path h)

/-- The only path of a tree of height 1 over one symbol is its LEFT edge. -/
theorem Shape.paths_of_single {t : Shape} {c : Byte} (hs : t.syms = [c]) (hi : t.isLeaf = false) (hh : t.height ≤ 1) :
    t.paths = [([false], c)] := by
  cases t with
  | leaf i b => cases hi
  | node i l r =>
    have hl := List.length_pos_iff.mpr l.syms_ne_nil
    have hr := List.length_pos_iff.mpr r.syms_ne_nil
    have hlen := congrArg List.length hs
    rw [Shape.syms, List.length_append, List.length_singleton] at hlen
    omega
  | wrap i l =>
    rw [Shape.height] at hh
    cases l with
    | leaf j b =>
      cases hs
      rfl
    | node j a b => rw [Shape.height] at hh; omega
    | wrap j a => rw [Shape.height] at hh; omega

theorem symbols_of_one {s : State} (h : s.ftN = 1#9) : s.symbols = [(tableGet s.ft 0#8).sym] := by
  have hget := tableTake_getElem? s.ft 1 0#8 (by decide)
  have hlist : tableTake s.ft 1 = [tableGet s.ft 0#8] := by
    obtain ⟨x, hx⟩ := List.length_eq_one_iff.mp (tableTake_length s.ft 1 (by decide))
    rw [hx] at hget ⊢
    exact congrArg (fun e => [e]) (Option.some.inj hget)
  rw [State.symbols, State.ftList, h]
  exact congrArg (List.map FtEntry.sym) hlist

/-! ### The arena -/

/-- The nodes behind the leaves of the one-symbol tree: its synthetic root (R111). -/
theorem singleArena_inner {c : Byte} {k : Nat} {e : NodeEntry} (hk : 1 ≤ k)
    (h : [leafNode c, innerNode 0#9 nilIdx][k]? = some e) : k = 1 ∧ e = innerNode 0#9 nilIdx := by
  obtain ⟨hlt, he⟩ := List.getElem?_eq_some_iff.mp h
  obtain rfl : k = 1 := by simp at hlt; omega
  exact ⟨rfl, he.symm⟩

/-- In the one-symbol tree the root is the one internal node. -/
theorem singleArena_parent {c : Byte} {k : Nat} {e : NodeEntry} (h : [leafNode c, innerNode 0#9 nilIdx][k]? = some e)
    (hl : e.leaf = false) : k = 1 := by
  cases k with
  | zero =>
    cases h
    cases hl
  | succ k => exact (singleArena_inner (Nat.le_add_left 1 k) h).1

/-! ### PACK -/

/-- What PACK wrote and what it left (R132). -/
theorem obufByte_packedMem {s : State} (hn : s.ftN.toNat ≤ 256) (bits : List Bool) (a : Nat) :
    State.obufByte { s with obuf := packedMem s.obuf s.ftList bits } a =
      if a < envSize s.ftN.toNat bits.length then byteAt (envelope s.ftList bits) a else s.obufByte a := by
  rw [State.obufByte, memRead_packedMem, ftList_length hn]
  split
  · rfl
  · rfl

end Sys2Proof.Machine
end

section
/-! PROOFS. FREQ, TREE, CODES and PACK as functions (40_freq.md, 41_tree.md, 42_codes.md, 43_pack.md). -/

namespace Sys2Proof.Machine

/-- Settles O31: the three ends of FREQ. -/
theorem freqBuildsStableTable : Obligations.FreqBuildsStableTable := by
  refine ⟨decode_eq_ok_iff.mpr rfl, fun s => ⟨fun h => congrArg settle (bodyFreq_of_empty h),
    fun h => congrArg settle (bodyFreq_of_inlen h), fun h0 h1 => ?_⟩⟩
  obtain ⟨w, -, h⟩ := bodyFreq_of_input h0 h1
  exact ⟨w, congrArg settle h⟩

/-- Settles O32: FT is the stable table of the input. -/
theorem freqTableIsOrdered : Obligations.FreqTableIsOrdered := by
  intro s h0 h1
  obtain ⟨w, -, h⟩ := bodyFreq_of_input h0 h1
  have hlen : s.input.length < 2 ^ 32 := by rw [input_length]; exact s.inLen.isLt
  have hlist := ftList_freqed s w
  refine ⟨succeed (freqed s w), congrArg settle h, ?_⟩
  show (freqed s w).ftList.length = (freqed s w).ftN.toNat ∧ TableOk (freqed s w).ftList ∧ _
  refine ⟨by rw [hlist, ftN_freqed], tableOk_freqed h0 w, ?_⟩
  show (∀ b, b ∈ s.input ↔ ∃ e ∈ (freqed s w).ftList, e.sym = b) ∧
    (∀ e ∈ (freqed s w).ftList, e.cnt.toNat = s.input.count e.sym) ∧
    ((freqed s w).ftList.map fun e => e.cnt.toNat).sum = s.inLen.toNat ∧
    (freqed s w).ftList.Pairwise (Before fun e => s.input.idxOf e.sym)
  rw [hlist, ← input_length s]
  refine ⟨fun b => ?_, fun e he => ?_, sum_stableTable hlen, stableTable_before s.input⟩
  · rw [← mem_inputSyms, inputSyms, List.mem_map]
  · rw [((mem_stableTable s.input e).mp he).2, toNat_ofNat_count hlen]

/-- Settles O33: ERR_SEQ, the tree of a table, and the spec's example by evaluation. -/
theorem treeBuildsFromTable : Obligations.TreeBuildsFromTable := by
  refine ⟨decode_eq_ok_iff.mpr rfl, fun s h => congrArg settle (bodyTree_of_ftV h), fun s hv h1 h2 => ?_, by decide⟩
  obtain ⟨b, t, w, hbt, -, h⟩ := bodyTree_of_table hv h1 h2
  exact ⟨b, w, hbt.built, congrArg settle h⟩

/-- Settles O35: the arena as the forest that the merging passes leave, with the one-symbol tree apart. -/
theorem treeArenaLayout : Obligations.TreeArenaLayout := by
  intro syms h1 h2
  obtain ⟨b, t, hb, -, -, -, -, -, -, hroot, hlen, hleaves, -⟩ := buildTree_shape syms h1 h2
  refine ⟨b, hb, hlen, hroot, fun i hi => ?leaves, ?rest⟩
  case leaves =>
    obtain ⟨more, hmore⟩ := hleaves
    rw [← hmore, List.getElem?_append_left (by simpa using hi), List.getElem?_map]
  case rest =>
    by_cases hone : syms.length = 1
    · obtain ⟨c, rfl⟩ := List.length_eq_one_iff.mp hone
      cases hb.symm.trans (buildTree_one c)
      refine ⟨fun k e hk he => ?_, fun j hj => ⟨1, _, rfl, rfl, .inl ?_, fun k' e' he' hl' _ => singleArena_parent he' hl'⟩⟩
      · obtain ⟨rfl, rfl⟩ := singleArena_inner hk he
        exact ⟨rfl, rfl, Nat.zero_lt_one, .inl ⟨rfl, rfl⟩⟩
      · exact BitVec.eq_of_toNat_eq (Nat.lt_one_iff.mp hj).symm
    · obtain ⟨b', hb', hf⟩ := buildTree_forest syms (by omega) h2
      cases hb.symm.trans hb'
      refine ⟨fun k e hk he => ?_, fun j hj => ?_⟩
      · obtain ⟨x, y, rfl, hx, hy, hxy⟩ := hf.inner k e hk he
        exact ⟨rfl, rfl, hx, .inr ⟨hy, hxy.symm, by omega⟩⟩
      · rcases hf.covered j (by omega) with hj' | ⟨k, hk⟩
        · rw [List.mem_singleton.mp hj'] at hj
          exact absurd hj (Nat.lt_irrefl _)
        · obtain ⟨e, he, hleaf, hchild⟩ := hk
          exact ⟨k, e, he, hleaf, hchild, fun k' e' he' hl' hc' =>
            (hf.unique j k k' ⟨e, he, hleaf, hchild⟩ ⟨e', he', hl', hc'⟩).symm⟩

/-- Settles O36: a path of the tree is no longer than the tree is high. -/
theorem treeDepthBound : Obligations.TreeDepthBound := by
  intro syms b node p l h1 h2 hb hnode hp
  obtain ⟨b', t, hbt⟩ := exists_treeShape syms h1 h2
  cases hb.symm.trans hbt.built
  rw [← hbt.root_eq] at hp
  have hmem := Shape.leafPath_mem (hbt.inArena.inNodes hnode) hp
  have hne := t.paths_ne_nil hbt.inner _ hmem
  have hle := (t.paths_length _ hmem).trans hbt.height_le
  exact ⟨List.length_pos_iff.mpr hne, hle, hle.trans (max_clog_le_eight h2)⟩

/-- Settles O38: CODES writes the code table of the tree's paths. -/
theorem codesRecordsPaths : Obligations.CodesRecordsPaths := by
  intro s h hv
  obtain ⟨hd, -⟩ := s.inv_iff.mp h
  have hnodup := hd.symbols_nodup (hd.treeNeedsTable hv)
  obtain ⟨t, ht⟩ := hd.exists_treeIn hv
  obtain ⟨w, -, hbody⟩ := bodyCodes_of_tree hv ht hnodup
  rw [← ht.syms_eq] at hnodup ⊢
  refine ⟨codesOf t, w, congrArg settle hbody, fun p l hp => ?_, fun b hb => ?_, fun b hb => ?_⟩
  · rw [← ht.root_eq] at hp
    exact tableGet_codesOf_of_path hnodup (Shape.leafPath_mem ht.inNodes hp)
  · obtain ⟨p, hp⟩ := Shape.exists_path hb
    rw [← ht.root_eq]
    exact ⟨p, Shape.mem_leafPath ht.inNodes hp⟩
  · exact tableGet_codesOf_of_notMem hb

/-- Settles O39: the codes are the paths of a tree, none of which begins another. -/
theorem codesArePrefixFree : Obligations.CodesArePrefixFree := by
  intro s h hv
  obtain ⟨hd, -⟩ := s.inv_iff.mp h
  have htree := hd.codesNeedTree hv
  have hnodup := hd.symbols_nodup (hd.treeNeedsTable htree)
  obtain ⟨t, ht⟩ := hd.exists_treeIn htree
  have hct : s.ct = codesOf t := Run.ok.inj ((hd.codesValid hv).symm.trans (ht.buildCodes hnodup))
  rw [hct, ← ht.syms_eq]
  rw [← ht.syms_eq] at hnodup
  refine ⟨valid_codesOf_iff hnodup, fun b hb => ?lengths, fun b c hb hc hne hpre => hne ?prefixFree⟩
  case lengths =>
    obtain ⟨p, hp⟩ := Shape.exists_path hb
    have hpos := List.length_pos_iff.mpr (t.paths_ne_nil ht.inner _ hp)
    have hle := (t.paths_length _ hp).trans ht.height_le
    rw [tableGet_codesOf_of_path hnodup hp, codeOfPath]
    simp only [BitVec.toNat_ofNat] at hpos hle ⊢
    omega
  case prefixFree =>
    obtain ⟨p, hp⟩ := Shape.exists_path hb
    obtain ⟨q, hq⟩ := Shape.exists_path hc
    rw [codeBits_codesOf hnodup ht.height_le hp, codeBits_codesOf hnodup ht.height_le hq] at hpre
    exact congrArg Prod.snd (t.paths_prefix _ hp _ hq hpre)

/-- Settles O40: the tree of one symbol is its leaf under the synthetic root. -/
theorem singleSymbolCode : Obligations.SingleSymbolCode := by
  intro s hv hn
  obtain ⟨b, t, w, hbt, -, htree⟩ := bodyTree_of_table hv (by rw [hn]; decide) (by rw [hn]; decide)
  have hsyms := symbols_of_one hn
  have hnodup : s.symbols.Nodup := by rw [hsyms]; exact List.nodup_singleton _
  obtain ⟨w', -, hcodes⟩ := bodyCodes_of_tree (s := succeed (treed s b w)) rfl
    (hbt.treeIn_overlay (by rw [hsyms, List.length_singleton]; decide) s.node) hnodup
  have ht := hbt.syms_eq
  have hheight := hbt.height_le
  rw [hsyms] at ht hheight
  have hpaths := Shape.paths_of_single ht hbt.inner hheight
  refine ⟨_, _, congrArg settle htree, congrArg settle hcodes, rfl, fun x => ?_⟩
  show tableGet (codesOf t) x = _
  split
  · next hx =>
    rw [hx, tableGet_codesOf_of_path (p := [false]) (by rw [ht]; exact List.nodup_singleton _) (by rw [hpaths]; simp)]
    decide
  · next hx => exact tableGet_codesOf_of_notMem (by rw [ht, List.mem_singleton]; exact hx)

/-- Settles O41: the packer's memory reads as the envelope. -/
theorem packWritesEnvelope : Obligations.PackWritesEnvelope := by
  intro s hv hin hn hcoded bits size hsize
  obtain ⟨w, -, h⟩ := bodyPack_of_packable hv ⟨hin, hn, hcoded, hsize⟩
  exact ⟨_, w, congrArg settle h, obufByte_packedMem hn bits⟩

end Sys2Proof.Machine
end

section
/-! SUPPORT. The fields of the envelope of a table and a bit sequence, that it is well-formed (30_encoding.md R90, R91), and
the conditions of LOAD as the conditions of R91 (44_decode.md R141, R142). -/

namespace Sys2Proof.Machine

/-! ### Byte strings -/

theorem byteAt_append_left {l : List Byte} (m : List Byte) {i : Nat} (h : i < l.length) :
    byteAt (l ++ m) i = byteAt l i := by
  rw [byteAt, byteAt, List.getElem?_append_left h]

theorem byteAt_append_right {l : List Byte} (m : List Byte) {i : Nat} (h : l.length ≤ i) :
    byteAt (l ++ m) i = byteAt m (i - l.length) := by
  rw [byteAt, byteAt, List.getElem?_append_right h]

theorem u16le_bytes16 {n : Nat} (h : n < 2 ^ 16) : fieldU16 (bytes16 n) 0 = n := by
  simp only [fieldU16, bytes16, byteAt, u16le, List.getElem?_cons_zero, List.getElem?_cons_succ, Option.getD_some,
    BitVec.toNat_ofNat]
  omega

theorem u32le_bytes32 {n : Nat} (h : n < 2 ^ 32) : fieldU32 (bytes32 n) 0 = n := by
  simp only [fieldU32, bytes32, byteAt, u32le, List.getElem?_cons_zero, List.getElem?_cons_succ, Option.getD_some,
    BitVec.toNat_ofNat, Nat.zero_add]
  omega

/-- A field is where its bytes are. -/
theorem fieldU32_congr {e f : List Byte} {i j : Nat} (h : ∀ k, k < 4 → byteAt e (i + k) = byteAt f (j + k)) :
    fieldU32 e i = fieldU32 f j := by
  have h0 := h 0 (by decide)
  rw [Nat.add_zero, Nat.add_zero] at h0
  rw [fieldU32, fieldU32, h0, h 1 (by decide), h 2 (by decide), h 3 (by decide)]

/-! ### The envelope's fields -/

theorem byteAt_flatMap_entryBytes (t : List FtEntry) {i k : Nat} (hi : i < t.length) (hk : k < 5) :
    byteAt (t.flatMap entryBytes) (5 * i + k) = byteAt (entryBytes t[i]) k := by
  induction t generalizing i with
  | nil => cases hi
  | cons e t ih =>
    rw [List.flatMap_cons]
    cases i with
    | zero =>
      rw [byteAt_append_left _ (by rw [entryBytes_length]; omega), Nat.mul_zero, Nat.zero_add]
      rfl
    | succ i =>
      rw [byteAt_append_right _ (by rw [entryBytes_length]; omega), entryBytes_length,
        show 5 * (i + 1) + k - 5 = 5 * i + k by omega]
      exact ih (Nat.lt_of_succ_lt_succ hi)

section
variable (t : List FtEntry) (bits : List Bool)

theorem byteAt_envelope_entry {i k : Nat} (hi : i < t.length) (hk : k < 5) :
    byteAt (envelope t bits) (2 + 5 * i + k) = byteAt (entryBytes t[i]) k := by
  have hh := headerBytes_length t
  rw [envelope, List.append_assoc, byteAt_append_left _ (by omega), headerBytes,
    byteAt_append_right _ (by show 2 ≤ _; omega), ← byteAt_flatMap_entryBytes t hi hk]
  congr 1
  show 2 + 5 * i + k - 2 = _
  omega

theorem byteAt_envelope_length {k : Nat} (hk : k < 4) :
    byteAt (envelope t bits) (2 + 5 * t.length + k) = byteAt (bytes32 bits.length) k := by
  rw [envelope, List.append_assoc, byteAt_append_right _ (by rw [headerBytes_length]; omega), headerBytes_length,
    byteAt_append_left _ (by show _ < 4; omega), Nat.add_sub_cancel_left]

theorem byteAt_envelope_payload {j : Nat} (hj : j < ceil8 bits.length) :
    byteAt (envelope t bits) (6 + 5 * t.length + j) = payloadByte bits j := by
  have hl : (headerBytes t ++ bytes32 bits.length).length = 6 + 5 * t.length := by
    rw [List.length_append, headerBytes_length]
    show _ + 4 = _
    omega
  rw [envelope, byteAt_append_right _ (by omega), hl, Nat.add_sub_cancel_left, byteAt, payloadBytes_eq]
  simp [hj]

theorem envN_envelope (h : t.length < 2 ^ 16) : envN (envelope t bits) = t.length := by
  rw [← u16le_bytes16 h, envN, fieldU16, fieldU16, envelope, headerBytes, List.append_assoc, List.append_assoc,
    byteAt_append_left _ (by show _ < 2; omega), byteAt_append_left _ (by show _ < 2; omega)]

theorem envSym_envelope {i : Nat} (hi : i < t.length) : envSym (envelope t bits) i = t[i].sym :=
  byteAt_envelope_entry t bits hi (k := 0) (by decide)

theorem envCnt_envelope {i : Nat} (hi : i < t.length) : envCnt (envelope t bits) i = t[i].cnt.toNat := by
  rw [envCnt, ← u32le_bytes32 t[i].cnt.isLt]
  refine fieldU32_congr fun k hk => ?_
  rw [show 3 + 5 * i + k = 2 + 5 * i + (k + 1) by omega, byteAt_envelope_entry t bits hi (by omega), Nat.zero_add]
  rfl

theorem envB_envelope (h : t.length < 2 ^ 16) (hb : bits.length < 2 ^ 32) : envB (envelope t bits) = bits.length := by
  rw [envB, envN_envelope t bits h, ← u32le_bytes32 hb]
  refine fieldU32_congr fun k hk => ?_
  rw [byteAt_envelope_length t bits hk, Nat.zero_add]

/-- The table of an envelope is the one it was made of. -/
theorem envTable_envelope (h : t.length < 2 ^ 16) : envTable (envelope t bits) = t := by
  refine List.ext_getElem (by simp [envTable, envN_envelope t bits h]) fun i h1 h2 => ?_
  simp [envTable, envSym_envelope t bits h2, envCnt_envelope t bits h2]

/-- The payload bits of an envelope are the ones it was made of (R52, R55). -/
theorem payloadBits_envelope :
    ((List.range bits.length).map fun k =>
      (byteAt (envelope t bits) (6 + 5 * t.length + k / 8)).getLsbD (k % 8)) = bits := by
  refine List.ext_getElem (by simp) fun k h1 h2 => ?_
  rw [List.getElem_map, List.getElem_range, byteAt_envelope_payload t bits (by rw [ceil8]; omega), payloadByte,
    byteOfBits_getLsbD, Nat.div_add_mod, List.getElem?_eq_getElem h2]
  simp [Nat.mod_lt]

/-- The envelope of a valid table is well-formed (R91). -/
theorem envelopeOk_envelope (ht : TableOk t) (hb : bits.length < 2 ^ 32) : EnvelopeOk (envelope t bits) := by
  obtain ⟨h1, h256⟩ := ht.size
  have hn := envN_envelope t bits (by omega)
  have hB := envB_envelope t bits (by omega) hb
  have hlen := envelope_length t bits
  refine ⟨by rw [hlen, envSize]; omega, by rw [hn]; exact ht.size, by rw [hn, hlen, envSize]; omega, fun i hi => ?_,
    fun i hi0 hi => ?_, fun i j hi hj hij => ?_, by rw [hn, hB, hlen], fun hpart k hk hk8 => ?_⟩
  · rw [hn] at hi
    rw [envCnt_envelope t bits hi]
    have hpos := ht.positive t[i] (List.getElem_mem hi)
    exact Nat.pos_of_ne_zero fun hz => hpos (BitVec.eq_of_toNat_eq hz)
  · rw [hn] at hi
    rw [envCnt_envelope t bits hi, envCnt_envelope t bits (by omega)]
    exact List.pairwise_iff_getElem.mp ht.ascending (i - 1) i (by omega) hi (by omega)
  · rw [hn] at hi hj
    rw [envSym_envelope t bits hi, envSym_envelope t bits hj]
    intro he
    refine hij ((ht.distinct.getElem_inj_iff (hi := by simpa using hi) (hj := by simpa using hj)).mp ?_)
    rw [List.getElem_map, List.getElem_map, he]
  · rw [hB] at hpart hk
    have hlast : (envelope t bits).length - 1 = 6 + 5 * t.length + bits.length / 8 := by
      rw [hlen, envSize, ceil8]; omega
    rw [hlast, byteAt_envelope_payload t bits (by rw [ceil8]; omega), payloadByte, byteOfBits_getLsbD,
      List.getElem?_eq_none (by omega)]
    simp

end

/-- The bytes of OBUF that PACK leaves below OUT_LEN (R132). -/
theorem obufBytes_packed {s : State} (hn : s.ftN.toNat ≤ 256) (w : Work) :
    (packed s w).obufBytes (envSize s.ftN.toNat (encodeBits s.ct s.input).length) =
      envelope s.ftList (encodeBits s.ct s.input) := by
  have hlen := envelope_length s.ftList (encodeBits s.ct s.input)
  rw [ftList_length hn] at hlen
  refine List.ext_getElem (by simp [State.obufBytes, hlen]) fun a h1 h2 => ?_
  rw [hlen] at h2
  simp only [State.obufBytes, List.getElem_map, List.getElem_range]
  refine (obufByte_packedMem hn (encodeBits s.ct s.input) a).trans ?_
  rw [if_pos h2, byteAt, List.getElem?_eq_getElem (by omega), Option.getD_some]

/-! ### LOAD's conditions and those of R91 -/

theorem ushiftRight_eq_zero_iff (b : Byte) (r : Nat) :
    b >>> r = 0#8 ↔ ∀ t, r ≤ t → t < 8 → b.getLsbD t = false := by
  constructor
  · intro h t hr ht
    have hbit := congrArg (fun x => x.getLsbD (t - r)) h
    simpa [show r + (t - r) = t by omega] using hbit
  · intro h
    refine BitVec.eq_of_getLsbD_eq fun i hi => ?_
    rw [BitVec.getLsbD_ushiftRight, BitVec.getLsbD_zero]
    by_cases hlt : r + i < 8
    · exact h (r + i) (Nat.le_add_right r i) hlt
    · exact BitVec.getLsbD_of_ge b (r + i) (by omega)

section
variable {s : State} (h2 : 2 ≤ s.inLen.toNat) (hn : 6 + 5 * envN s.input ≤ s.inLen.toNat)
include hn

/-- An entry LOAD refuses is one that breaks (d), (e) or (f) of R91. -/
theorem entryBad_iff {i : Nat} (hi : i < envN s.input) :
    EntryBad s i ↔ envCnt s.input i = 0 ∨ (0 < i ∧ envCnt s.input i < envCnt s.input (i - 1)) ∨
      ∃ j, j < i ∧ envSym s.input j = envSym s.input i := by
  rw [EntryBad, envCnt_input (by omega), envCnt_input (by omega), envSym_input (by omega)]
  refine or_congr_right (or_congr_right (exists_congr fun j => and_congr_right fun hj => ?_))
  rw [envSym_input (by omega)]

include h2

theorem envTable_input : envTable s.input = loadedTable s (ibuf16 s 0) := by
  rw [envTable, loadedTable, envN_input h2]
  rw [envN_input h2] at hn
  refine List.map_congr_left fun i hi => ?_
  rw [List.mem_range] at hi
  rw [loadedEntry, envSym_input (by omega), envCnt_input (by omega)]

end

/-- LOAD accepts exactly the well-formed envelopes that fit IBUF (R142). -/
theorem loadable_iff (s : State) : Loadable s ↔ s.inLen.toNat ≤ s.inCap ∧ EnvelopeOk s.input := by
  constructor
  · intro h
    have h2 := h.two_le
    have hN := envN_input h2
    have hsize := h.size
    have hn : 6 + 5 * envN s.input ≤ s.inLen.toNat := by rw [hN]; omega
    have hB := envB_input h2 hn
    have hgood : ∀ i, i < envN s.input → ¬ EntryBad s i := fun i hi => h.entries i (hN ▸ hi)
    refine ⟨h.input, by rw [input_length]; exact h2, by rw [hN]; exact h.count, by rw [input_length]; exact hn,
      fun i hi => ?_, fun i hi0 hi => ?_, fun i j hi hj hij he => ?_, ?_, fun hp => ?_⟩
    · exact Nat.pos_of_ne_zero fun hz => hgood i hi ((entryBad_iff hn hi).mpr (.inl hz))
    · exact Nat.le_of_not_lt fun hlt => hgood i hi ((entryBad_iff hn hi).mpr (.inr (.inl ⟨hi0, hlt⟩)))
    · rcases Nat.lt_or_gt_of_ne hij with hlt | hlt
      · exact hgood j hj ((entryBad_iff hn hj).mpr (.inr (.inr ⟨i, hlt, he⟩)))
      · exact hgood i hi ((entryBad_iff hn hi).mpr (.inr (.inr ⟨j, hlt, he.symm⟩)))
    · rw [input_length, hN, hB, envSize, hsize]
    · rw [hB] at hp ⊢
      rw [input_length, byteAt_input (by omega)]
      exact (ushiftRight_eq_zero_iff _ _).mp (h.padding hp)
  · rintro ⟨hin, h⟩
    have h2 : 2 ≤ s.inLen.toNat := by rw [← input_length]; exact h.holdsCount
    have hn : 6 + 5 * envN s.input ≤ s.inLen.toNat := by rw [← input_length]; exact h.holdsTable
    have hN := envN_input h2
    have hB := envB_input h2 hn
    refine ⟨hin, hN ▸ h.countRange, fun i hi hbad => ?_, ?_, fun hp => ?_⟩
    · rw [← hN] at hi
      rcases (entryBad_iff hn hi).mp hbad with hz | ⟨hi0, hlt⟩ | ⟨j, hj, he⟩
      · have := h.positive i hi; omega
      · have := h.ascending i hi0 hi; omega
      · exact h.distinct j i (by omega) hi (by omega) he
    · rw [← hB, ← hN, ← input_length, h.exactSize, envSize]
    · rw [← hB] at hp ⊢
      have hpad := h.padding hp
      rw [input_length, byteAt_input (by omega)] at hpad
      exact (ushiftRight_eq_zero_iff _ _).mpr hpad

/-- An error of LOAD as its completion shows it (R176). -/
theorem load_fails {s u : State} {c : ErrCode} {info : Word} (h : bodyLoad s = .raise c info u) :
    ∃ t, exec .load s = .next t ∧ t.error = true ∧ t.err = c ∧ t.errInfo = info :=
  ⟨errorEntry c info u, congrArg settle h, rfl, rfl, rfl⟩

end Sys2Proof.Machine
end

section
/-! PROOFS. The envelopes PACK writes and LOAD accepts (30_encoding.md section 4, 44_decode.md section 2). -/

namespace Sys2Proof.Machine

/-- Settles O43: the envelope of a valid table. -/
theorem packedEnvelopeWellFormed : Obligations.PackedEnvelopeWellFormed := by
  intro s h hv hin hcoded hsize
  obtain ⟨hd, -⟩ := s.inv_iff.mp h
  obtain ⟨hn, -⟩ := hd.tableCount
  have htable := hd.tableValid (hd.treeNeedsTable (hd.codesNeedTree hv))
  obtain ⟨w, -, hbody⟩ := bodyPack_of_packable hv ⟨hin, hn, hcoded, hsize⟩
  have hcap := hd.outCapRange.2
  have hbits : (encodeBits s.ct s.input).length < 2 ^ 32 := by rw [envSize, ceil8] at hsize; omega
  refine ⟨succeed (packed s w), congrArg settle hbody, rfl, ?_⟩
  have hlen : (packed s w).outLen.toNat = envSize s.ftN.toNat (encodeBits s.ct s.input).length :=
    toNat_ofNat_of_le_cap hcap hsize
  show EnvelopeOk ((packed s w).obufBytes (packed s w).outLen.toNat)
  rw [hlen, obufBytes_packed hn]
  exact envelopeOk_envelope _ _ htable hbits

/-- Settles O44: LOAD succeeds exactly where `Loadable` holds, which is R91. -/
theorem loadAcceptsExactlyEnvelopes : Obligations.LoadAcceptsExactlyEnvelopes := by
  refine fun s => ⟨fun hin hok => ?_, fun hbad => ?_⟩
  · have hl := (loadable_iff s).mpr ⟨hin, hok⟩
    have h2 := hl.two_le
    have hn : 6 + 5 * envN s.input ≤ s.inLen.toNat := by rw [← input_length]; exact hok.holdsTable
    rw [envTable_input h2 hn, envB_input h2 hn, envN_input h2]
    exact ⟨_, congrArg settle (bodyLoad_of_loadable hl)⟩
  · rcases bodyLoad_cases s with ⟨hlt, h⟩ | ⟨hle, i, f, h⟩ | ⟨-, n, t, b, w, -, -, -, -, -, -, -, -, h⟩
    · rw [if_pos hlt]
      exact ⟨_, _, congrArg settle h⟩
    · rw [if_neg (Nat.not_lt.mpr hle)]
      exact ⟨f, i, congrArg settle h⟩
    · exact absurd ((loadable_iff s).mp (of_bodyLoad_ok h).1) hbad

/-- Settles O45: the checks of LOAD in their order. -/
theorem loadReportsFirstFault : Obligations.LoadReportsFirstFault := by
  intro s
  refine ⟨fun hlt => ?_, fun hin => ⟨fun hs => load_fails (bodyLoad_of_short hin hs), fun h2 hc => ?_,
    fun h2 h1 h256 hcut => ?_, ?table⟩⟩
  · obtain ⟨t, ht, herror, herr, hinfo⟩ := load_fails (bodyLoad_of_inlen hlt)
    exact ⟨t, ht, herror, herr, hinfo.trans (by simp)⟩
  · rw [envN_input h2] at hc
    exact load_fails (bodyLoad_of_count hin h2 hc)
  · rw [envN_input h2] at h1 h256 hcut
    exact load_fails (bodyLoad_of_cut hin h2 h1 h256 hcut)
  case table =>
    rintro ⟨h2, h1, h256, hn⟩
    have hN := envN_input h2
    have hB := envB_input h2 hn
    have hbad := fun i hi => entryBad_iff (i := i) hn hi
    refine ⟨fun i hi hb hgood => ?_, fun hgood => ?_⟩
    · refine load_fails (bodyLoad_of_badEntry hin h2 (hN ▸ h1) (hN ▸ h256) (hN ▸ hn) (hN ▸ hi) ((hbad i hi).mpr hb)
        fun j hj he => hgood j hj ((hbad j (by omega)).mp he))
    · have hbody := bodyLoad_of_goodEntries hin h2 (hN ▸ h1) (hN ▸ h256) (hN ▸ hn) fun j hj he =>
        hgood j (hN ▸ hj) ((hbad j (hN ▸ hj)).mp he)
      rw [← hB, ← hN] at hbody
      refine ⟨fun hsize => ?_, fun hsize hpart hpad => ?_⟩
      · rw [envSize] at hsize
        rw [if_pos hsize] at hbody
        exact load_fails hbody
      · rw [byteAt_input (by omega)] at hpad
        rw [envSize] at hsize
        rw [if_neg (not_not.mpr hsize), if_pos ⟨hpart, hpad⟩] at hbody
        exact load_fails hbody

end Sys2Proof.Machine
end

section
/-! SUPPORT. What WALK comes to by the decoding function of its tree's code, and the decoder of R146 against the loop of
R145 (44_decode.md R145 to R148). -/

namespace Sys2Proof.Machine

/-! ### The ends of WALK -/

section
variable {s : State} (ht : s.treeV = true) (hp : s.payV = true) (l : Bool) {x : Walker}
include ht hp

theorem bodyWalk_of_raise {e : ErrCode} {i : Word} (h : walkBits (startWalk s) = .raise e i x) :
    ∃ w, bodyWalk l s = .raise e i { havocObuf (startWalk s) with work := w } := by
  rcases bodyWalk_cases l s with ⟨hf, -⟩ | ⟨-, -, e', i', x', w, hx, -, -, hb⟩ | ⟨-, -, a, -, hx, -⟩ |
    ⟨-, -, x', w, hx, -⟩ | ⟨-, -, x', w, hx, -⟩
  · rw [ht, hp] at hf; cases hf
  · cases h.symm.trans hx
    exact ⟨w, hb⟩
  all_goals cases h.symm.trans hx

theorem bodyWalk_of_ok (h : walkBits (startWalk s) = .ok x) (hend : x.cur = s.root ∨ l = true) :
    ∃ w, bodyWalk l s = .ok (walked s x (decide (x.cur ≠ s.root)) w) := by
  rcases bodyWalk_cases l s with ⟨hf, -⟩ | ⟨-, -, e', i', x', w, hx, -⟩ | ⟨-, -, a, -, hx, -⟩ |
    ⟨-, -, x', w, hx, hne, hl, -⟩ | ⟨-, -, x', w, hx, -, -, hb⟩
  · rw [ht, hp] at hf; cases hf
  · cases h.symm.trans hx
  · cases h.symm.trans hx
  · cases h.symm.trans hx
    rcases hend with he | he
    · exact absurd he hne
    · rw [he] at hl; cases hl
  · cases h.symm.trans hx
    exact ⟨w, hb⟩

theorem bodyWalk_of_midtree (h : walkBits (startWalk s) = .ok x) (hne : x.cur ≠ s.root) (hl : l = false) :
    ∃ w, bodyWalk l s = .raise .midtree s.decBits { havocObuf (startWalk s) with work := w } := by
  rcases bodyWalk_cases l s with ⟨hf, -⟩ | ⟨-, -, e', i', x', w, hx, -⟩ | ⟨-, -, a, -, hx, -⟩ |
    ⟨-, -, x', w, hx, -, -, -, hb⟩ | ⟨-, -, x', w, hx, hend, -, -⟩
  · rw [ht, hp] at hf; cases hf
  · cases h.symm.trans hx
  · cases h.symm.trans hx
  · cases h.symm.trans hx
    exact ⟨w, hb⟩
  · cases h.symm.trans hx
    rcases hend with he | he
    · exact absurd he hne
    · rw [hl] at he; cases he

end

/-! ### WALK as a function -/

/-- WALK raises the code and leaves OBUF havoc; ERRINFO of ERR_MIDTREE is DEC_BITS (R145, R173). -/
def WalkFails (l : Bool) (s : State) (e : ErrCode) : Prop :=
  ∃ i w, bodyWalk l s = .raise e i { havocObuf (startWalk s) with work := w } ∧ (e = .midtree → i = s.decBits)

/-- WALK writes the output from offset 0 (R145). -/
def WalkSucceeds (l : Bool) (s : State) (out : List Byte) (mid : Bool) : Prop :=
  ∃ x w, bodyWalk l s = .ok (walked s x mid w) ∧ x.obuf = memWriteList s.obuf 0 out ∧ x.opos = out.length

/-- WALK comes to what the decoding came to (R148). -/
structure WalkResult (l : Bool) (s : State) (r : List Byte × DecodeEnd) : Prop where
  overflow : s.outCap < r.1.length → WalkFails l s .overflow
  complete : r.1.length ≤ s.outCap → r.2 = .complete → WalkSucceeds l s r.1 false
  lenient : r.1.length ≤ s.outCap → r.2 = .incomplete → l = true → WalkSucceeds l s r.1 true
  strict : r.1.length ≤ s.outCap → r.2 = .incomplete → l = false → WalkFails l s .midtree
  badPath : r.1.length ≤ s.outCap → r.2 = .badPath → WalkFails l s .badpath

/-- The payload as the bits R145 reads (R55). -/
def State.payloadBits (s : State) : List Bool := (List.range s.decBits.toNat).map (payBit s)

theorem walkResult {s : State} {syms : List Byte} {t : Shape} {code : List (List Bool × Byte)} (l : Bool)
    (htree : s.treeV = true) (hpay : s.payV = true) (ht : TreeIn s.node s.root syms t) (hc : IsCodeOf code t)
    (hp : s.PayloadInside) : WalkResult l s (decodeCode code [] s.payloadBits) := by
  have hagrees := walkBits_agrees (s := startWalk s) ht hc hp
  change WalkAgrees (startWalk s) (walkStart (startWalk s)) (decodeCode code [] s.payloadBits) _ at hagrees
  generalize decodeCode code [] s.payloadBits = r at hagrees ⊢
  obtain ⟨hover, hfits⟩ := hagrees
  have hzero : (walkStart (startWalk s)).opos + r.1.length = r.1.length := Nat.zero_add _
  rw [hzero] at hover hfits
  refine ⟨fun ho => ?_, fun hf he => ?_, fun hf he hl => ?_, fun hf he hl => ?_, fun hf he => ?_⟩
  · obtain ⟨i, x, hx⟩ := hover ho
    obtain ⟨w, hw⟩ := bodyWalk_of_raise htree hpay l hx
    exact ⟨i, w, hw, fun h => by cases h⟩
  · obtain ⟨x, hx, hcur, hobuf, hopos⟩ := (hfits hf).2.1 he
    have hcur : x.cur = s.root := hcur
    obtain ⟨w, hw⟩ := bodyWalk_of_ok htree hpay l hx (.inl hcur)
    rw [decide_eq_false (not_not.mpr hcur)] at hw
    exact ⟨x, w, hw, hobuf, hopos.trans (Nat.zero_add _)⟩
  · obtain ⟨x, hx, hcur, hobuf, hopos⟩ := (hfits hf).2.2 he
    have hcur : x.cur ≠ s.root := hcur
    obtain ⟨w, hw⟩ := bodyWalk_of_ok htree hpay l hx (.inr hl)
    rw [decide_eq_true hcur] at hw
    exact ⟨x, w, hw, hobuf, hopos.trans (Nat.zero_add _)⟩
  · obtain ⟨x, hx, hcur, -⟩ := (hfits hf).2.2 he
    obtain ⟨w, hw⟩ := bodyWalk_of_midtree htree hpay l hx hcur hl
    exact ⟨_, w, hw, fun _ => rfl⟩
  · obtain ⟨i, x, hx⟩ := (hfits hf).1 he
    obtain ⟨w, hw⟩ := bodyWalk_of_raise htree hpay l hx
    exact ⟨i, w, hw, fun h => by cases h⟩

/-- OBUF with an output written from offset 0. -/
theorem obufByte_memWriteList (s : State) (out : List Byte) (a : Nat) :
    State.obufByte { s with obuf := memWriteList s.obuf 0 out } a = (out[a]?).getD (s.obufByte a) := by
  rw [State.obufByte, memRead_writeList, Nat.zero_add, Nat.sub_zero]
  by_cases h : a < out.length
  · rw [if_pos ⟨Nat.zero_le a, h⟩, List.getElem?_eq_getElem h, Option.getD_some, Option.getD_some]
  · rw [if_neg fun hx => h hx.2, List.getElem?_eq_none (Nat.le_of_not_lt h), Option.getD_none]
    rfl

/-! ### The decoder as a state machine -/

/-- The decoder reaches a state. -/
def WalkFsm.Reaches (l : Bool) (s : State) (x y : WalkFsm) : Prop := ∃ n, walkFsmRun l s n x = y

/-- The decoder at the top of W_BIT, its variables those of the loop of R145. -/
def WalkFsm.atBit (w : Walker) (outLen : Word) (mid : Bool) : WalkFsm :=
  ⟨.bit, w.cur, w.bpos, w.opos, w.obuf, outLen, mid⟩

/-- The decoder at the top of W_END. -/
def WalkFsm.atEnd (w : Walker) (outLen : Word) (mid : Bool) : WalkFsm :=
  ⟨.fin, w.cur, w.bpos, w.opos, w.obuf, outLen, mid⟩

section
variable {s : State} {w : Walker} {outLen : Word} {mid : Bool}

theorem walkEndStep_root (l : Bool) (h : w.cur = s.root) : walkEndStep l s (.atEnd w outLen mid) =
    ⟨.done, w.cur, w.bpos, w.opos, w.obuf, BitVec.ofNat 32 w.opos, mid⟩ := if_pos h

theorem walkEndStep_lenient (h : w.cur ≠ s.root) : walkEndStep true s (.atEnd w outLen mid) =
    ⟨.done, w.cur, w.bpos, w.opos, w.obuf, BitVec.ofNat 32 w.opos, true⟩ := if_neg h

theorem walkEndStep_strict (h : w.cur ≠ s.root) : walkEndStep false s (.atEnd w outLen mid) =
    ⟨.failed .midtree s.decBits, w.cur, w.bpos, w.opos, w.obuf, outLen, mid⟩ := if_neg h

end

section
variable {l : Bool} {s : State}

theorem WalkFsm.Reaches.head {x y : WalkFsm} (h : WalkFsm.Reaches l s (walkFsmStep l s x) y) :
    WalkFsm.Reaches l s x y := by
  obtain ⟨n, hn⟩ := h
  exact ⟨n + 1, hn⟩

theorem WalkFsm.Reaches.refl (x : WalkFsm) : WalkFsm.Reaches l s x x := ⟨0, rfl⟩

variable {outLen : Word} {mid : Bool}

/-- One bit of the loop is one step of the decoder (R146). -/
theorem walkFsmStep_atBit {w : Walker} (hk : w.bpos < s.decBits.toNat) (hoff : payOffset s w.bpos < s.inCap) :
    (∀ x, walkBit s w = .ok x → walkFsmStep l s (.atBit w outLen mid) = .atBit x outLen mid) ∧
    (∀ e i x, walkBit s w = .raise e i x →
      (walkFsmStep l s (.atBit w outLen mid)).phase = .failed e i) := by
  have hne : ¬ w.bpos = s.decBits.toNat := by omega
  rcases walkBit_cases s w with ⟨hf, -⟩ | ⟨-, ⟨hc, h⟩ | ⟨hc, hleaf, ho, h⟩ | ⟨hc, hleaf, ho, h⟩ | ⟨hc, hleaf, h⟩⟩
  · omega
  all_goals rw [h]
  · refine ⟨fun x hx => (by cases hx), fun e i x hx => ?_⟩
    cases hx
    simp [walkFsmStep, WalkFsm.atBit, walkBitStep, hne, hc]
  · refine ⟨fun x hx => (by cases hx), fun e i x hx => ?_⟩
    cases hx
    simp [walkFsmStep, WalkFsm.atBit, walkBitStep, hne, hc, hleaf, ho]
  · refine ⟨fun x hx => ?_, fun e i x hx => (by cases hx)⟩
    cases hx
    simp [walkFsmStep, WalkFsm.atBit, walkBitStep, hne, hc, hleaf, Nat.not_le.mpr ho]
  · refine ⟨fun x hx => ?_, fun e i x hx => (by cases hx)⟩
    cases hx
    simp [walkFsmStep, WalkFsm.atBit, walkBitStep, hne, hc, hleaf]

theorem bpos_of_walkBit_ok {w x : Walker} (h : walkBit s w = .ok x) : x.bpos = w.bpos + 1 := by
  rcases walkBit_cases s w with ⟨-, e⟩ | ⟨-, ⟨-, e⟩ | ⟨-, -, -, e⟩ | ⟨-, -, -, e⟩ | ⟨-, -, e⟩⟩ <;> rw [e] at h <;>
    cases h <;> rfl

/-- How the decoder ends from a loop that came to `r` with the bits used up. -/
theorem reaches_of_walkLoop (hp : s.PayloadInside) (n : Nat) (w : Walker) (hn : w.bpos + n = s.decBits.toNat) :
    (∀ x, runTimes (walkBit s) n w = .ok x →
      WalkFsm.Reaches l s (.atBit w outLen mid) (walkEndStep l s (.atEnd x outLen mid))) ∧
    (∀ e i x, runTimes (walkBit s) n w = .raise e i x →
      ∃ y, WalkFsm.Reaches l s (.atBit w outLen mid) y ∧ y.phase = .failed e i) := by
  induction n generalizing w with
  | zero =>
    refine ⟨fun x hx => ?_, fun e i x hx => (by cases hx)⟩
    cases hx
    have hstep : walkFsmStep l s (.atBit w outLen mid) = .atEnd w outLen mid := if_pos hn
    refine WalkFsm.Reaches.head ?_
    rw [hstep]
    exact WalkFsm.Reaches.head (.refl _)
  | succ n ih =>
    have hk : w.bpos < s.decBits.toNat := by omega
    obtain ⟨hok, hraise⟩ := walkFsmStep_atBit (l := l) (outLen := outLen) (mid := mid) hk (hp.payOffset_lt hk)
    rw [runTimes_succ]
    cases hbit : walkBit s w with
    | ok v =>
      have hv := bpos_of_walkBit_ok hbit
      obtain ⟨ih1, ih2⟩ := ih v (by omega)
      refine ⟨fun x hx => ?_, fun e i x hx => ?_⟩
      · refine WalkFsm.Reaches.head ?_
        rw [hok v hbit]
        exact ih1 x hx
      · obtain ⟨y, hy, hphase⟩ := ih2 e i x hx
        refine ⟨y, WalkFsm.Reaches.head ?_, hphase⟩
        rw [hok v hbit]
        exact hy
    | raise e i v =>
      refine ⟨fun x hx => (by cases hx), fun e' i' x hx => ?_⟩
      cases hx
      exact ⟨_, WalkFsm.Reaches.head (.refl _), hraise e i v hbit⟩
    | fault f =>
      exact ⟨fun x hx => (by cases hx), fun e i x hx => (by cases hx)⟩

/-- The cursor stands on an internal node of the tree while bits are read (R146). -/
def CursorInside (t : Shape) (y : WalkFsm) : Prop :=
  y.phase = .bit → ∃ pre u, t.sub pre = some u ∧ y.cur = u.root ∧ u.isLeaf = false

variable {syms : List Byte} {t : Shape} (ht : TreeIn s.node s.root syms t)
include ht

theorem cursorInside_step {y : WalkFsm} (h : CursorInside t y) : CursorInside t (walkFsmStep l s y) := by
  have hroot : ∃ pre u, t.sub pre = some u ∧ s.root = u.root ∧ u.isLeaf = false :=
    ⟨[], t, t.sub_nil, ht.root_eq.symm, ht.inner⟩
  intro hphase
  cases hy : y.phase with
  | init =>
    simp only [walkFsmStep, hy]
    exact hroot
  | bit =>
    obtain ⟨pre, u, hu, hcur, hi⟩ := h hy
    simp only [walkFsmStep, hy, walkBitStep] at hphase ⊢
    rw [hcur] at hphase ⊢
    split_ifs at hphase ⊢ with hend hnil hleaf ho
    · rcases (ht.inNodes.sub hu).childOf hi (payBit s y.k) with ⟨v, hv, hchild, -⟩ | ⟨-, hchild⟩
      · refine ⟨pre ++ [payBit s y.k], v, by rw [t.sub_append, hu]; exact hv, hchild, ?_⟩
        rw [← ((ht.inNodes.sub hu).sub hv).leaf_eq, ← hchild]
        simpa using hleaf
      · exact absurd hchild hnil
    · exact hroot
  | fin =>
    simp only [walkFsmStep, hy, walkEndStep] at hphase
    split_ifs at hphase
  | done =>
    simp only [walkFsmStep, hy] at hphase
    cases hphase
  | failed e i =>
    simp only [walkFsmStep, hy] at hphase
    cases hphase

theorem cursorInside_run (k : Nat) {y : WalkFsm} (h : CursorInside t y) : CursorInside t (walkFsmRun l s k y) := by
  induction k generalizing y with
  | zero => exact h
  | succ k ih => exact ih (cursorInside_step ht h)

end

/-- The decoder ends in W_DONE or in an error, as WALK does (R146). -/
theorem decoder_ends {s : State} (l : Bool) (htree : s.treeV = true) (hpay : s.payV = true) (hp : s.PayloadInside) :
    ∃ y, WalkFsm.Reaches l (startWalk s) (walkFsmStart (startWalk s)) y ∧
      ((y.phase = .done ∧ ∃ w, bodyWalk l s = .ok { s with
        obuf := y.obuf, outLen := y.outLen, mid := y.mid, work := w }) ∨
      ∃ e i, y.phase = .failed e i ∧ ∃ w, bodyWalk l s = .raise e i { havocObuf (startWalk s) with work := w }) := by
  obtain ⟨hok, hraise⟩ := reaches_of_walkLoop (l := l) (s := startWalk s) (outLen := 0#32) (mid := s.mid) hp
    s.decBits.toNat (walkStart (startWalk s)) (Nat.zero_add _)
  cases hx : walkBits (startWalk s) with
  | fault f =>
    exact absurd hx (walkLoop_ne_fault (s := startWalk s) hp _ _ (Nat.le_of_eq (Nat.zero_add _)) _)
  | raise e i x =>
    obtain ⟨y, hy, hphase⟩ := hraise e i x hx
    exact ⟨y, .head hy, .inr ⟨e, i, hphase, bodyWalk_of_raise htree hpay l hx⟩⟩
  | ok x =>
    have hend := hok x hx
    by_cases hcur : x.cur = s.root
    · obtain ⟨w, hw⟩ := bodyWalk_of_ok htree hpay l hx (.inl hcur)
      rw [walked, decide_eq_false (not_not.mpr hcur), Bool.or_false] at hw
      rw [walkEndStep_root l (s := startWalk s) hcur] at hend
      exact ⟨_, .head hend, .inl ⟨rfl, w, hw⟩⟩
    · cases l with
      | true =>
        obtain ⟨w, hw⟩ := bodyWalk_of_ok htree hpay true hx (.inr rfl)
        rw [walked, decide_eq_true hcur, Bool.or_true] at hw
        rw [walkEndStep_lenient (s := startWalk s) hcur] at hend
        exact ⟨_, .head hend, .inl ⟨rfl, w, hw⟩⟩
      | false =>
        rw [walkEndStep_strict (s := startWalk s) hcur] at hend
        exact ⟨_, .head hend, .inr ⟨_, _, rfl, bodyWalk_of_midtree htree hpay false hx hcur rfl⟩⟩

end Sys2Proof.Machine
end

section
/-! PROOFS. WALK as a function and as a state machine, strict and lenient (44_decode.md R145 to R148). -/

namespace Sys2Proof.Machine

/-- Settles O46: the code table that CODES would give is the code of the tree. -/
theorem walkDecodesByCode : Obligations.WalkDecodesByCode := by
  intro s l ct h htree hpay hct r succeeds fails
  obtain ⟨hd, -⟩ := s.inv_iff.mp h
  have hnodup := hd.symbols_nodup (hd.treeNeedsTable htree)
  obtain ⟨t, ht⟩ := hd.exists_treeIn htree
  have hcodes : ct = codesOf t := Run.ok.inj (hct.symm.trans (ht.buildCodes hnodup))
  have hcode : IsCodeOf (codeList ct) t := hcodes ▸ isCodeOf_codesOf (ht.syms_eq ▸ hnodup) ht.height_le
  have hr : WalkResult l s r := walkResult l htree hpay ht hcode (hd.payloadInside hpay)
  have hsucceeds : ∀ mid, WalkSucceeds l s r.1 mid → succeeds mid := by
    rintro mid ⟨x, w, hx, hobuf, hopos⟩
    refine ⟨x.obuf, w, ?_, fun a => by rw [hobuf]; exact obufByte_memWriteList s r.1 a⟩
    rw [← hopos]
    exact congrArg settle hx
  have hfails : ∀ e, WalkFails l s e → fails e := by
    rintro e ⟨i, w, hx, hinfo⟩
    exact ⟨i, w, congrArg settle hx, hinfo⟩
  exact ⟨fun hf => ⟨fun he => hsucceeds _ (hr.complete hf he), fun he hl => hsucceeds _ (hr.lenient hf he hl),
    fun he hl => hfails _ (hr.strict hf he hl), fun he => hfails _ (hr.badPath hf he)⟩,
    fun ho => hfails _ (hr.overflow ho)⟩

/-- Settles O47: the decoder runs the loop bit by bit, its cursor where the bits read lead. -/
theorem decoderMachineComputesWalk : Obligations.DecoderMachineComputesWalk := by
  intro s l htree hpay hp
  obtain ⟨y, ⟨n, hn⟩, hend⟩ := decoder_ends l htree hpay hp
  refine ⟨n, ?_⟩
  intro x
  have hx : x = y := hn
  rw [hx]
  refine ⟨?ends, fun hdone => ?done, fun e info hfailed => ?failed, fun h k => ?cursor⟩
  case ends =>
    rcases hend with ⟨hdone, -⟩ | ⟨e, i, hfailed, -⟩
    · exact .inl hdone
    · exact .inr ⟨e, i, hfailed⟩
  case done =>
    rcases hend with ⟨-, w, hw⟩ | ⟨e, i, hfailed, -⟩
    · exact ⟨w, congrArg settle hw⟩
    · cases hdone.symm.trans hfailed
  case failed =>
    rcases hend with ⟨hdone, -⟩ | ⟨e', i, hfailed', w, hw⟩
    · cases hfailed.symm.trans hdone
    · cases hfailed.symm.trans hfailed'
      exact ⟨w, congrArg settle hw⟩
  case cursor =>
    intro z hz
    obtain ⟨t, ht⟩ := (s.inv_iff.mp h).1.exists_treeIn htree
    have hstart : CursorInside t (walkFsmStart (startWalk s)) := fun hphase => by cases hphase
    obtain ⟨pre, u, hu, hcur, hi⟩ := cursorInside_run (l := l) (s := startWalk s) ht k hstart hz
    have hleaf := (ht.inNodes.sub hu).leaf_eq
    rw [← hcur, hi] at hleaf
    exact hleaf

/-- Settles O48: one run of the loop, and the two ends it can have. -/
theorem strictAndLenientWalk : Obligations.StrictAndLenientWalk := by
  intro s h htree hpay hmid herror
  obtain ⟨hd, hs⟩ := s.inv_iff.mp h
  have herr : s.err = .none := by
    by_contra hne
    cases herror.symm.trans (hs.errorCode.mpr hne)
  cases hx : walkBits (startWalk s) with
  | fault f =>
    exact absurd hx (walkLoop_ne_fault (s := startWalk s) (hd.payloadInside hpay) _ _ (Nat.le_of_eq (Nat.zero_add _)) _)
  | raise e i x =>
    obtain ⟨w, hw⟩ := bodyWalk_of_raise htree hpay false hx
    obtain ⟨w', hw'⟩ := bodyWalk_of_raise htree hpay true hx
    refine ⟨_, _, congrArg settle hw, congrArg settle hw', fun he => ?_, fun _ => ⟨rfl, hmid, fun he => by cases he⟩⟩
    have he : e = .midtree := he
    rcases walkLoop_cases (startWalk s) _ (walkStart (startWalk s)) with ⟨y, hy⟩ | ⟨e', i', y, he', hy⟩ | ⟨a, -, hy⟩ <;>
      cases hx.symm.trans hy
    rw [he] at he'
    rcases he' with he' | he' <;> cases he'
  | ok x =>
    obtain ⟨w', hw'⟩ := bodyWalk_of_ok htree hpay true hx (.inr rfl)
    by_cases hcur : x.cur = s.root
    · obtain ⟨w, hw⟩ := bodyWalk_of_ok htree hpay false hx (.inl hcur)
      refine ⟨_, _, congrArg settle hw, congrArg settle hw', fun he => ?_, fun _ => ⟨rfl, ?_, fun _ _ => rfl⟩⟩
      · cases herr.symm.trans he
      · show (s.mid || decide (x.cur ≠ s.root)) = false
        rw [hmid, decide_eq_false (not_not.mpr hcur)]
        rfl
    · obtain ⟨w, hw⟩ := bodyWalk_of_midtree htree hpay false hx hcur rfl
      refine ⟨_, _, congrArg settle hw, congrArg settle hw', fun _ => ⟨rfl, rfl, rfl, herror, rfl, ?_⟩,
        fun he => absurd rfl he⟩
      show (s.mid || decide (x.cur ≠ s.root)) = true
      rw [hmid, decide_eq_true hcur]
      rfl

end Sys2Proof.Machine
end

section
/-! SUPPORT. COMPRESS and DECOMPRESS by the states their unit bodies leave (45_control.md R162 to R164, 44_decode.md
R149). -/

namespace Sys2Proof.Machine

/-! ### COMPRESS -/

theorem bodyCompress_of_raise {s u : State} {e : ErrCode} {i : Word} (h : compressFront s = .raise e i u) :
    bodyCompress s = .raise e i (havocObuf u) := by
  rw [bodyCompress_eq, h]
  rfl

theorem bodyCompress_of_ok {s u : State} (h : compressFront s = .ok u) : bodyCompress s = bodyPack u := by
  rw [bodyCompress_eq, h]
  rfl

theorem compressFront_of_freq_raise {s u : State} {e : ErrCode} {i : Word} (h : bodyFreq s = .raise e i u) :
    compressFront s = .raise e i u := by
  rw [compressFront, h]
  rfl

theorem ct_tabled (s : State) (b : Built) (t : Shape) (w : Work) : (tabled s b t w).ct = codesOf t := rfl

theorem tabled_eq (s : State) (b : Built) (t : Shape) (w : Work) : tabled s b t w = { s with
    ftV := true, treeV := true, ctV := true, payV := false, ft := tableOverlay s.ft (stableTable s.input),
    ftN := BitVec.ofNat 9 (stableTable s.input).length, node := tableOverlay s.node b.arena,
    nodeN := BitVec.ofNat 10 b.arena.length, root := b.root, ct := codesOf t, work := w } := rfl

/-- The state of a COMPRESS that wrote its envelope (R162). -/
theorem packed_tabled (s : State) (b : Built) (t : Shape) (w w' : Work) :
    packed (tabled s b t w) w' = { s with
      ftV := true, treeV := true, ctV := true, payV := false, ft := tableOverlay s.ft (stableTable s.input),
      ftN := BitVec.ofNat 9 (stableTable s.input).length, node := tableOverlay s.node b.arena,
      nodeN := BitVec.ofNat 10 b.arena.length, root := b.root, ct := codesOf t,
      obuf := packedMem s.obuf (stableTable s.input) (encodeBits (codesOf t) s.input),
      encBits := BitVec.ofNat 32 (encodeBits (codesOf t) s.input).length,
      outLen := BitVec.ofNat 32 (envSize (stableTable s.input).length (encodeBits (codesOf t) s.input).length),
      work := w' } := by
  rw [packed, ftN_tabled, ftList_tabled, input_tabled, ct_tabled, tabled_eq]
  simp only [startPack]

/-- Two trees of the same symbols have the same code table. -/
theorem TreeShape.codesOf_eq {syms : List Byte} {b b' : Built} {t t' : Shape} (h : TreeShape syms b t)
    (h' : TreeShape syms b' t') (hn : syms.Nodup) (hlen : syms.length ≤ 256) : codesOf t' = codesOf t := by
  cases h.built.symm.trans h'.built
  have hcodes := (h.treeIn_overlay hlen (Vector.replicate (2 ^ 9) (leafNode 0#8))).buildCodes hn
  exact (Run.ok.inj (hcodes.symm.trans
    ((h'.treeIn_overlay hlen (Vector.replicate (2 ^ 9) (leafNode 0#8))).buildCodes hn))).symm

/-! ### DECOMPRESS -/

theorem bodyDecompress_of_raise {l : Bool} {s u : State} {e : ErrCode} {i : Word}
    (h : decompressFront s = .raise e i u) : bodyDecompress l s = .raise e i (havocObuf u) := by
  rw [bodyDecompress_eq, h]
  rfl

theorem bodyDecompress_of_ok {l : Bool} {s u : State} (h : decompressFront s = .ok u) :
    bodyDecompress l s = bodyWalk l u := by
  rw [bodyDecompress_eq, h]
  rfl

/-- The payload bits of an envelope (R55, R90). -/
def envBits (e : List Byte) : List Bool :=
  (List.range (envB e)).map fun k => (byteAt e (6 + 5 * envN e + k / 8)).getLsbD (k % 8)

theorem envBits_envelope (t : List FtEntry) (bits : List Bool) (h : t.length < 2 ^ 16) (hb : bits.length < 2 ^ 32) :
    envBits (envelope t bits) = bits := by
  rw [envBits, envB_envelope t bits h hb, envN_envelope t bits h, payloadBits_envelope]

section
variable {s : State} (h : Loadable s)
include h

theorem Loadable.envN_eq : envN s.input = ibuf16 s 0 := envN_input h.two_le

theorem Loadable.holdsTable : 6 + 5 * envN s.input ≤ s.inLen.toNat := by
  rw [h.envN_eq]
  have := h.size
  omega

theorem Loadable.envB_eq : envB s.input = ibuf32 s (2 + 5 * ibuf16 s 0) := envB_input h.two_le h.holdsTable

theorem Loadable.envTable_eq : envTable s.input = loadedTable s (ibuf16 s 0) := envTable_input h.two_le h.holdsTable

/-- LOAD leaves the envelope's payload bits (R142). -/
theorem payloadBits_loaded (b : Built) (w : Work) : (treed (loaded s w) b w).payloadBits = envBits s.input := by
  obtain ⟨-, h256⟩ := h.count
  have hdec : (BitVec.ofNat 32 (ibuf32 s (2 + 5 * ibuf16 s 0))).toNat = envB s.input := by
    rw [toNat_ibuf32, h.envB_eq]
  have hbase : (BitVec.ofNat 32 (6 + 5 * ibuf16 s 0)).toNat = 6 + 5 * envN s.input := by
    rw [h.envN_eq, BitVec.toNat_ofNat, Nat.mod_eq_of_lt (by omega)]
  have hsize := h.size
  rw [← h.envB_eq, ← h.envN_eq, ceil8] at hsize
  show (List.range (BitVec.ofNat 32 (ibuf32 s (2 + 5 * ibuf16 s 0))).toNat).map
    (fun k => (s.ibufByte ((BitVec.ofNat 32 (6 + 5 * ibuf16 s 0)).toNat + k / 8)).getLsbD (k % 8)) = _
  rw [hdec, hbase, envBits]
  refine List.map_congr_left fun k hk => ?_
  rw [List.mem_range] at hk
  rw [byteAt_input (by omega)]

end

/-- WALK in DECOMPRESS decodes the envelope's payload by the code of its table (R163). -/
theorem walkResult_loaded {s : State} (h : Loadable s) (l : Bool) {b : Built} {t : Shape} (w : Work)
    (hbt : TreeShape (loadedSyms s) b t) (hn : (loadedSyms s).Nodup) (hlen : (loadedSyms s).length ≤ 256) :
    WalkResult l (treed (loaded s w) b w) (decodeCode (codeList (codesOf t)) [] (envBits s.input)) := by
  have ht := hbt.treeIn_overlay hlen s.node
  rw [← payloadBits_loaded h b w]
  exact walkResult l rfl rfl ht (isCodeOf_codesOf (ht.syms_eq ▸ hn) ht.height_le)
    ((payload_loaded h w).trans_le h.input)

/-- The state of a DECOMPRESS that wrote its output, by the fields of the envelope (R163). -/
theorem walked_loaded {s : State} (h : Loadable s) (b : Built) (w : Work) (x : Walker) (mid : Bool) (w' : Work) :
    walked (treed (loaded s w) b w) x mid w' = { s with
      ftV := true, payV := true, treeV := true, ctV := false, ft := tableOverlay s.ft (envTable s.input),
      ftN := BitVec.ofNat 9 (envN s.input), decBits := BitVec.ofNat 32 (envB s.input),
      payBase := BitVec.ofNat 32 (6 + 5 * envN s.input), node := tableOverlay s.node b.arena,
      nodeN := BitVec.ofNat 10 b.arena.length, root := b.root, obuf := x.obuf, outLen := BitVec.ofNat 32 x.opos,
      mid := s.mid || mid, work := w' } := by
  rw [h.envTable_eq, h.envN_eq, h.envB_eq]
  rfl

/-! ### A command and its sequence of unit commands -/

theorem issue_of_ok {i : Instr} {s u : State} (h0 : i ≠ .nop) (h1 : i ≠ .clear)
    (h : bodyOf i (accept (encode i) s) = .ok u) : issue i s = .next (succeed u) := by
  rw [issue, exec_eq_settle i _ h0 h1, h]
  rfl

theorem issue_of_raise {i : Instr} {s u : State} {e : ErrCode} {info : Word} (h0 : i ≠ .nop) (h1 : i ≠ .clear)
    (h : bodyOf i (accept (encode i) s) = .raise e info u) : issue i s = .next (errorEntry e info u) := by
  rw [issue, exec_eq_settle i _ h0 h1, h]
  rfl

theorem issueAll_of_error {i : Instr} {is : List Instr} {s t : State} (h : issue i s = .next t)
    (he : t.error = true) : issueAll (i :: is) s = .next t := by
  rw [issueAll, h]
  exact if_pos he

theorem issueAll_of_ok {i : Instr} {is : List Instr} {s t : State} (h : issue i s = .next t) (he : t.error = false) :
    issueAll (i :: is) s = issueAll is t := by
  rw [issueAll, h]
  exact if_neg (by rw [he]; decide)

/-- A unit that succeeds is followed by the next one. -/
theorem issueAll_of_body {i : Instr} {is : List Instr} {s u : State} (h0 : i ≠ .nop) (h1 : i ≠ .clear)
    (he : s.error = false) (h : bodyOf i (accept (encode i) s) = .ok u) :
    issueAll (i :: is) s = issueAll is (succeed u) ∧ (succeed u).error = false := by
  have hsame := bodyOf_same i (accept (encode i) s)
  rw [h] at hsame
  obtain ⟨-, herror, -⟩ := BodySame.status hsame
  have hu : (succeed u).error = false := herror.trans he
  exact ⟨issueAll_of_ok (issue_of_ok h0 h1 h) hu, hu⟩

theorem issueAll_last {i : Instr} {s t : State} (h : issue i s = .next t) : issueAll [i] s = .next t := by
  cases he : t.error with
  | true => exact issueAll_of_error h he
  | false => exact issueAll_of_ok h he

theorem issue_lastop {i : Instr} {s t : State} (h0 : i ≠ .nop) (h1 : i ≠ .clear) (h : issue i s = .next t) :
    t.lastop = (encode i).extractLsb' 0 8 := by
  rcases exec_next h0 h1 h with ⟨u, -, hu, rfl⟩ | ⟨e, info, u, -, hu, rfl⟩
  · exact hu.host.lastop
  · exact hu.host.lastop

theorem encode_walk_lastop (l : Bool) : (encode (.walk l)).extractLsb' 0 8 = 0x15#8 := by cases l <;> decide

theorem encode_decompress_lastop (l : Bool) : (encode (.decompress l)).extractLsb' 0 8 = 0x21#8 := by
  cases l <;> decide

/-- The state with another LASTOP, sequencer, count of draws and working state. -/
def relabel (s : State) (lastop : Byte) (seq : Option Word) (busycnt draws : Nat) (work : Work) : State :=
  { s with lastop := lastop, seq := seq, busycnt := busycnt, draws := draws, work := work }

/-- The second state is the first but for what `relabel` sets. -/
def Alike (s s' : State) : Prop := ∃ lastop seq busycnt draws work, s' = relabel s lastop seq busycnt draws work

/-- The two runs come to the same end, their states alike. -/
inductive AlikeEnd : Run State → Run State → Prop
  | ok {s s' : State} (h : Alike s s') : AlikeEnd (.ok s) (.ok s')
  | raise (e : ErrCode) (i : Word) {s s' : State} (h : Alike s s') : AlikeEnd (.raise e i s) (.raise e i s')

theorem AlikeEnd.congr {r r' u u' : Run State} (h : r = u) (h' : r' = u') (k : AlikeEnd u u') : AlikeEnd r r' := by
  rw [h, h']
  exact k

theorem AlikeEnd.ite {c : Prop} [Decidable c] {r r' u u' : Run State} (h : AlikeEnd r r') (k : AlikeEnd u u') :
    AlikeEnd (if c then r else u) (if c then r' else u') := by
  split
  · exact h
  · exact k

/-- PACK does not read what two alike states differ in. -/
theorem bodyPack_alike {s s' : State} (h : Alike s s') (hv : s.ctV = true) (hin : s.inLen.toNat ≤ s.inCap)
    (hn : s.ftN.toNat ≤ 256) : AlikeEnd (bodyPack s) (bodyPack s') := by
  obtain ⟨lastop, seq, busycnt, draws, work, rfl⟩ := h
  by_cases hh : headerSize s.ftN.toNat ≤ s.outCap
  · rcases packInput_cases s.outCap s.ct s.input
      (packerAt (memWriteList s.obuf 0 (headerBytes s.ftList)) (headerSize s.ftN.toNat) [] 0) with
      ⟨q, hq⟩ | ⟨e, i, q, -, hq⟩
    · obtain ⟨hcoded, hsize⟩ := of_packInput_ok hh hq
      have hp : Packable s := ⟨hin, hn, hcoded, hsize⟩
      obtain ⟨w, -, hb⟩ := bodyPack_of_packable hv hp
      obtain ⟨w', -, hb'⟩ := bodyPack_of_packable (s := relabel s lastop seq busycnt draws work) hv { hp with }
      exact .congr hb hb' (.ok ⟨lastop, seq, busycnt, draws, w', rfl⟩)
    · exact .congr (bodyPack_of_raise hv hin hn hh hq)
        (bodyPack_of_raise (s := relabel s lastop seq busycnt draws work) hv hin hn hh hq)
        (.raise e i ⟨lastop, seq, busycnt, draws, _, rfl⟩)
  · rw [Nat.not_le] at hh
    exact .congr (bodyPack_of_header hv hin hn hh) (bodyPack_of_header hv hin hn hh)
      (.raise _ _ ⟨lastop, seq, busycnt, draws, work, rfl⟩)

/-- Neither does WALK. -/
theorem bodyWalk_alike (l : Bool) {s s' : State} (h : Alike s s') (htree : s.treeV = true) (hpay : s.payV = true)
    (hp : s.PayloadInside) : AlikeEnd (bodyWalk l s) (bodyWalk l s') := by
  obtain ⟨lastop, seq, busycnt, draws, work, rfl⟩ := h
  have hsame : walkBits (startWalk (relabel s lastop seq busycnt draws work)) = walkBits (startWalk s) := rfl
  cases hx : walkBits (startWalk s) with
  | fault f =>
    exact absurd hx (walkLoop_ne_fault (s := startWalk s) hp _ _ (Nat.le_of_eq (Nat.zero_add _)) _)
  | raise e i x =>
    obtain ⟨w, hw⟩ := bodyWalk_of_raise htree hpay l hx
    obtain ⟨w', hw'⟩ := bodyWalk_of_raise (s := relabel s lastop seq busycnt draws work) htree hpay l (hsame.trans hx)
    exact .congr hw hw' (.raise e i ⟨lastop, seq, busycnt, draws, w', rfl⟩)
  | ok x =>
    by_cases hend : x.cur = s.root ∨ l = true
    · obtain ⟨w, hw⟩ := bodyWalk_of_ok htree hpay l hx hend
      obtain ⟨w', hw'⟩ := bodyWalk_of_ok (s := relabel s lastop seq busycnt draws work) htree hpay l (hsame.trans hx)
        hend
      exact .congr hw hw' (.ok ⟨lastop, seq, busycnt, draws, w', rfl⟩)
    · rw [not_or, Bool.not_eq_true] at hend
      obtain ⟨hcur, hl⟩ := hend
      obtain ⟨w, hw⟩ := bodyWalk_of_midtree htree hpay l hx hcur hl
      obtain ⟨w', hw'⟩ := bodyWalk_of_midtree (s := relabel s lastop seq busycnt draws work) htree hpay l
        (hsame.trans hx) hcur hl
      exact .congr hw hw' (.raise _ _ ⟨lastop, seq, busycnt, draws, w', rfl⟩)

/-- Two completions are the same where the statement on the composites compares them (R164). -/
structure SameCompletion (t u : State) : Prop where
  same : { t with lastop := u.lastop, work := u.work, draws := u.draws, obuf := u.obuf, obufGen := u.obufGen } = u
  obuf : u.error = false → SameObuf t u
  noResult : u.error = true → u.outLen = 0#32

theorem AlikeEnd.settle {s : State} {r r' : Run State} (h : AlikeEnd r r') (hr : r.Keeps (BodySame s))
    (he : s.error = false) : ∃ t u, settle r = .next t ∧ settle r' = .next u ∧ SameCompletion t u := by
  cases h with
  | ok h =>
    obtain ⟨lastop, seq, busycnt, draws, work, rfl⟩ := h
    obtain ⟨-, herror, -⟩ := BodySame.status hr
    exact ⟨_, _, rfl, rfl, ⟨rfl, fun _ _ => rfl, (fun h1 => by cases (herror.trans he).symm.trans h1)⟩⟩
  | raise e i h =>
    obtain ⟨lastop, seq, busycnt, draws, work, rfl⟩ := h
    exact ⟨_, _, rfl, rfl, ⟨rfl, (fun h1 => by cases h1), fun _ => rfl⟩⟩

/-- A unit that raises in a composite spoils OBUF (log 19), which the statement does not compare. -/
theorem SameCompletion.errorEntry {s s' : State} (h : Alike s s') (e : ErrCode) (i : Word) :
    SameCompletion (errorEntry e i (havocObuf s)) (errorEntry e i s') := by
  obtain ⟨lastop, seq, busycnt, draws, work, rfl⟩ := h
  exact ⟨rfl, (fun h1 => by cases h1), fun _ => rfl⟩

theorem bodyTree_of_shape {s : State} {b : Built} {t : Shape} (hv : s.ftV = true) (h1 : 1 ≤ s.ftN.toNat)
    (h2 : s.ftN.toNat ≤ 256) (hbt : TreeShape s.symbols b t) :
    ∃ w, w.cmdl = s.work.cmdl ∧ bodyTree s = .ok (treed s b w) := by
  obtain ⟨b', t', w, hbt', hw, h⟩ := bodyTree_of_table hv h1 h2
  cases hbt.built.symm.trans hbt'.built
  exact ⟨w, hw, h⟩

/-- LOAD answers alike on alike states. -/
theorem bodyLoad_alike {s s' : State} (h : Alike s s') : AlikeEnd (bodyLoad s) (bodyLoad s') := by
  obtain ⟨lastop, seq, busycnt, draws, work, rfl⟩ := h
  have hstart : Alike (startLoad s) (startLoad (relabel s lastop seq busycnt draws work)) :=
    ⟨lastop, seq, busycnt, draws, work, rfl⟩
  have hput : ∀ t, Alike (putTable t (startLoad s))
      (putTable t (startLoad (relabel s lastop seq busycnt draws work))) :=
    fun t => ⟨lastop, seq, busycnt, draws, work, rfl⟩
  by_cases hin : s.inCap < s.inLen.toNat
  · exact .congr (bodyLoad_of_inlen hin) (bodyLoad_of_inlen hin) (.raise _ _ hstart)
  rw [Nat.not_lt] at hin
  by_cases h2 : s.inLen.toNat < 2
  · exact .congr (bodyLoad_of_short hin h2) (bodyLoad_of_short hin h2) (.raise _ _ hstart)
  rw [Nat.not_lt] at h2
  by_cases hn : ibuf16 s 0 = 0 ∨ 256 < ibuf16 s 0
  · exact .congr (bodyLoad_of_count hin h2 hn) (bodyLoad_of_count hin h2 hn) (.raise _ _ hstart)
  have h1 : 1 ≤ ibuf16 s 0 := by omega
  have h256 : ibuf16 s 0 ≤ 256 := by omega
  by_cases hc : s.inLen.toNat < 6 + 5 * ibuf16 s 0
  · exact .congr (bodyLoad_of_cut hin h2 h1 h256 hc) (bodyLoad_of_cut hin h2 h1 h256 hc) (.raise _ _ hstart)
  rw [Nat.not_lt] at hc
  classical
  by_cases hbad : ∃ i, i < ibuf16 s 0 ∧ EntryBad s i
  · obtain ⟨hi, hb⟩ := Nat.find_spec hbad
    have hgood : ∀ j, j < Nat.find hbad → ¬ EntryBad s j :=
      fun j hj hbj => Nat.find_min hbad hj ⟨hj.trans hi, hbj⟩
    exact .congr (bodyLoad_of_badEntry hin h2 h1 h256 hc hi hb hgood)
      (bodyLoad_of_badEntry (s := relabel s lastop seq busycnt draws work) hin h2 h1 h256 hc hi hb hgood)
      (.raise _ _ (hput _))
  · have hgood : ∀ j, j < ibuf16 s 0 → ¬ EntryBad s j := fun j hj hbj => hbad ⟨j, hj, hbj⟩
    exact .congr (bodyLoad_of_goodEntries hin h2 h1 h256 hc hgood) (bodyLoad_of_goodEntries hin h2 h1 h256 hc hgood)
      (.ite (.raise _ _ (hput _)) (.ite (.raise _ _ (hput _)) (.ok ⟨_, _, _, _, _, rfl⟩)))

/-- The sequence of R162 comes to PACK in a state like the one in which COMPRESS comes to it. -/
theorem issueAll_reaches_pack {s : State} (he : s.error = false) (h0 : s.inLen ≠ 0#32) (h1 : s.inLen.toNat ≤ s.inCap)
    {b : Built} {t : Shape} (w : Work) (hbt : TreeShape (inputSyms s) b t) (hn : (inputSyms s).Nodup)
    (hlen : (inputSyms s).length ≤ 256) :
    ∃ x, issueAll [.freq, .tree, .codes, .pack] s = issueAll [.pack] x ∧
      Alike (tabled (accept (encode .compress) s) b t w) (accept (encode .pack) x) := by
  obtain ⟨w1, -, hfreq⟩ := bodyFreq_of_input (s := accept (encode .freq) s) h0 h1
  have hok := tableOk_freqed (s := accept (encode .freq) s) h0 w1
  have hft : (freqed (accept (encode .freq) s) w1).ftN.toNat ≤ 256 := by
    rw [ftN_freqed]; exact stableTable_length_le _
  have hsyms : (freqed (accept (encode .freq) s) w1).symbols = inputSyms s := symbols_freqed _ w1
  obtain ⟨w2, -, htree⟩ := bodyTree_of_shape
    (s := accept (encode .tree) (succeed (freqed (accept (encode .freq) s) w1))) rfl (hok.ftN_pos hft) hft
    (hsyms ▸ hbt)
  obtain ⟨w3, -, hcodes⟩ := bodyCodes_of_tree (s := accept (encode .codes) (succeed (treed (accept (encode .tree)
    (succeed (freqed (accept (encode .freq) s) w1))) b w2))) rfl
    (hsyms ▸ hbt.treeIn_overlay hlen s.node) (hsyms ▸ hn)
  refine ⟨succeed (coded (accept (encode .codes) (succeed (treed (accept (encode .tree)
    (succeed (freqed (accept (encode .freq) s) w1))) b w2))) (codesOf t) w3), ?_, _, _, _, _, _, rfl⟩
  obtain ⟨hall1, he1⟩ := issueAll_of_body (i := .freq) (is := [.tree, .codes, .pack]) nofun nofun he hfreq
  obtain ⟨hall2, he2⟩ := issueAll_of_body (i := .tree) (is := [.codes, .pack]) nofun nofun he1 htree
  obtain ⟨hall3, -⟩ := issueAll_of_body (i := .codes) (is := [.pack]) nofun nofun he2 hcodes
  exact hall1.trans (hall2.trans hall3)

/-- The sequence of R163 comes to WALK in a state like the one in which DECOMPRESS comes to it. -/
theorem issueAll_reaches_walk {s : State} (l : Bool) (he : s.error = false)
    (hl : Loadable (accept (encode (.decompress l)) s)) {b : Built} {t : Shape} (w : Work)
    (hbt : TreeShape (loadedSyms (accept (encode (.decompress l)) s)) b t) :
    ∃ x, issueAll [.load, .tree, .walk l] s = issueAll [.walk l] x ∧
      Alike (treed (loaded (accept (encode (.decompress l)) s) w) b w) (accept (encode (.walk l)) x) := by
  have hl' : Loadable (accept (encode .load) s) := { hl with }
  have hload := bodyLoad_of_loadable hl'
  generalize ({ (accept (encode .load) s).work with ipos := (accept (encode .load) s).inLen } : Work) = w1 at hload
  have hok := tableOk_loaded hl' w1
  have hft : (loaded (accept (encode .load) s) w1).ftN.toNat ≤ 256 := by rw [ftN_loaded hl']; exact hl'.count.2
  have hsyms : (loaded (accept (encode .load) s) w1).symbols = loadedSyms (accept (encode (.decompress l)) s) :=
    symbols_loaded hl' w1
  obtain ⟨w2, -, htree⟩ := bodyTree_of_shape
    (s := accept (encode .tree) (succeed (loaded (accept (encode .load) s) w1))) rfl (hok.ftN_pos hft) hft
    (hsyms ▸ hbt)
  refine ⟨succeed (treed (accept (encode .tree) (succeed (loaded (accept (encode .load) s) w1))) b w2), ?_,
    _, _, _, _, _, rfl⟩
  obtain ⟨hall1, he1⟩ := issueAll_of_body (i := .load) (is := [.tree, .walk l]) nofun nofun he hload
  obtain ⟨hall2, -⟩ := issueAll_of_body (i := .tree) (is := [.walk l]) nofun nofun he1 htree
  exact hall1.trans hall2

/-- COMPRESS against FREQ, TREE, CODES, PACK (R164). -/
theorem compress_sameCompletion {s : State} (he : s.error = false) :
    ∃ t u, issue .compress s = .next t ∧ issueAll [.freq, .tree, .codes, .pack] s = .next u ∧ SameCompletion t u ∧
      (u.error = false → ∃ x, issue .pack x = .next u) := by
  have halike : Alike (startFreq (accept (encode .compress) s)) (startFreq (accept (encode .freq) s)) :=
    ⟨_, _, _, _, _, rfl⟩
  rcases compressFront_cases (accept (encode .compress) s) with ⟨h0, -, hfront⟩ | ⟨h1, -, hfront⟩ |
    ⟨h0, h1, b, t, w, hbt, hn, hlen, -, hfront⟩
  · exact ⟨_, _, issue_of_raise (i := .compress) nofun nofun (bodyCompress_of_raise hfront),
      issueAll_of_error (issue_of_raise (i := .freq) nofun nofun (bodyFreq_of_empty h0)) rfl,
      .errorEntry halike _ _, (fun h => by cases h)⟩
  · exact ⟨_, _, issue_of_raise (i := .compress) nofun nofun (bodyCompress_of_raise hfront),
      issueAll_of_error (issue_of_raise (i := .freq) nofun nofun (bodyFreq_of_inlen h1)) rfl,
      .errorEntry halike _ _, (fun h => by cases h)⟩
  · obtain ⟨x, hall, hx⟩ := issueAll_reaches_pack he h0 h1 w hbt hn hlen
    obtain ⟨t', u, ht, hu, hsame⟩ := (bodyPack_alike hx rfl h1
      (by rw [ftN_tabled]; exact stableTable_length_le _)).settle (bodyPack_same _) he
    exact ⟨t', u, (congrArg settle (bodyCompress_of_ok hfront)).trans ht, hall.trans (issueAll_last hu), hsame,
      fun _ => ⟨x, hu⟩⟩

/-- DECOMPRESS against LOAD, TREE, WALK (R164). -/
theorem decompress_sameCompletion {s : State} (l : Bool) (he : s.error = false) :
    ∃ t u, issue (.decompress l) s = .next t ∧ issueAll [.load, .tree, .walk l] s = .next u ∧ SameCompletion t u ∧
      (u.error = false → ∃ x, issue (.walk l) x = .next u) := by
  have hload := bodyLoad_alike (s := accept (encode (.decompress l)) s) (s' := accept (encode .load) s)
    ⟨_, _, _, _, _, rfl⟩
  rcases decompressFront_cases (accept (encode (.decompress l)) s) with ⟨e, i, u, hu, hfront⟩ |
    ⟨hl, b, t, w, hbt, -, -, -, hfront⟩
  · rw [hu] at hload
    generalize hr : bodyLoad (accept (encode .load) s) = r at hload
    cases hload with
    | raise e i halike =>
      exact ⟨_, _, issue_of_raise (i := .decompress l) nofun nofun (bodyDecompress_of_raise hfront),
        issueAll_of_error (issue_of_raise (i := .load) nofun nofun hr) rfl, .errorEntry halike _ _,
        (fun h => by cases h)⟩
  · obtain ⟨x, hall, hx⟩ := issueAll_reaches_walk l he hl w hbt
    obtain ⟨t', u, ht, hu, hsame⟩ := (bodyWalk_alike l hx rfl rfl ((payload_loaded hl w).trans_le hl.input)).settle
      (bodyWalk_same l _) he
    exact ⟨t', u, (congrArg settle (bodyDecompress_of_ok hfront)).trans ht, hall.trans (issueAll_last hu), hsame,
      fun _ => ⟨x, hu⟩⟩

/-! ### The round trip -/

/-- The output written from offset 0 reads back. -/
theorem obufBytes_of_output {s : State} {m : Mem} {out : List Byte} (h : s.obuf = memWriteList m 0 out) :
    s.obufBytes out.length = out := by
  refine List.ext_getElem (by simp [State.obufBytes]) fun a h1 h2 => ?_
  simp only [State.obufBytes, List.getElem_map, List.getElem_range]
  rw [State.obufByte, h, memRead_writeList, if_pos ⟨Nat.zero_le a, by omega⟩, Nat.sub_zero, List.getElem?_eq_getElem h2]
  rfl

/-- What COMPRESS leaves in OBUF where it succeeds (R162). -/
theorem bodyCompress_envelope {s u : State} (h0 : s.inLen ≠ 0#32) (h1 : s.inLen.toNat ≤ s.inCap)
    (hcap : s.outCap ≤ 2 ^ 28) (h : bodyCompress s = .ok u) :
    ∃ b t, TreeShape (inputSyms s) b t ∧ (inputSyms s).Nodup ∧ (inputSyms s).length ≤ 256 ∧
      (encodeBits (codesOf t) s.input).length < 2 ^ 32 ∧
      u.obufBytes u.outLen.toNat = envelope (stableTable s.input) (encodeBits (codesOf t) s.input) := by
  obtain ⟨b, t, w, hbt, hn, hlen, -, hfront⟩ := compressFront_of_input h0 h1
  obtain ⟨-, hp, w', -, rfl⟩ := of_bodyPack_ok ((bodyCompress_of_ok hfront).symm.trans h)
  have hsize := hp.size
  have hout : (packed (tabled s b t w) w').outLen.toNat = _ := toNat_ofNat_of_le_cap hcap hsize
  refine ⟨b, t, hbt, hn, hlen, ?_, ?_⟩
  · have hle := hsize.trans hcap
    rw [input_tabled, ct_tabled, envSize, ceil8] at hle
    omega
  · rw [hout, obufBytes_packed hp.table, ftList_tabled, input_tabled, ct_tabled]

/-- DECOMPRESS of an envelope whose table is `table` and whose payload encodes `out` by its code writes `out`. -/
theorem decompress_of_envelope {s : State} (l : Bool) {table : List FtEntry} {b : Built} {t : Shape} {out : List Byte}
    (hbt : TreeShape (table.map FtEntry.sym) b t) (hn : (table.map FtEntry.sym).Nodup)
    (hlen : (table.map FtEntry.sym).length ≤ 256) (hok : TableOk table)
    (hbits : (encodeBits (codesOf t) out).length < 2 ^ 32) (hsyms : ∀ c ∈ out, c ∈ table.map FtEntry.sym)
    (hin : s.inLen.toNat ≤ s.inCap) (hinput : s.input = envelope table (encodeBits (codesOf t) out))
    (hfit : out.length ≤ s.outCap) :
    ∃ b' w, ∃ x w', bodyDecompress l s = .ok (walked (treed (loaded s w) b' w) x false w') ∧
      x.obuf = memWriteList s.obuf 0 out ∧ x.opos = out.length := by
  have hl : Loadable s := (loadable_iff s).mpr ⟨hin, hinput ▸ envelopeOk_envelope _ _ hok hbits⟩
  have htable : loadedSyms s = table.map FtEntry.sym := by
    rw [loadedSyms, ← hl.envTable_eq, hinput, envTable_envelope _ _ (by have := hok.size; omega)]
  obtain ⟨b', t', w, hbt', hn', hlen', -, hfront⟩ := decompressFront_of_loadable hl
  have hr := walkResult_loaded hl l w hbt' hn' hlen'
  rw [htable] at hbt'
  rw [hbt.codesOf_eq hbt' hn hlen, hinput, envBits_envelope _ _ (by have := hok.size; omega) hbits,
    decodeCode_encodeBits (hbt.syms_eq ▸ hn) (hbt.height_le.trans (max_clog_le_eight hlen)) hbt.inner out
      (fun c hc => hbt.syms_eq ▸ hsyms c hc)] at hr
  obtain ⟨x, w', hx, hobuf, hopos⟩ := hr.complete hfit rfl
  exact ⟨b', w, x, w', (bodyDecompress_of_ok hfront).trans hx, hobuf, hopos⟩

end Sys2Proof.Machine
end

section
/-! PROOFS. The composite commands: as functions, against their unit commands, and the round trip (45_control.md R162 to
R164, 44_decode.md R149). -/

namespace Sys2Proof.Machine

/-- Settles O49: COMPRESS is FREQ, TREE and CODES on the input, and PACK on their tables. -/
theorem compressWritesEnvelope : Obligations.CompressWritesEnvelope := by
  intro s
  refine ⟨fun h => ?empty, fun h => ?inlen, fun h0 h1 => ?input⟩
  case empty => exact congrArg settle (bodyCompress_of_raise (compressFront_of_freq_raise (bodyFreq_of_empty h)))
  case inlen => exact congrArg settle (bodyCompress_of_raise (compressFront_of_freq_raise (bodyFreq_of_inlen h)))
  case input =>
    obtain ⟨b, t, w, hbt, hn, hlen, -, hfront⟩ := compressFront_of_input h0 h1
    refine ⟨b, codesOf t, hbt.built, (hbt.treeIn_overlay hlen s.node).buildCodes hn, fun hfit => ?_, fun hover => ?_⟩
    · obtain ⟨w', -, hpack⟩ := bodyPack_tabled_of_fit hbt hn h1 w hfit
      rw [packed_tabled] at hpack
      refine ⟨_, w', congrArg settle ((bodyCompress_of_ok hfront).trans hpack), fun a => ?_⟩
      rw [State.obufByte, memRead_packedMem]
      split
      · rfl
      · rfl
    · obtain ⟨i, w', -, hpack⟩ := bodyPack_tabled_of_overflow hbt hn h1 w hover
      exact ⟨_, congrArg settle ((bodyCompress_of_ok hfront).trans hpack), rfl, rfl, rfl, rfl, rfl, rfl, rfl, rfl, rfl,
        rfl⟩

/-- Settles O50: DECOMPRESS is LOAD and TREE on the envelope, and WALK on their tree. -/
theorem decompressDecodesEnvelope : Obligations.DecompressDecodesEnvelope := by
  intro s l
  refine ⟨fun h1 he => ?envelope, fun h => ?other⟩
  case envelope =>
    have hl := (loadable_iff s).mpr ⟨h1, he⟩
    obtain ⟨b, t, w, hbt, hn, hlen, -, hfront⟩ := decompressFront_of_loadable hl
    have hr := walkResult_loaded hl l w hbt hn hlen
    refine ⟨b, codesOf t, by rw [hl.envTable_eq]; exact hbt.built, (hbt.treeIn_overlay hlen s.node).buildCodes hn, ?_⟩
    intro e base bits r succeeds fails
    change WalkResult l (treed (loaded s w) b w) r at hr
    have hsucceeds : ∀ mid, WalkSucceeds l (treed (loaded s w) b w) r.1 mid → succeeds mid := by
      rintro mid ⟨x, w', hx, hobuf, hopos⟩
      refine ⟨x.obuf, w', ?_, fun a => by rw [hobuf]; exact obufByte_memWriteList s r.1 a⟩
      rw [walked_loaded hl, hopos] at hx
      exact congrArg settle ((bodyDecompress_of_ok hfront).trans hx)
    have hfails : ∀ c, WalkFails l (treed (loaded s w) b w) c → fails c := by
      rintro c ⟨i, w', hx, -⟩
      exact ⟨_, congrArg settle ((bodyDecompress_of_ok hfront).trans hx), rfl, rfl, rfl, rfl, rfl, rfl, rfl, rfl, rfl,
        rfl⟩
    exact ⟨fun hf => ⟨fun he => hsucceeds _ (hr.complete hf he), fun he hl => hsucceeds _ (hr.lenient hf he hl),
      fun he hl => hfails _ (hr.strict hf he hl), fun he => hfails _ (hr.badPath hf he)⟩,
      fun ho => hfails _ (hr.overflow ho)⟩
  case other =>
    rcases decompressFront_cases s with ⟨e, i, u, hload, hfront⟩ | ⟨hl, -⟩
    · refine ⟨_, congrArg settle hload, ?_⟩
      have hsame : (bodyOf .load s).Keeps (ObufSame s) := bodyOf_obufSame (.inr (.inr (.inr rfl))) s
      rw [bodyOf, hload] at hsame
      obtain ⟨-, hgen⟩ := hsame
      rw [← hgen]
      exact congrArg settle (bodyDecompress_of_raise hfront)
    · exact absurd ((loadable_iff s).mp hl) h

/-- Settles O51: both ways come to PACK, or to WALK, in alike states, or end in the same error before. -/
theorem compositeEqualsUnitSequence : Obligations.CompositeEqualsUnitSequence := by
  refine ⟨fun s _ he _ => ?compress, fun s l _ he _ => ?decompress⟩
  case compress =>
    obtain ⟨t, u, ht, hu, ⟨hsame, hobuf, hnone⟩, hlast⟩ := compress_sameCompletion he
    refine ⟨t, u, ht, hu, hsame, hobuf, hnone, issue_lastop (i := .compress) nofun nofun ht, fun h => ?_⟩
    obtain ⟨x, hx⟩ := hlast h
    exact issue_lastop (i := .pack) nofun nofun hx
  case decompress =>
    obtain ⟨t, u, ht, hu, ⟨hsame, hobuf, hnone⟩, hlast⟩ := decompress_sameCompletion l he
    refine ⟨t, u, ht, hu, hsame, hobuf, hnone,
      (issue_lastop (i := .decompress l) nofun nofun ht).trans (encode_decompress_lastop l), fun h => ?_⟩
    obtain ⟨x, hx⟩ := hlast h
    exact (issue_lastop (i := .walk l) nofun nofun hx).trans (encode_walk_lastop l)

/-- Settles O52: LOAD reads back the table and the payload that PACK wrote, so the tree and its code are the same. -/
theorem roundTripRestoresInput : Obligations.RoundTripRestoresInput := by
  intro s s' t l h0 h1 _ hocap _ hissue hterr hs'err _ hinput hin _ hocap'
  rcases exec_next (i := .compress) nofun nofun hissue with ⟨v, hv, -, rfl⟩ | ⟨e, info, v, -, -, rfl⟩
  case inr => cases hterr
  obtain ⟨b, sh, hbt, hn, hlen256, hbits, henv⟩ :=
    bodyCompress_envelope (s := accept (encode .compress) s) h0 h1 hocap hv
  replace hinput := hinput.trans henv
  obtain ⟨b', w, x, w', hbody, hobuf, hopos⟩ := decompress_of_envelope (s := accept (encode (.decompress l)) s')
    (out := s.input) l hbt hn hlen256 (stableTable_ok _ (input_ne_nil h0) (by rw [input_length]; exact s.inLen.isLt))
    hbits (fun c hc => mem_inputSyms.mpr hc) hin hinput (by rw [input_length]; exact hocap')
  have hout : BitVec.ofNat 32 x.opos = s.inLen := by rw [hopos, input_length, BitVec.ofNat_toNat, BitVec.setWidth_eq]
  refine ⟨_, issue_of_ok (i := .decompress l) nofun nofun hbody, rfl, hs'err, rfl, hout, ?_⟩
  have hread := obufBytes_of_output
    (s := walked (treed (loaded (accept (encode (.decompress l)) s') w) b' w) x false w') hobuf
  rw [input_length, ← hout] at hread
  exact hread

end Sys2Proof.Machine
end
